-- ==== Sys2Proof/Word.lean ====
section
/-! DEFINITION. The byte and the 16-bit microsecond field, and the closed vocabularies the spec names:
pin actions, pin modes and levels, edge-timing modes and protocol error kinds. -/

namespace Sys2Proof

/-- One byte of a command or response line (20_memory.md R41). -/
abbrev Byte := BitVec 8

/-- The content of a command line: its bytes without the terminating newline (30_encoding.md R51). -/
abbrev Line := List Byte

/-- An int16 field of microseconds (00_scope.md R9, 10_state.md R14); read as a number with `BitVec.toInt`. -/
abbrev MicroWord := BitVec 16

/-- A pin index field, 5 bits unsigned (10_state.md R14). -/
abbrev PinWord := BitVec 5

/-- The four actions of the pin port (10_state.md R33). -/
inductive PinAct where
  | output
  | input
  | high
  | low
  deriving DecidableEq, Repr

/-- The modes a pin can be in (10_state.md R33, R36). The block selects output and input only. The spec does not say
which modes an untouched pin can be in; the model takes them to be these two and the collaborator's alternate functions,
one for each code (DESIGN CHOICE, log 21). -/
inductive PinMode where
  | output
  | input
  | alternate (code : Nat)
  deriving DecidableEq, Repr, Inhabited

/-- The pin levels the block can drive (10_state.md R33, R36). The level of an untouched pin is taken to be one of the two
as well (DESIGN CHOICE, log 21). -/
inductive PinLevel where
  | high
  | low
  deriving DecidableEq, Repr, Inhabited

/-- The two values of the parameter `EDGE_TIMING` (00_scope.md R8). -/
inductive EdgeTiming where
  | exact
  | lowerBound
  deriving DecidableEq, Repr

/-- The protocol error kinds (60_exceptions.md R103). -/
inductive ErrorKind where
  | invalidCommand
  | unknownCommand
  | invalidChannel
  | notConfigured
  | invalidPin
  | invalidRange
  deriving DecidableEq, Repr

end Sys2Proof
end

