-- ==== Sys2Proof/Config.lean ====
section
/-! DEFINITION. The block's fixed parameters (00_scope.md R7) and its free values: constants with no body, so that
nothing can be proved of what they are. -/

namespace Sys2Proof.Config

/-- `ABSOLUTE_MIN`, in µs (00_scope.md R7, 41_range_pulse.md R71). -/
def absoluteMin : Int := 500

/-- `ABSOLUTE_MAX`, in µs (00_scope.md R7, 41_range_pulse.md R71). -/
def absoluteMax : Int := 2500

/-- `NEUTRAL_US`, the default pulse (00_scope.md R7). -/
def neutralUs : Int := 1500

/-- `DEFAULT_MIN_US` (00_scope.md R7). -/
def defaultMinUs : Int := 1000

/-- `DEFAULT_MAX_US` (00_scope.md R7). -/
def defaultMaxUs : Int := 2000

/-- `FRAME_PERIOD_US` (00_scope.md R7). -/
def framePeriodUs : Nat := 20000

/-- The largest pin index, `NUM_PINS` less one (00_scope.md R7). -/
def lastPin : Int := 27

/-- The largest channel id, `NUM_CHANNELS` less one (00_scope.md R7). -/
def lastChannel : Int := 7

/-- FREE VALUE. A duration in µs that the spec leaves open, by draw number: the cost of the control phase, its responses
included (46_control_loop.md R97), lateness under `lower_bound` (45_frame_scheduler.md R81, R84, R87), the times of the
shutdown's events (70_reset_and_hazards.md R122), the passing of time in HALTED and FAILED (log 10). Log 2. -/
opaque freeDelay : Nat → Nat

/-- FREE VALUE. Which connection's next line is applied, by draw number (`CONN_ORDER`, 46_control_loop.md R96). Log 3. -/
opaque freeChoice : Nat → Nat

/-- FREE VALUE. The mode of a pin before the block's first mode event for it (10_state.md R36), by number of resets
and pin. Log 21. -/
opaque unknownPinMode : Nat → Nat → PinMode

/-- FREE VALUE. The level of a pin before the block's first level event for it (10_state.md R36), by number of resets
and pin. Log 21. -/
opaque unknownPinLevel : Nat → Nat → PinLevel

end Sys2Proof.Config
end

