-- ==== Sys2Proof/Syntax.lean ====
section
/-! DEFINITION. The block's instructions: the eight commands of the control protocol (30_encoding.md R58),
one constructor per row of the opcode table. Operands are mathematical integers (30_encoding.md R57). -/

namespace Sys2Proof

/-- A decoded command. -/
inductive Instr where
  /-- `SETUP <c> GPIO <p>`, format FS (40_channel_config.md R65). -/
  | setup (c p : Int)
  /-- `ENABLE <c>`, format FC (40_channel_config.md R68). -/
  | enable (c : Int)
  /-- `DISABLE <c>`, format FC (40_channel_config.md R69). -/
  | disable (c : Int)
  /-- `SET <c> RANGE <a> <b>`, format FR (41_range_pulse.md R72). -/
  | setRange (c a b : Int)
  /-- `SET <c> PULSE <v>`, format FP (41_range_pulse.md R74). -/
  | setPulse (c v : Int)
  /-- `GET <c> RANGE`, format FG (42_query.md R77). -/
  | getRange (c : Int)
  /-- `GET <c> PULSE`, format FG (42_query.md R78). -/
  | getPulse (c : Int)
  /-- `GET <c> STATE`, format FG (42_query.md R79). -/
  | getState (c : Int)
  deriving DecidableEq, Repr

/-- The channel operand every command carries as its second token (20_memory.md R38). -/
def Instr.channel : Instr → Int
  | .setup c _ => c
  | .enable c => c
  | .disable c => c
  | .setRange c _ _ => c
  | .setPulse c _ => c
  | .getRange c => c
  | .getPulse c => c
  | .getState c => c

end Sys2Proof
end

