-- ==== Sys2Proof/Machine/State.lean ====
section
/-! DEFINITION. The block's state as plain data (10_state.md), with the ports and the host side that claims must be able
to name, and the state after reset (70_reset_and_hazards.md R117). -/

namespace Sys2Proof.Machine

/-- One slot of the channel table (10_state.md R14). -/
structure Channel where
  configured : Bool
  pin : PinWord
  enabled : Bool
  minUs : MicroWord
  maxUs : MicroWord
  pulseUs : MicroWord
  deriving DecidableEq, Repr

/-- A slot's reset value (10_state.md R14). -/
def Channel.reset : Channel where
  configured := false
  pin := 0
  enabled := false
  minUs := BitVec.ofInt 16 Config.defaultMinUs
  maxUs := BitVec.ofInt 16 Config.defaultMaxUs
  pulseUs := BitVec.ofInt 16 Config.neutralUs

/-- What a frame reads of one channel (10_state.md R29). -/
structure SnapEntry where
  enabled : Bool
  pin : PinWord
  pulseUs : MicroWord
  deriving DecidableEq, Repr

/-- The sequencer phase (10_state.md R23). -/
inductive Phase where
  | reset
  | init
  | wait
  | frame
  | control
  | shutdown
  | halted
  | failed
  deriving DecidableEq, Repr

/-- One event of the pin-port trace (10_state.md R33). -/
structure PinEvent where
  time : Nat
  pin : Nat
  act : PinAct
  deriving DecidableEq, Repr

/-- The result record of one command (10_state.md R32). -/
structure ResultRecord where
  code : Nat
  rangeClamped : Bool
  pulseChanged : Bool
  deriving DecidableEq, Repr

/-- A connection and the bytes received on it and not yet taken (10_state.md R30). -/
structure Conn where
  id : Nat
  buffer : List Byte
  deriving DecidableEq, Repr

/-- What the host can do to the block (10_state.md R30, R34, 46_control_loop.md R99). -/
inductive HostEvent where
  | connect (id : Nat)
  | bytes (id : Nat) (data : List Byte)
  | disconnect (id : Nat)
  | stop
  deriving DecidableEq, Repr

/-- Free values in the order they are drawn: first the values given as an argument, then those of an opaque constant at
a counter (log 2, log 3). -/
structure Draws where
  given : List Nat
  count : Nat
  deriving DecidableEq, Repr

/-- The whole state (INVENTORY.md lists every field with its rule). -/
structure State where
  /-- the channel table, `ch` (R13) -/
  ch : Vector Channel 8
  /-- the sequencer phase (R23) -/
  phase : Phase
  /-- `t_run0` (R24) -/
  tRun0 : Nat
  /-- `served` (R24) -/
  served : Nat
  /-- `overrun_count` (R25) -/
  overrunCount : BitVec 32
  /-- `frame_index` (R26) -/
  frameIndex : Nat
  /-- `stop_requested` (R27) -/
  stopRequested : Bool
  /-- `shared_pin_fault` (R28) -/
  sharedPinFault : Bool
  /-- the frame snapshot (R29) -/
  snapshot : Option (Vector SnapEntry 8)
  /-- the open connections with their input buffers (R30) -/
  conns : List Conn
  /-- connections not yet accepted by a poll, oldest first (R99) -/
  pending : List Conn
  /-- the lines taken at the poll and not yet applied; none before the poll (R95) -/
  batch : Option (List (Nat × List Line))
  /-- the connection of the command being executed, `conn` (R95) -/
  conn : Nat
  /-- the responses handed to the host, oldest first (R31, R100) -/
  responses : List (Nat × List Byte)
  /-- the result records, oldest first (R32) -/
  records : List (Nat × ResultRecord)
  /-- the pin-port trace, oldest first (R33) -/
  trace : List PinEvent
  /-- `now`, in µs (R34) -/
  now : Nat
  /-- `regs_ok` (R34) -/
  regsOk : Bool
  /-- `timer_ok` (R34) -/
  timerOk : Bool
  /-- `endpoint_ok` (R34) -/
  endpointOk : Bool
  /-- the parameter `EDGE_TIMING` (00_scope.md R8; log 4) -/
  edgeTiming : EdgeTiming
  /-- what the host will do and when, in order (log 6) -/
  hostInputs : List (Nat × HostEvent)
  /-- free durations (log 2) -/
  delays : Draws
  /-- the parameter `CONN_ORDER` (00_scope.md R8; log 3) -/
  choices : Draws
  /-- how many resets there have been (log 21) -/
  resets : Nat
  deriving DecidableEq, Repr

/-- The reasons a step can stop the machine with a fault: there are none. No error of the block stops it by a fault:
protocol errors are answered and the next line follows, a fatal initialisation error leads to the phase `FAILED`, and
`shared_pin_fault` "stops nothing" (60_exceptions.md R104, R106, R107, R108; log 22). Safe and exact. -/
inductive Fault where
  deriving DecidableEq, Repr

/-- The reasons a step can be refused. -/
inductive Refusal where
  /-- Raised by an arm of `exec` whose instruction has no meaning yet; no arm raises it now. Safe. -/
  | notModelled (mnemonic : String)
  deriving DecidableEq, Repr

/-- The block right after reset (70_reset_and_hazards.md R117); the values the spec does not give are those of log 7,
log 8, log 21 and log 23. -/
def State.reset : State where
  ch := Vector.replicate 8 Channel.reset
  phase := .reset
  tRun0 := 0
  served := 0
  overrunCount := 0
  frameIndex := 0
  stopRequested := false
  sharedPinFault := false
  snapshot := none
  conns := []
  pending := []
  batch := none
  conn := 0
  responses := []
  records := []
  trace := []
  now := 0
  regsOk := true
  timerOk := true
  endpointOk := true
  edgeTiming := .exact
  hostInputs := []
  delays := ⟨[], 0⟩
  choices := ⟨[], 0⟩
  resets := 0

end Sys2Proof.Machine
end

