-- ==== Sys2Proof/Machine/Operands.lean ====
section
/-! DEFINITION. The operands of the commands: the channel and pin checks, the clamp, the two range checks, and the int16
fields a number is stored in. -/

namespace Sys2Proof.Machine

/-- An integer stored in an int16 field; every value the commands store is 500..2500, so it fits (41_range_pulse.md
R70). -/
def toField (v : Int) : MicroWord := BitVec.ofInt 16 v

/-- A channel operand names a slot when it is 0..7 (20_memory.md R38). -/
def channelOperand (c : Int) : Option (Fin 8) :=
  if h : 0 ≤ c ∧ c ≤ 7 then some ⟨c.toNat, by omega⟩ else none

/-- A pin operand names a pin when it is 0..27 (20_memory.md R39). -/
def pinOperand (p : Int) : Option PinWord :=
  if 0 ≤ p ∧ p ≤ Config.lastPin then some (BitVec.ofNat 5 p.toNat) else none

/-- `clamp(v, lo, hi)` (41_range_pulse.md R70). -/
def clamp (v lo hi : Int) : Int := if v < lo then lo else if hi < v then hi else v

/-- The second clamp layer, into the absolute bounds (41_range_pulse.md R71). -/
def absoluteClamp (v : Int) : Int := clamp v Config.absoluteMin Config.absoluteMax

/-- A requested minimum is clamped up to `ABSOLUTE_MIN` (41_range_pulse.md R72). -/
def raisedMin (a : Int) : Int := if a < Config.absoluteMin then Config.absoluteMin else a

/-- A requested maximum is clamped down to `ABSOLUTE_MAX` (41_range_pulse.md R72). -/
def loweredMax (b : Int) : Int := if Config.absoluteMax < b then Config.absoluteMax else b

/-- The bounds `SET RANGE` stores; none when the raw or the clamped bounds are not strictly ordered (41_range_pulse.md
R72). -/
def rangeOperand (a b : Int) : Option (Int × Int) :=
  if b ≤ a then none
  else if loweredMax b ≤ raisedMin a then none
  else some (raisedMin a, loweredMax b)

end Sys2Proof.Machine
end

