-- ==== Sys2Proof/Decode.lean ====
section
/-! DEFINITION. The command decoder, total on any bytes (30_encoding.md R51 to R60), the decimal text of a number
(R63), and the encoder that writes a command in its canonical spelling (R58, R61). -/

namespace Sys2Proof

/-! ## Bytes and keywords -/

/-- Newline, the line terminator (30_encoding.md R51). -/
def newline : Byte := 0x0A#8

/-- Carriage return (30_encoding.md R52). -/
def carriageReturn : Byte := 0x0D#8

/-- Space, the separator the block writes (30_encoding.md R53, R62). -/
def space : Byte := 0x20#8

/-- Minus sign (30_encoding.md R56). -/
def minusSign : Byte := 0x2D#8

/-- The ASCII bytes of some text (30_encoding.md R51). -/
def ascii (text : List Char) : List Byte := text.map fun ch => BitVec.ofNat 8 ch.toNat

def kwSetup : List Byte := ascii ['S', 'E', 'T', 'U', 'P']
def kwEnable : List Byte := ascii ['E', 'N', 'A', 'B', 'L', 'E']
def kwDisable : List Byte := ascii ['D', 'I', 'S', 'A', 'B', 'L', 'E']
def kwSet : List Byte := ascii ['S', 'E', 'T']
def kwGet : List Byte := ascii ['G', 'E', 'T']
def kwGpio : List Byte := ascii ['G', 'P', 'I', 'O']
def kwRange : List Byte := ascii ['R', 'A', 'N', 'G', 'E']
def kwPulse : List Byte := ascii ['P', 'U', 'L', 'S', 'E']
def kwState : List Byte := ascii ['S', 'T', 'A', 'T', 'E']

/-! ## Lines and tokens -/

/-- The content of the first complete line and what follows its newline; none while no newline is there
(30_encoding.md R51). -/
def splitLine : List Byte → Option (Line × List Byte)
  | [] => none
  | b :: bs =>
    if b = newline then some ([], bs)
    else (splitLine bs).map fun r => (b :: r.1, r.2)

/-- Every complete line of a buffer, in order, and the trailing partial line (10_state.md R30). -/
def splitLines : List Byte → List Line × List Byte
  | [] => ([], [])
  | b :: bs =>
    if b = newline then ([] :: (splitLines bs).1, (splitLines bs).2)
    else match splitLines bs with
      | ([], partialLine) => ([], b :: partialLine)
      | (l :: ls, partialLine) => ((b :: l) :: ls, partialLine)

/-- One trailing carriage return is removed, and no other byte (30_encoding.md R52). -/
def stripCR : Line → Line
  | [] => []
  | [b] => if b = carriageReturn then [] else [b]
  | b :: bs => b :: stripCR bs

/-- The separators are space and horizontal tab (30_encoding.md R53). -/
def isSeparator (b : Byte) : Bool := b == 0x20#8 || b == 0x09#8

/-- A token under construction ends: an empty one is no token. -/
def endToken (current : List Byte) : List (List Byte) :=
  match current with
  | [] => []
  | _ :: _ => [current]

/-- The tokens of a line whose token under construction is `current`. -/
def tokensFrom (current : List Byte) : Line → List (List Byte)
  | [] => endToken current
  | b :: bs =>
    if isSeparator b then endToken current ++ tokensFrom [] bs
    else tokensFrom (current ++ [b]) bs

/-- The tokens of a line: the maximal runs of bytes that are not separators (30_encoding.md R53). -/
def tokens (content : Line) : List (List Byte) := tokensFrom [] content

/-- Case folding of one byte (30_encoding.md R55). -/
def foldByte (b : Byte) : Byte := if 0x61#8 ≤ b ∧ b ≤ 0x7A#8 then b - 0x20#8 else b

/-- A token matches a keyword when it equals it after folding (30_encoding.md R55). -/
def isKeyword (token keyword : List Byte) : Bool := token.map foldByte == keyword

/-! ## Numerals -/

/-- A decimal digit (30_encoding.md R56). -/
def isDigit (b : Byte) : Bool := decide (0x30#8 ≤ b) && decide (b ≤ 0x39#8)

/-- The value of a digit. -/
def digitValue (b : Byte) : Nat := b.toNat - 0x30

/-- The value of a row of digits, most significant first (30_encoding.md R56). -/
def digitsValue (digits : List Byte) : Nat := digits.foldl (fun acc b => 10 * acc + digitValue b) 0

/-- The value of a row of one or more digits. -/
def unsignedNumeral (digits : List Byte) : Option Nat :=
  match digits with
  | [] => none
  | _ :: _ => if digits.all isDigit then some (digitsValue digits) else none

/-- The exact integer a numeral token denotes; none when the token is no numeral (30_encoding.md R56). -/
def numeral (token : List Byte) : Option Int :=
  match token with
  | [] => none
  | b :: bs =>
    if b = minusSign then (unsignedNumeral bs).map fun n : Nat => -(n : Int)
    else (unsignedNumeral (b :: bs)).map fun n : Nat => (n : Int)

/-! ## Decode -/

/-- `SETUP <c> GPIO <p>`, the tokens after the verb (30_encoding.md R59). -/
def decodeSetup : List (List Byte) → Except ErrorKind Instr
  | [t1, t2, t3] =>
    if isKeyword t2 kwGpio then
      match numeral t1, numeral t3 with
      | some c, some p => .ok (.setup c p)
      | _, _ => .error .invalidCommand
    else .error .invalidCommand
  | _ => .error .invalidCommand

/-- A format FC command, the tokens after the verb (30_encoding.md R59). -/
def decodeChannelOnly (make : Int → Instr) : List (List Byte) → Except ErrorKind Instr
  | [t1] =>
    match numeral t1 with
    | some c => .ok (make c)
    | none => .error .invalidCommand
  | _ => .error .invalidCommand

/-- The two `SET` commands, the tokens after the verb (30_encoding.md R59). -/
def decodeSet : List (List Byte) → Except ErrorKind Instr
  | [t1, t2, t3, t4] =>
    if isKeyword t2 kwRange then
      match numeral t1, numeral t3, numeral t4 with
      | some c, some a, some b => .ok (.setRange c a b)
      | _, _, _ => .error .invalidCommand
    else .error .invalidCommand
  | [t1, t2, t3] =>
    if isKeyword t2 kwPulse then
      match numeral t1, numeral t3 with
      | some c, some v => .ok (.setPulse c v)
      | _, _ => .error .invalidCommand
    else .error .invalidCommand
  | _ => .error .invalidCommand

/-- The three `GET` commands, the tokens after the verb (30_encoding.md R59). -/
def decodeGet : List (List Byte) → Except ErrorKind Instr
  | [t1, t2] =>
    match numeral t1 with
    | some c =>
      if isKeyword t2 kwRange then .ok (.getRange c)
      else if isKeyword t2 kwPulse then .ok (.getPulse c)
      else if isKeyword t2 kwState then .ok (.getState c)
      else .error .invalidCommand
    | none => .error .invalidCommand
  | _ => .error .invalidCommand

/-- Decode of a command line with token 0 `verb` and the tokens `rest` after it (30_encoding.md R59). -/
def decodeTokens (verb : List Byte) (rest : List (List Byte)) : Except ErrorKind Instr :=
  if isKeyword verb kwSetup then decodeSetup rest
  else if isKeyword verb kwEnable then decodeChannelOnly .enable rest
  else if isKeyword verb kwDisable then decodeChannelOnly .disable rest
  else if isKeyword verb kwSet then decodeSet rest
  else if isKeyword verb kwGet then decodeGet rest
  else .error .unknownCommand

/-- What a complete line is: dropped, refused, or a command (30_encoding.md R54, R59). -/
inductive LineMeaning where
  | blank
  | bad (kind : ErrorKind)
  | command (i : Instr)
  deriving DecidableEq, Repr

/-- Decode of one line's content (30_encoding.md R52 to R59). -/
def decodeLine (content : Line) : LineMeaning :=
  match tokens (stripCR content) with
  | [] => .blank
  | verb :: rest =>
    match decodeTokens verb rest with
    | .ok i => .command i
    | .error kind => .bad kind

/-- Why some bytes hold no command: the line has no newline yet, has no token, or is illegal with the kind of error it
is answered with (30_encoding.md R51, R54, R60). -/
inductive DecodeError where
  | noNewline
  | blankLine
  | badLine (kind : ErrorKind)
  deriving DecidableEq, Repr

/-- Decode of the first line of a byte stream: the command and the bytes after its newline, or the reason there is
none. -/
def decode (bytes : List Byte) : Except DecodeError (Instr × List Byte) :=
  match splitLine bytes with
  | none => .error .noNewline
  | some (content, rest) =>
    match decodeLine content with
    | .blank => .error .blankLine
    | .bad kind => .error (.badLine kind)
    | .command i => .ok (i, rest)

/-- The low `n` bytes of `w`, the first byte of the text in bits 7..0, as the opcode table's bits are numbered
(log 18). -/
def bytesOfWord : Nat → Nat → List Byte
  | 0, _ => []
  | n + 1, w => BitVec.ofNat 8 w :: bytesOfWord n (w / 256)

/-- The instruction the decoder reads from the text whose bytes are numbered as the opcode table numbers bits
(log 18). -/
def decodeTableWord (nbits w : Nat) : Option Instr :=
  match decode (bytesOfWord ((nbits + 7) / 8) w) with
  | .ok (i, _) => some i
  | .error _ => none

/-! ## Encode -/

/-- The byte of a digit 0..9. -/
def digitByte (d : Nat) : Byte := BitVec.ofNat 8 (0x30 + d)

/-- The decimal digits of `n`, most significant first, with fuel for one digit each. -/
def decDigits : Nat → Nat → List Byte
  | 0, _ => []
  | fuel + 1, n => if n < 10 then [digitByte n] else decDigits fuel (n / 10) ++ [digitByte (n % 10)]

/-- The decimal text of a natural number (30_encoding.md R63). -/
def decNat (n : Nat) : List Byte := decDigits (n + 1) n

/-- `dec(n)`, the decimal text of an integer (30_encoding.md R63). -/
def dec (n : Int) : List Byte :=
  match n with
  | .ofNat m => decNat m
  | .negSucc m => minusSign :: decNat (m + 1)

/-- The canonical spelling of a command, without its newline (30_encoding.md R58, R61). -/
def encodeLine (i : Instr) : Line :=
  match i with
  | .setup c p => kwSetup ++ space :: dec c ++ space :: kwGpio ++ space :: dec p
  | .enable c => kwEnable ++ space :: dec c
  | .disable c => kwDisable ++ space :: dec c
  | .setRange c a b => kwSet ++ space :: dec c ++ space :: kwRange ++ space :: dec a ++ space :: dec b
  | .setPulse c v => kwSet ++ space :: dec c ++ space :: kwPulse ++ space :: dec v
  | .getRange c => kwGet ++ space :: dec c ++ space :: kwRange
  | .getPulse c => kwGet ++ space :: dec c ++ space :: kwPulse
  | .getState c => kwGet ++ space :: dec c ++ space :: kwState

/-- The bytes of a command: its canonical spelling and the newline (30_encoding.md R51, R61). -/
def encode (i : Instr) : List Byte := encodeLine i ++ [newline]

end Sys2Proof
end

