-- ==== Sys2Proof/Machine/Flags.lean ====
section
/-! DEFINITION. The result record's fields: the error codes and messages (60_exceptions.md R103) and the two flags
(10_state.md R32). -/

namespace Sys2Proof.Machine

/-- The numeric code of an error kind (60_exceptions.md R103). -/
def errorCode : ErrorKind → Nat
  | .invalidCommand => 1
  | .unknownCommand => 2
  | .invalidChannel => 3
  | .notConfigured => 4
  | .invalidPin => 5
  | .invalidRange => 6

/-- The message of an error kind (60_exceptions.md R103). -/
def errorMessage : ErrorKind → List Char
  | .invalidCommand =>
    ['I', 'n', 'v', 'a', 'l', 'i', 'd', ' ', 'c', 'o', 'm', 'm', 'a', 'n', 'd']
  | .unknownCommand =>
    ['U', 'n', 'k', 'n', 'o', 'w', 'n', ' ', 'c', 'o', 'm', 'm', 'a', 'n', 'd']
  | .invalidChannel =>
    ['I', 'n', 'v', 'a', 'l', 'i', 'd', ' ', 'c', 'h', 'a', 'n', 'n', 'e', 'l']
  | .notConfigured =>
    ['C', 'h', 'a', 'n', 'n', 'e', 'l', ' ', 'n', 'o', 't', ' ', 'c', 'o', 'n', 'f', 'i', 'g', 'u', 'r', 'e', 'd']
  | .invalidPin =>
    ['I', 'n', 'v', 'a', 'l', 'i', 'd', ' ', 'G', 'P', 'I', 'O', ' ', 'p', 'i', 'n']
  | .invalidRange =>
    ['I', 'n', 'v', 'a', 'l', 'i', 'd', ' ', 'r', 'a', 'n', 'g', 'e', ':', ' ', 'm', 'i', 'n', ' ', 'm', 'u', 's', 't',
      ' ', 'b', 'e', ' ', 'l', 'e', 's', 's', ' ', 't', 'h', 'a', 'n', ' ', 'm', 'a', 'x']

/-- `range_clamped` of a successful `SET RANGE a b` that stores `[lo, hi]` (41_range_pulse.md R72). -/
def rangeClampedFlag (a b lo hi : Int) : Bool := lo != a || hi != b

/-- `pulse_changed`: the value stored differs from the one before (`SET RANGE`) or from the one asked for (`SET PULSE`)
(41_range_pulse.md R72, R74). -/
def pulseChangedFlag (reference stored : Int) : Bool := stored != reference

end Sys2Proof.Machine
end

