-- ==== Sys2Proof/Machine/Ops.lean ====
section
/-! DEFINITION. The named operations the meanings share: writing a channel slot, free values and the passing of time,
pin events, responses and result records, raising a protocol error (which stands where another machine takes an
exception; there is no return from one, 60_exceptions.md R107), reset, and the views of the ports. -/

namespace Sys2Proof.Machine

/-- The channel ids in ascending order (20_memory.md R38). -/
def channelIds : List (Fin 8) := [0, 1, 2, 3, 4, 5, 6, 7]

/-- `ch[c] <- v` (00_scope.md R10). -/
def State.setCh (s : State) (c : Fin 8) (v : Channel) : State := { s with ch := s.ch.set c v }

/-! ## Free values and time -/

/-- The next free value and the draws that are left (log 2, log 3). -/
def Draws.next (free : Nat → Nat) (d : Draws) : Nat × Draws :=
  match d.given with
  | v :: vs => (v, { d with given := vs })
  | [] => (free d.count, { d with count := d.count + 1 })

/-- Time passes by a free amount, possibly none (log 2). -/
def State.passTime (s : State) : State :=
  { s with now := s.now + (s.delays.next Config.freeDelay).1, delays := (s.delays.next Config.freeDelay).2 }

/-- Time passes by exactly `d` µs. -/
def State.elapse (s : State) (d : Nat) : State := { s with now := s.now + d }

/-- The host's actions that are due: those at the head of the list whose time has come (log 6). -/
def State.dueInputs (s : State) : List (Nat × HostEvent) := s.hostInputs.takeWhile fun x => decide (x.1 ≤ s.now)

/-- The host's actions that still lie in the future (log 6). -/
def State.laterInputs (s : State) : List (Nat × HostEvent) := s.hostInputs.dropWhile fun x => decide (x.1 ≤ s.now)

/-- The stop input has been asserted (10_state.md R34). -/
def State.stopDue (s : State) : Bool := s.dueInputs.any fun x => x.2 == .stop

/-- A stop that has been asserted sets `stop_requested`, in whatever phase the block is (10_state.md R27). -/
def State.landStop (s : State) : State := { s with stopRequested := s.stopRequested || s.stopDue }

/-- `landStop` on a step's outcome. -/
def landed (o : Host.Outcome State Fault Refusal) : Host.Outcome State Fault Refusal :=
  match o with
  | .next s => .next s.landStop
  | .fault r => .fault r
  | .refused r => .refused r

/-- Lateness: none under `exact`, a free amount under `lower_bound` (92_eei_decisions.md D3). -/
def State.lateness (s : State) : State :=
  match s.edgeTiming with
  | .exact => s
  | .lowerBound => s.passTime

/-! ## The pin port -/

/-- One event at the present time is appended to the pin-port trace (10_state.md R33). -/
def State.emitNow (s : State) (pin : PinWord) (act : PinAct) : State :=
  { s with trace := s.trace ++ [⟨s.now, pin.toNat, act⟩] }

/-- `Emit(pin, act)` of a command or of the shutdown: an event at a free time not before the present
(46_control_loop.md R97, 70_reset_and_hazards.md R122). -/
def State.emit (s : State) (pin : PinWord) (act : PinAct) : State := s.passTime.emitNow pin act

/-! ## The command port, output side -/

/-- A poll has accepted the connection, and no poll has seen it closed since (46_control_loop.md R99). -/
def State.accepted (s : State) (k : Nat) : Bool := s.conns.any fun c => c.id == k

/-- The host has closed the connection, which the block sees at its next poll only (60_exceptions.md R109). -/
def State.closing (s : State) (k : Nat) : Bool := s.dueInputs.any fun x => x.2 == .disconnect k

/-- A connection is open from the poll that accepts it until the host closes it (46_control_loop.md R99). -/
def State.isOpen (s : State) (k : Nat) : Bool := s.accepted k && !s.closing k

/-- One response line is handed to the host at the present time, and is dropped when the host has closed the command's
connection by then (46_control_loop.md R99, R100). -/
def State.handOver (s : State) (text : List Byte) : State :=
  { s with responses := if s.isOpen s.conn then s.responses ++ [(s.conn, text ++ [newline])] else s.responses }

/-- `Respond(conn, text)` (00_scope.md R10): the line is handed over at a free time not before the present, so that a
disconnect may come before or after it; the spec gives a response no time (DESIGN CHOICE, log 27). -/
def State.respond (s : State) (text : List Byte) : State := s.passTime.handOver text

/-- One result record (10_state.md R32). -/
def State.addRecord (s : State) (r : ResultRecord) : State := { s with records := s.records ++ [(s.conn, r)] }

/-- A successful command answers `text` with code 0 and its flags (10_state.md R32). -/
def State.succeed (s : State) (text : List Byte) (rangeClamped pulseChanged : Bool) : State :=
  (s.respond text).addRecord ⟨0, rangeClamped, pulseChanged⟩

/-- The response `OK` (30_encoding.md R62). -/
def okText : List Byte := ascii ['O', 'K']

/-- The response line of an error (30_encoding.md R62, 60_exceptions.md R103). -/
def errorText (kind : ErrorKind) : List Byte := ascii ['E', 'R', 'R', 'O', 'R', ' '] ++ ascii (errorMessage kind)

/-- `raise Error(kind)`: the one error response and the record `{code, false, false}`; no other state is written
(00_scope.md R10, 60_exceptions.md R104). -/
def State.raiseError (s : State) (kind : ErrorKind) : State :=
  (s.respond (errorText kind)).addRecord ⟨errorCode kind, false, false⟩

/-! ## Reset of a running machine -/

/-- What a reset does to a machine in any state: every state item of the block takes its reset value; the host's time,
initialisation results and future actions, the parameter `EDGE_TIMING` and the free values still to be drawn are not the
block's and stay. What the host did up to the reset is gone with the input buffers and the stop request
(70_reset_and_hazards.md R117, 60_exceptions.md R116; log 11). -/
def State.applyReset (s : State) : State :=
  { State.reset with
    now := s.now
    regsOk := s.regsOk
    timerOk := s.timerOk
    endpointOk := s.endpointOk
    edgeTiming := s.edgeTiming
    hostInputs := s.laterInputs
    delays := s.delays
    choices := s.choices
    resets := s.resets + 1 }

/-! ## Views of the ports -/

/-- The mode a pin has after one more event. -/
def modeAfter (pin : Nat) (mode : Option PinMode) (e : PinEvent) : Option PinMode :=
  if e.pin = pin then
    match e.act with
    | .output => some .output
    | .input => some .input
    | .high => mode
    | .low => mode
  else mode

/-- The level a pin has after one more event. -/
def levelAfter (pin : Nat) (level : Option PinLevel) (e : PinEvent) : Option PinLevel :=
  if e.pin = pin then
    match e.act with
    | .output => level
    | .input => level
    | .high => some .high
    | .low => some .low
  else level

/-- The mode the latest mode event of a trace gave a pin; none before the first one (10_state.md R36). -/
def tracedMode (trace : List PinEvent) (pin : Nat) : Option PinMode := trace.foldl (modeAfter pin) none

/-- The level the latest level event of a trace gave a pin; none before the first one (10_state.md R36). -/
def tracedLevel (trace : List PinEvent) (pin : Nat) : Option PinLevel := trace.foldl (levelAfter pin) none

/-- `pin_mode[p]` (10_state.md R36): unknown before the first mode event. -/
def State.pinMode (s : State) (pin : Nat) : PinMode :=
  (tracedMode s.trace pin).getD (Config.unknownPinMode s.resets pin)

/-- `pin_level[p]` (10_state.md R36): unknown before the first level event. -/
def State.pinLevel (s : State) (pin : Nat) : PinLevel :=
  (tracedLevel s.trace pin).getD (Config.unknownPinLevel s.resets pin)

/-- The response stream of one connection: the bytes handed over on it, in order (10_state.md R31). -/
def State.responseStream (s : State) (k : Nat) : List Byte :=
  ((s.responses.filter fun r => r.1 == k).map fun r => r.2).flatten

/-- The status outputs (10_state.md R35). -/
structure StatusOutputs where
  phase : Phase
  overrunCount : BitVec 32
  frameIndex : Nat
  sharedPinFault : Bool
  deriving DecidableEq, Repr

/-- The status outputs of a state (10_state.md R35). -/
def State.status (s : State) : StatusOutputs := ⟨s.phase, s.overrunCount, s.frameIndex, s.sharedPinFault⟩

end Sys2Proof.Machine
end

