-- ==== Sys2Proof/Machine/ChannelConfig.lean ====
section
/-! DEFINITION. The meanings of `SETUP`, `ENABLE` and `DISABLE` (40_channel_config.md). -/

namespace Sys2Proof.Machine

/-- The slot `SETUP` leaves: configured on pin `q`, every other field at its default (40_channel_config.md R65). -/
def setupChannel (q : PinWord) : Channel where
  configured := true
  pin := q
  enabled := false
  minUs := toField Config.defaultMinUs
  maxUs := toField Config.defaultMaxUs
  pulseUs := toField Config.neutralUs

/-- `SETUP c GPIO p` (40_channel_config.md R65). -/
def execSetup (c p : Int) (s : State) : Host.Outcome State Fault Refusal :=
  match channelOperand c with
  | none => .next (s.raiseError .invalidChannel)
  | some i =>
    match pinOperand p with
    | none => .next (s.raiseError .invalidPin)
    | some q =>
      .next ((((s.setCh i (setupChannel q)).emit q .output).emit q .low).succeed okText false false)

/-- `ENABLE c` (40_channel_config.md R68). -/
def execEnable (c : Int) (s : State) : Host.Outcome State Fault Refusal :=
  match channelOperand c with
  | none => .next (s.raiseError .invalidChannel)
  | some i =>
    if s.ch[i].configured then
      .next ((s.setCh i { s.ch[i] with enabled := true }).succeed okText false false)
    else .next (s.raiseError .notConfigured)

/-- `Emit(ch[c].pin, LOW)` when the channel is configured, nothing otherwise (40_channel_config.md R69). -/
def State.forceLow (s : State) (i : Fin 8) : State :=
  if s.ch[i].configured then s.emit s.ch[i].pin .low else s

/-- `DISABLE c` (40_channel_config.md R69). -/
def execDisable (c : Int) (s : State) : Host.Outcome State Fault Refusal :=
  match channelOperand c with
  | none => .next (s.raiseError .invalidChannel)
  | some i =>
    .next (((s.setCh i { s.ch[i] with enabled := false }).forceLow i).succeed okText false false)

end Sys2Proof.Machine
end

