-- ==== Sys2Proof/Machine/Query.lean ====
section
/-! DEFINITION. The meanings of `GET RANGE`, `GET PULSE` and `GET STATE` (42_query.md). -/

namespace Sys2Proof.Machine

/-- `RANGE <min> <max>` (30_encoding.md R62, 42_query.md R77). -/
def rangeText (ch : Channel) : List Byte := kwRange ++ space :: dec ch.minUs.toInt ++ space :: dec ch.maxUs.toInt

/-- `PULSE <value>` (30_encoding.md R62, 42_query.md R78). -/
def pulseText (ch : Channel) : List Byte := kwPulse ++ space :: dec ch.pulseUs.toInt

/-- `1` for true and `0` for false (30_encoding.md R63). -/
def bitText (b : Bool) : List Byte := if b then ascii ['1'] else ascii ['0']

/-- `GPIO <pin> ENABLE <0|1>` (30_encoding.md R62, 42_query.md R79). -/
def stateText (ch : Channel) : List Byte :=
  kwGpio ++ space :: dec ch.pin.toNat ++ space :: kwEnable ++ space :: bitText ch.enabled

/-- `GET c RANGE` (42_query.md R77). -/
def execGetRange (c : Int) (s : State) : Host.Outcome State Fault Refusal :=
  match channelOperand c with
  | none => .next (s.raiseError .invalidChannel)
  | some i => .next (s.succeed (rangeText s.ch[i]) false false)

/-- `GET c PULSE` (42_query.md R78). -/
def execGetPulse (c : Int) (s : State) : Host.Outcome State Fault Refusal :=
  match channelOperand c with
  | none => .next (s.raiseError .invalidChannel)
  | some i => .next (s.succeed (pulseText s.ch[i]) false false)

/-- `GET c STATE` (42_query.md R79). -/
def execGetState (c : Int) (s : State) : Host.Outcome State Fault Refusal :=
  match channelOperand c with
  | none => .next (s.raiseError .invalidChannel)
  | some i => .next (s.succeed (stateText s.ch[i]) false false)

end Sys2Proof.Machine
end

