-- ==== Sys2Proof/Machine/RangePulse.lean ====
section
/-! DEFINITION. The meanings of `SET RANGE` and `SET PULSE` (41_range_pulse.md). -/

namespace Sys2Proof.Machine

/-- The pulse a channel keeps when its range becomes `[lo, hi]` (41_range_pulse.md R72). -/
def reclampedPulse (old lo hi : Int) : Int := absoluteClamp (clamp old lo hi)

/-- `SET c RANGE a b` (41_range_pulse.md R72). -/
def execSetRange (c a b : Int) (s : State) : Host.Outcome State Fault Refusal :=
  match channelOperand c with
  | none => .next (s.raiseError .invalidChannel)
  | some i =>
    match rangeOperand a b with
    | none => .next (s.raiseError .invalidRange)
    | some (lo, hi) =>
      let old := s.ch[i].pulseUs.toInt
      let pulse := reclampedPulse old lo hi
      .next ((s.setCh i { s.ch[i] with minUs := toField lo, maxUs := toField hi, pulseUs := toField pulse }).succeed
        okText (rangeClampedFlag a b lo hi) (pulseChangedFlag old pulse))

/-- The pulse `SET PULSE v` stores on a channel (41_range_pulse.md R74). -/
def clampedPulse (ch : Channel) (v : Int) : Int := absoluteClamp (clamp v ch.minUs.toInt ch.maxUs.toInt)

/-- `SET c PULSE v` (41_range_pulse.md R74). -/
def execSetPulse (c v : Int) (s : State) : Host.Outcome State Fault Refusal :=
  match channelOperand c with
  | none => .next (s.raiseError .invalidChannel)
  | some i =>
    if s.ch[i].configured then
      let pulse := clampedPulse s.ch[i] v
      .next ((s.setCh i { s.ch[i] with pulseUs := toField pulse }).succeed okText false (pulseChangedFlag v pulse))
    else .next (s.raiseError .notConfigured)

end Sys2Proof.Machine
end

