-- ==== Sys2Proof/Machine/Dispatch.lean ====
section
/-! DEFINITION. The dispatch of a decoded command to its meaning (30_encoding.md R58), one arm per constructor. -/

namespace Sys2Proof.Machine

def exec (i : Instr) (s : State) : Host.Outcome State Fault Refusal :=
  match i with
  | .setup c p => Sys2Proof.Machine.execSetup c p s
  | .enable c => Sys2Proof.Machine.execEnable c s
  | .disable c => Sys2Proof.Machine.execDisable c s
  | .setRange c a b => Sys2Proof.Machine.execSetRange c a b s
  | .setPulse c v => Sys2Proof.Machine.execSetPulse c v s
  | .getRange c => Sys2Proof.Machine.execGetRange c s
  | .getPulse c => Sys2Proof.Machine.execGetPulse c s
  | .getState c => Sys2Proof.Machine.execGetState c s

end Sys2Proof.Machine
end

