-- ==== Sys2Proof/Machine/Frame.lean ====
section
/-! DEFINITION. The frame wait and the frame (45_frame_scheduler.md). -/

namespace Sys2Proof.Machine

/-! ## The wait -/

/-- `avail(t)`: expiries that have passed by `t` and were not yet consumed (45_frame_scheduler.md R81). -/
def State.avail (s : State) (t : Nat) : Nat := (t - s.tRun0) / Config.framePeriodUs - s.served

/-- The earliest time the wait can return (45_frame_scheduler.md R81). -/
def State.startMin (s : State) : Nat :=
  if 1 ≤ s.avail s.now then s.now else s.tRun0 + (s.served + 1) * Config.framePeriodUs

/-- The wait returns at the present time and consumes every expiry that is pending (45_frame_scheduler.md R81). -/
def State.consumeExpiries (s : State) : State :=
  { s with
    served := s.served + s.avail s.now
    overrunCount := if 1 < s.avail s.now then s.overrunCount + 1 else s.overrunCount
    frameIndex := s.frameIndex + 1
    snapshot := none
    phase := .frame }

/-- `FrameWait` (45_frame_scheduler.md R81). -/
def frameWait (s : State) : State := ({ s with now := s.startMin } : State).lateness.consumeExpiries

/-! ## The snapshot -/

/-- What the frame reads of one channel (45_frame_scheduler.md R83). -/
def Channel.snap (ch : Channel) : SnapEntry := ⟨ch.enabled, ch.pin, ch.pulseUs⟩

/-- The snapshot of the channel table (10_state.md R29). -/
def snapTable (ch : Vector Channel 8) : Vector SnapEntry 8 := ⟨⟨ch.toList.map Channel.snap⟩, by simp⟩

/-- Two different channels are both enabled and hold the same pin (45_frame_scheduler.md R92). -/
def sharesPin (snap : Vector SnapEntry 8) : Bool :=
  channelIds.any fun c => channelIds.any fun d =>
    c != d && snap[c].enabled && snap[d].enabled && snap[c].pin == snap[d].pin

/-- The start of a frame: the snapshot is taken, and a shared pin sets the sticky fault bit (45_frame_scheduler.md R83,
R89, R92). -/
def frameStart (s : State) : State :=
  { s with
    snapshot := some (snapTable s.ch)
    sharedPinFault := s.sharedPinFault || sharesPin (snapTable s.ch) }

/-! ## The edges -/

/-- The high edges of the enabled channels of a list, in its order (45_frame_scheduler.md R84). -/
def highEdges (snap : Vector SnapEntry 8) : List (Fin 8) → State → State
  | [], s => s
  | c :: cs, s =>
    if snap[c].enabled then highEdges snap cs (s.lateness.emitNow snap[c].pin .high)
    else highEdges snap cs s

/-- The frame has no enabled channel. -/
def noneEnabled (snap : Vector SnapEntry 8) : Bool := channelIds.all fun c => !snap[c].enabled

/-- Step 2 of the frame: the high edges in channel-id order; when no channel is enabled there is no edge, and under
`lower_bound` the time `t_hi` is a free time not before the start (45_frame_scheduler.md R84, R88; log 5). -/
def risePhase (snap : Vector SnapEntry 8) (s : State) : State :=
  if noneEnabled snap then s.lateness else highEdges snap channelIds s

/-- Insert a channel id into a row sorted by pulse, before the first strictly greater or equal pulse; with ids inserted
from the last to the first this keeps id order on ties (45_frame_scheduler.md R85). -/
def insertByPulse (snap : Vector SnapEntry 8) (c : Fin 8) : List (Fin 8) → List (Fin 8)
  | [] => [c]
  | d :: ds =>
    if snap[c].pulseUs.toInt ≤ snap[d].pulseUs.toInt then c :: d :: ds else d :: insertByPulse snap c ds

/-- Stable ascending sort of channel ids by pulse (45_frame_scheduler.md R85). -/
def sortByPulse (snap : Vector SnapEntry 8) : List (Fin 8) → List (Fin 8)
  | [] => []
  | c :: cs => insertByPulse snap c (sortByPulse snap cs)

/-- `order`: all eight channel ids (45_frame_scheduler.md R85). -/
def frameOrder (snap : Vector SnapEntry 8) : List (Fin 8) := sortByPulse snap channelIds

/-- `Sleep(d)`: exactly `d` µs under `exact`, at least `d` under `lower_bound` (45_frame_scheduler.md R87). -/
def State.sleep (s : State) (d : Nat) : State := (s.elapse d).lateness

/-- Step 4 of the frame: the low edges along a row of channel ids, from a baseline (45_frame_scheduler.md R86). A
negative delta, which no reachable state has, sleeps no time (log 20). -/
def lowEdges (snap : Vector SnapEntry 8) : List (Fin 8) → Int → State → State
  | [], _, s => s
  | c :: cs, baseline, s =>
    if snap[c].enabled then
      lowEdges snap cs snap[c].pulseUs.toInt
        ((s.sleep (snap[c].pulseUs.toInt - baseline).toNat).emitNow snap[c].pin .low)
    else lowEdges snap cs baseline s

/-- Steps 2 to 5 of the frame, which read the snapshot only (45_frame_scheduler.md R83, R89). -/
def frameEdges (snap : Vector SnapEntry 8) (s : State) : State :=
  { lowEdges snap (frameOrder snap) 0 (risePhase snap s) with snapshot := none, batch := none, phase := .control }

/-- One step of phase `FRAME`: first the snapshot, then the edges (45_frame_scheduler.md R89; log 26). -/
def frameStep (s : State) : State :=
  match s.snapshot with
  | none => frameStart s
  | some snap => frameEdges snap s

end Sys2Proof.Machine
end

