-- ==== Sys2Proof/Machine/Loop.lean ====
section
/-! DEFINITION. Initialisation, the host's inputs, the control phase, the top of the loop and the shutdown
(46_control_loop.md, 70_reset_and_hazards.md). -/

namespace Sys2Proof.Machine

/-! ## The host's inputs -/

/-- A connection id is in use. -/
def State.known (s : State) (k : Nat) : Bool := s.accepted k || s.pending.any fun c => c.id == k

/-- Bytes that arrive on connection `k` are appended to its input buffer (10_state.md R30). -/
def receive (k : Nat) (data : List Byte) (c : Conn) : Conn :=
  if c.id = k then { c with buffer := c.buffer ++ data } else c

/-- The effect of one action of the host (10_state.md R30, R34, 46_control_loop.md R99; log 16). -/
def State.hostAct (s : State) (e : HostEvent) : State :=
  match e with
  | .connect k => if s.known k then s else { s with pending := s.pending ++ [⟨k, []⟩] }
  | .bytes k data => { s with conns := s.conns.map (receive k data), pending := s.pending.map (receive k data) }
  | .disconnect k =>
    { s with conns := s.conns.filter fun c => c.id != k, pending := s.pending.filter fun c => c.id != k }
  | .stop => { s with stopRequested := true }

/-- The host's actions take effect in order until one lies in the future (log 6). -/
def State.deliverFrom (s : State) : List (Nat × HostEvent) → State
  | [] => { s with hostInputs := [] }
  | (t, e) :: rest => if t ≤ s.now then (s.hostAct e).deliverFrom rest else { s with hostInputs := (t, e) :: rest }

/-- Every action of the host due by the present time takes effect, as a poll sees it (60_exceptions.md R109; log 6). -/
def State.deliver (s : State) : State := s.deliverFrom s.hostInputs

/-! ## Top of the loop -/

/-- The top of the loop: the stop request is read here and nowhere else (46_control_loop.md R94, R101). -/
def loopTop (s : State) : State :=
  if s.landStop.stopRequested then { s.landStop with phase := .shutdown } else { s.landStop with phase := .wait }

/-! ## Reset and INIT -/

/-- Reset is released (70_reset_and_hazards.md R117). -/
def releaseReset (s : State) : State := { s with phase := .init }

/-- The frame timer is started (70_reset_and_hazards.md R119). -/
def startTimer (s : State) : State := { s with tRun0 := s.now, served := 0 }

/-- `INIT` (70_reset_and_hazards.md R118, R120). -/
def initialise (s : State) : State :=
  if !s.regsOk then { s with phase := .failed }
  else if !s.timerOk then { s with phase := .failed }
  else if !s.endpointOk then { s with phase := .failed }
  else loopTop (startTimer s)

/-! ## The control phase -/

/-- At most one pending connection is accepted (46_control_loop.md R99; log 15). -/
def acceptOne (s : State) : State :=
  match s.pending with
  | [] => s
  | c :: cs => { s with pending := cs, conns := s.conns ++ [c] }

/-- Every complete line of every open connection is taken; partial lines stay (46_control_loop.md R95). -/
def takeLines (s : State) : State :=
  { s with
    batch := some (s.conns.map fun c => (c.id, (splitLines c.buffer).1))
    conns := s.conns.map fun c => { c with buffer := (splitLines c.buffer).2 } }

/-- The poll, the one point where the block sees what the host did to its connections (46_control_loop.md R95, R99,
60_exceptions.md R109). -/
def poll (s : State) : State := takeLines (acceptOne s.deliver)

/-- The connections that still have a line to apply. -/
def live (batch : List (Nat × List Line)) : List (Nat × List Line) := batch.filter fun q => !q.2.isEmpty

/-- Which of `n` connections is next, and the choices that are left; with one connection nothing is drawn
(46_control_loop.md R96; log 3). -/
def chooseIndex (n : Nat) (choices : Draws) : Nat × Draws :=
  if n ≤ 1 then (0, choices)
  else ((choices.next Config.freeChoice).1 % n, (choices.next Config.freeChoice).2)

/-- What a step of the control phase finds. -/
inductive Fetched where
  /-- the poll has not been made -/
  | unpolled
  /-- a line to apply, and the state with that line taken out and its connection in `conn` -/
  | line (content : Line) (s : State)
  /-- no line is left -/
  | drained
  deriving DecidableEq, Repr

/-- The next line of the batch, the connections interleaved freely, each in its own order (46_control_loop.md R95,
R96). -/
def fetchLine (s : State) (batch : List (Nat × List Line)) : Fetched :=
  match (live batch)[(chooseIndex (live batch).length s.choices).1]? with
  | some (k, content :: rest) =>
    .line content
      { s with
        batch := some ((live batch).set (chooseIndex (live batch).length s.choices).1 (k, rest))
        conn := k
        choices := (chooseIndex (live batch).length s.choices).2 }
  | _ => .drained

/-- What the control phase does next (46_control_loop.md R95). -/
def fetch (s : State) : Fetched :=
  match s.batch with
  | none => .unpolled
  | some batch => fetchLine s batch

/-- The control phase ends after a free time (46_control_loop.md R97). -/
def endControl (s : State) : State := loopTop { s.passTime with batch := none }

/-! ## The shutdown -/

/-- `enabled` is cleared and a configured channel's pin is driven low (70_reset_and_hazards.md R122). -/
def shutDisable (s : State) (c : Fin 8) : State :=
  if s.ch[c].configured then (s.setCh c { s.ch[c] with enabled := false }).emit s.ch[c].pin .low
  else s.setCh c { s.ch[c] with enabled := false }

/-- A configured channel's pin is released to input (70_reset_and_hazards.md R122). -/
def shutRelease (s : State) (c : Fin 8) : State :=
  if s.ch[c].configured then s.emit s.ch[c].pin .input else s

/-- The orderly shutdown (70_reset_and_hazards.md R122). -/
def shutdown (s : State) : State :=
  { channelIds.foldl shutRelease (channelIds.foldl shutDisable s) with
    conns := [], pending := [], batch := none, phase := .halted }

end Sys2Proof.Machine
end

