-- ==== Sys2Proof/Machine/Step.lean ====
section
/-! DEFINITION. One step of the block, by the sequencer phase (46_control_loop.md R94), and the placing of a command where
the next step takes it. -/

namespace Sys2Proof.Machine

/-- The effect of one line: a line without a token is dropped, an illegal one is answered with its error, a command is
executed (46_control_loop.md R95, 30_encoding.md R54, R59). -/
def applyLine (content : Line) (s : State) : Host.Outcome State Fault Refusal :=
  match decodeLine content with
  | .blank => .next s
  | .bad kind => .next (s.raiseError kind)
  | .command i => exec i s

/-- One step of phase `CONTROL`: the poll, one line, or the end of the phase (46_control_loop.md R95; log 1). -/
def controlStep (s : State) : Host.Outcome State Fault Refusal :=
  match fetch s with
  | .unpolled => .next (poll s)
  | .line content s' => applyLine content s'
  | .drained => .next (endControl s)

/-- What the block does next, by its phase (10_state.md R23, 46_control_loop.md R94, 70_reset_and_hazards.md R118, R122,
R123; log 1, log 10). -/
def phaseStep (s : State) : Host.Outcome State Fault Refusal :=
  match s.phase with
  | .reset => .next (releaseReset s)
  | .init => .next (initialise s)
  | .wait => .next (frameWait s)
  | .frame => .next (frameStep s)
  | .control => controlStep s
  | .shutdown => .next (shutdown s)
  | .halted => .next s.passTime
  | .failed => .next s.passTime

/-- One step: what the block does next; a stop asserted by the time that takes is in `stop_requested` after it
(10_state.md R27, 60_exceptions.md R109). -/
def step (s : State) : Host.Outcome State Fault Refusal := landed (phaseStep s)

/-- `s` in a control phase whose poll has taken, on connection 0, exactly the first line of the text whose bytes are
numbered as the opcode table numbers bits, so that the next step applies that line (log 17, log 18). -/
def State.withFetchWord (s : State) (nbits w : Nat) : State :=
  { s with
    phase := .control
    conns := if s.isOpen 0 then s.conns else s.conns ++ [⟨0, []⟩]
    batch := some [(0, (splitLines (bytesOfWord ((nbits + 7) / 8) w)).1.take 1)] }

end Sys2Proof.Machine
end

