-- ==== Sys2Proof/WellFormed.lean ====
section
/-! DEFINITION. Well-formed commands: those whose operands pass every operand check that does not depend on the state
(60_exceptions.md R105, points 2 and 4). The decoder applies none of these checks, because the spec range-checks
operands only at execution (30_encoding.md R57): an ill-formed command decodes, runs, and is answered with its error.
Log 24. -/

namespace Sys2Proof

/-- Channel ids are 0..7 (20_memory.md R38). -/
def channelLegal (c : Int) : Bool := decide (0 ≤ c) && decide (c ≤ Config.lastChannel)

/-- Pin indices are 0..27 (20_memory.md R39). -/
def pinLegal (p : Int) : Bool := decide (0 ≤ p) && decide (p ≤ Config.lastPin)

/-- The two range checks of `SET RANGE`: the raw bounds are ordered, and so are the clamped ones (41_range_pulse.md R72). -/
def rangeLegal (a b : Int) : Bool :=
  decide (a < b) && decide (max a Config.absoluteMin < min b Config.absoluteMax)

/-- Every state-independent operand check passes. -/
def Instr.wellFormed : Instr → Bool
  | .setup c p => channelLegal c && pinLegal p
  | .enable c => channelLegal c
  | .disable c => channelLegal c
  | .setRange c a b => channelLegal c && rangeLegal a b
  | .setPulse c _ => channelLegal c
  | .getRange c => channelLegal c
  | .getPulse c => channelLegal c
  | .getState c => channelLegal c

end Sys2Proof
end

