-- ==== Sys2Proof/Safety.lean ====
section
/-! DEFINITION. What a safe state is (10_state.md R20 and the rules that follow from it), and the words the statements
use: what a command answers and what it leaves as it was. -/

namespace Sys2Proof.Machine

/-! ## Invariants -/

/-- INV1 to INV7 of one channel (10_state.md R20). -/
structure Channel.Inv (ch : Channel) : Prop where
  inv1 : ch.minUs.toInt < ch.maxUs.toInt
  inv2 : 500 ≤ ch.minUs.toInt
  inv3 : ch.maxUs.toInt ≤ 2500
  inv4 : 500 ≤ ch.pulseUs.toInt ∧ ch.pulseUs.toInt ≤ 2500
  inv5 : ch.minUs.toInt ≤ ch.pulseUs.toInt ∧ ch.pulseUs.toInt ≤ ch.maxUs.toInt
  inv6 : ch.enabled = true → ch.configured = true
  inv7 : ch.pin.toNat ≤ 27

/-- INV1 to INV7 of every channel (10_state.md R20). -/
def State.ChannelsSafe (s : State) : Prop := ∀ c : Fin 8, (s.ch[c]).Inv

/-- A snapshot is there only while a frame runs, and equals the live table (10_state.md R29). -/
def State.SnapshotLive (s : State) : Prop :=
  ∀ snap, s.snapshot = some snap → s.phase = .frame ∧ snap = snapTable s.ch

/-- The trace's times are non-decreasing and none lies in the future (10_state.md R33). -/
def State.TraceOrdered (s : State) : Prop :=
  s.trace.Pairwise (fun e f => e.time ≤ f.time) ∧ ∀ e ∈ s.trace, e.time ≤ s.now

/-- No pin's latest level event is `HIGH` (45_frame_scheduler.md R86, 40_channel_config.md R66). -/
def State.NoPinHigh (s : State) : Prop := ∀ p, tracedLevel s.trace p ≠ some .high

/-- Every configured channel's pin is in output mode and driven low, until the shutdown has released it
(40_channel_config.md R65, R66). -/
def State.ConfiguredPinsDriven (s : State) : Prop :=
  s.phase ≠ .halted → ∀ c : Fin 8, s.ch[c].configured = true →
    tracedMode s.trace s.ch[c].pin.toNat = some .output ∧ tracedLevel s.trace s.ch[c].pin.toNat = some .low

/-- Once the timer runs, every expiry that was consumed has passed, and every frame has consumed at least one
(10_state.md R24, R26, 45_frame_scheduler.md R81, R82). -/
def State.TimerConsistent (s : State) : Prop :=
  (s.phase = .wait ∨ s.phase = .frame ∨ s.phase = .control ∨ s.phase = .shutdown ∨ s.phase = .halted) →
    s.tRun0 + s.served * Config.framePeriodUs ≤ s.now ∧ s.frameIndex ≤ s.served

/-- Before the first loop top no frame has been counted (70_reset_and_hazards.md R117). -/
def State.NoFrameBeforeLoop (s : State) : Prop :=
  (s.phase = .reset ∨ s.phase = .init ∨ s.phase = .failed) → s.frameIndex = 0

/-- No connection id is held twice (log 16). -/
def State.ConnsDistinct (s : State) : Prop := ((s.conns ++ s.pending).map Conn.id).Nodup

/-- The reset values of the spec's state items (70_reset_and_hazards.md R117), the host's side left free: an empty set of
connections, and a trace that gives no pin a mode or a level. -/
structure State.HasResetValues (t : State) : Prop where
  configured : ∀ c : Fin 8, t.ch[c].configured = false
  pin : ∀ c : Fin 8, t.ch[c].pin.toNat = 0
  enabled : ∀ c : Fin 8, t.ch[c].enabled = false
  minUs : ∀ c : Fin 8, t.ch[c].minUs.toInt = 1000
  maxUs : ∀ c : Fin 8, t.ch[c].maxUs.toInt = 2000
  pulseUs : ∀ c : Fin 8, t.ch[c].pulseUs.toInt = 1500
  phase : t.phase = .reset
  overrunCount : t.overrunCount.toNat = 0
  frameIndex : t.frameIndex = 0
  stopRequested : t.stopRequested = false
  sharedPinFault : t.sharedPinFault = false
  buffers : t.conns = [] ∧ t.pending = [] ∧ t.batch = none
  snapshot : t.snapshot = none
  pinView : ∀ p, tracedMode t.trace p = none ∧ tracedLevel t.trace p = none

/-- The run is faulted: a frame has started with two enabled channels on one pin, so that no claim about a pin's waveform
holds (45_frame_scheduler.md R92, 60_exceptions.md R108). -/
def State.Faulted (s : State) : Prop := s.sharedPinFault = true

/-! ## What a command does besides its effect on its channel -/

/-- A command's one result record, and its one response line on its connection if that is open when the command ends
(10_state.md R31, R32, 46_control_loop.md R99). -/
def Answered (s t : State) (text : List Byte) (r : ResultRecord) : Prop :=
  t.records = s.records ++ [(s.conn, r)] ∧
    t.responses = if t.isOpen s.conn then s.responses ++ [(s.conn, text ++ [newline])] else s.responses

/-- No pin event; the time of the response passes. -/
def NoPinEvent (s t : State) : Prop := t.trace = s.trace ∧ s.now ≤ t.now

/-- Every channel but `c` is as it was. -/
def OtherChannelsKept (c : Fin 8) (s t : State) : Prop := ∀ d, d ≠ c → t.ch[d] = s.ch[d]

/-- The sequencer phase, the timer state, the counters, the flags and the snapshot are as they were. -/
def SequencerKept (s t : State) : Prop :=
  t.phase = s.phase ∧ t.tRun0 = s.tRun0 ∧ t.served = s.served ∧ t.overrunCount = s.overrunCount ∧
    t.frameIndex = s.frameIndex ∧ t.stopRequested = s.stopRequested ∧ t.sharedPinFault = s.sharedPinFault ∧
    t.snapshot = s.snapshot

/-- The connections, their buffers, the lines taken, the host's inputs and the parameters are as they were. -/
def HostSideKept (s t : State) : Prop :=
  t.conns = s.conns ∧ t.pending = s.pending ∧ t.batch = s.batch ∧ t.conn = s.conn ∧ t.regsOk = s.regsOk ∧
    t.timerOk = s.timerOk ∧ t.endpointOk = s.endpointOk ∧ t.edgeTiming = s.edgeTiming ∧
    t.hostInputs = s.hostInputs ∧ t.choices = s.choices ∧ t.resets = s.resets

/-- The frame of a command on channel `c`: nothing changes but the channel's own slot, the pin port, the time, and the
answer. -/
def CommandFrame (c : Fin 8) (s t : State) : Prop :=
  OtherChannelsKept c s t ∧ SequencerKept s t ∧ HostSideKept s t

/-- A refused command's whole effect: its one error response and its record `{code, false, false}`
(60_exceptions.md R104). -/
def RefusedWith (s t : State) (kind : ErrorKind) : Prop :=
  Answered s t (errorText kind) ⟨errorCode kind, false, false⟩ ∧ t.ch = s.ch ∧ NoPinEvent s t ∧
    SequencerKept s t ∧ HostSideKept s t

/-- Events appended to a trace between two times, in time order. -/
def EventsBetween (lo hi : Nat) (es : List PinEvent) : Prop :=
  es.Pairwise (fun e f => e.time ≤ f.time) ∧ ∀ e ∈ es, lo ≤ e.time ∧ e.time ≤ hi

/-- The enabled channels of a snapshot, in ascending id order (45_frame_scheduler.md R84). -/
def enabledIds (snap : Vector SnapEntry 8) : List (Fin 8) := channelIds.filter fun c => snap[c].enabled

/-- The enabled channels of a snapshot, in the frame's order (45_frame_scheduler.md R91). -/
def enabledOrder (snap : Vector SnapEntry 8) : List (Fin 8) := (frameOrder snap).filter fun c => snap[c].enabled

/-- The commanded width of a channel in µs. -/
def width (snap : Vector SnapEntry 8) (c : Fin 8) : Nat := snap[c].pulseUs.toInt.toNat

/-- What a pin event does, without its time. -/
def PinEvent.deed (e : PinEvent) : Nat × PinAct := (e.pin, e.act)

/-- A snapshot whose enabled channels have legal pulses (41_range_pulse.md R76). -/
def SnapLegal (snap : Vector SnapEntry 8) : Prop :=
  ∀ c : Fin 8, snap[c].enabled = true → 500 ≤ snap[c].pulseUs.toInt ∧ snap[c].pulseUs.toInt ≤ 2500

end Sys2Proof.Machine
end

