-- ==== Sys2Proof/Certificates/Slice0/Obligations.lean ====
section
/-! DEFINITION. The statements about the block, from the numbered rules of spec/, for the provers. -/

open Sys2Proof Sys2Proof.Machine

/-! ## Reset, initialisation, final phases -/

/-- R117, R116: the reset state and the state a reset leaves from any state hold the reset values; of what the host has done
up to the reset nothing is left, so no earlier stop is seen at the first top of the loop (INIT takes no time, log 9); the
step that follows enters INIT and emits no pin event. -/
def Obligations.ResetGivesResetValues : Prop :=
  State.reset.HasResetValues ∧
    ∀ s : State, s.applyReset.HasResetValues ∧
      (∀ x, s.applyReset.hostInputs.head? = some x → s.now < x.1) ∧
      ∃ t u, step s.applyReset = .next t ∧ t.phase = .init ∧ t.trace = s.applyReset.trace ∧ t.ch = s.applyReset.ch ∧
        t.conns = [] ∧ t.pending = [] ∧ t.stopRequested = false ∧
        step t = .next u ∧ u.stopRequested = false ∧ (u.phase = .wait ∨ u.phase = .failed)

/-- R21: the reset values satisfy INV1 to INV7; the other invariants stated below hold at reset as well. -/
def Obligations.ResetStateIsSafe : Prop :=
  State.reset.ChannelsSafe ∧ State.reset.SnapshotLive ∧ State.reset.TraceOrdered ∧ State.reset.NoPinHigh ∧
    State.reset.ConfiguredPinsDriven ∧ State.reset.TimerConsistent ∧ State.reset.NoFrameBeforeLoop ∧
    State.reset.ConnsDistinct

/-- R118, R119, R120: INIT fails on the first false result and stops in FAILED with nothing else changed (but for a stop the
host asserts); otherwise it
starts the timer, emits no pin event, and goes to the top of the loop, where a stop that is due is seen. -/
def Obligations.InitStartsTimerOrFails : Prop :=
  ∀ s : State, s.phase = .init →
    ((s.regsOk = false ∨ s.timerOk = false ∨ s.endpointOk = false) →
      ∃ t u, step s = .next t ∧ t = { s with phase := .failed, stopRequested := t.stopRequested } ∧
        step t = .next u ∧ u.phase = .failed) ∧
    (s.regsOk = true → s.timerOk = true → s.endpointOk = true →
      ∃ t, step s = .next t ∧ t.tRun0 = s.now ∧ t.served = 0 ∧ t.now = s.now ∧ t.trace = s.trace ∧ t.ch = s.ch ∧
        t.responses = s.responses ∧ t.records = s.records ∧ t.overrunCount = s.overrunCount ∧
        t.frameIndex = s.frameIndex ∧
        t.stopRequested = (s.stopRequested || s.stopDue) ∧
        t.phase = if t.stopRequested then .shutdown else .wait)

/-- R123, R120: in HALTED and FAILED nothing changes, whatever number of steps is taken, but the host's time and the stop it
may assert (log 10). -/
def Obligations.HaltedAndFailedAreFinal : Prop :=
  ∀ (n : Nat) (s : State), (s.phase = .halted ∨ s.phase = .failed) →
    ∃ t, core.run n s = .next t ∧ s.now ≤ t.now ∧
      t = { s with now := t.now, delays := t.delays, stopRequested := t.stopRequested }

/-! ## The frame wait -/

/-- R81, R27, R34, R29: the frame wait. `avail` is in integers, with floor division. That a given draw `d` is the lateness
under `lower_bound` is log 2 (DEDUCED); that a stop asserted by the wait's end is in `stop_requested` after it is R27 and R34
as log 6 reads them; that the step ends in FRAME with no snapshot yet is the two-step frame of log 26 (DESIGN CHOICE). -/
def Obligations.FrameWaitConsumesExpiries : Prop :=
  ∀ s : State, s.phase = .wait →
    ∃ t, step s = .next t ∧
      (let avail : Nat → Int := fun x => ((x : Int) - s.tRun0) / 20000 - s.served
       let startMin : Nat := if 1 ≤ avail s.now then s.now else s.tRun0 + (s.served + 1) * 20000
       (s.edgeTiming = .exact → t.now = startMin) ∧
       (s.edgeTiming = .lowerBound → startMin ≤ t.now ∧
         ∀ d ds, s.delays.given = d :: ds → t.now = startMin + d) ∧
       1 ≤ avail t.now ∧
       (t.served : Int) = s.served + avail t.now ∧
       t.overrunCount = (if 1 < avail t.now then s.overrunCount + 1 else s.overrunCount)) ∧
      t.frameIndex = s.frameIndex + 1 ∧ t.phase = .frame ∧ t.snapshot = none ∧
      t.ch = s.ch ∧ t.trace = s.trace ∧ t.responses = s.responses ∧ t.records = s.records ∧ t.tRun0 = s.tRun0 ∧
      t.stopRequested = (s.stopRequested || t.stopDue) ∧ t.sharedPinFault = s.sharedPinFault ∧ HostSideKept s t

/-- R24 to R28: each timer field, counter and flag is written only where its rule says: `t_run0` by INIT, `served` by INIT
and the wait, `overrun_count` by one in a wait that finds more than one expiry, `frame_index` by one in the wait,
`stop_requested` set in every phase exactly when the host has asserted stop, and never cleared, `shared_pin_fault` never
cleared and set only by the start of a frame with a shared pin. No step changes `EDGE_TIMING` (log 4), the three
initialisation results (R34) or the model's count of resets (log 21). -/
def Obligations.CountersChangeOnlyByTheirRules : Prop :=
  ∀ s t : State, step s = .next t →
    (t.tRun0 ≠ s.tRun0 → s.phase = .init) ∧
    (t.served ≠ s.served → s.phase = .init ∨ s.phase = .wait) ∧
    (t.overrunCount ≠ s.overrunCount → s.phase = .wait ∧ t.overrunCount = s.overrunCount + 1 ∧
      s.served + 2 ≤ t.served) ∧
    (t.frameIndex ≠ s.frameIndex → s.phase = .wait ∧ t.frameIndex = s.frameIndex + 1) ∧
    (t.stopRequested = true ↔ s.stopRequested = true ∨
      ∃ due later, s.hostInputs = due ++ later ∧ (∀ x ∈ due, x.1 ≤ t.now) ∧ ∃ x ∈ due, x.2 = .stop) ∧
    (s.sharedPinFault = true → t.sharedPinFault = true) ∧
    (s.sharedPinFault = false → t.sharedPinFault = true → s.phase = .frame ∧
      ∃ c d : Fin 8, c ≠ d ∧ s.ch[c].enabled = true ∧ s.ch[d].enabled = true ∧ s.ch[c].pin = s.ch[d].pin) ∧
    t.edgeTiming = s.edgeTiming ∧ t.regsOk = s.regsOk ∧ t.timerOk = s.timerOk ∧ t.endpointOk = s.endpointOk ∧
    t.resets = s.resets

/-- R23, R94, R101: the phases a step can lead to from each phase; SHUTDOWN is entered only from the top of the loop, at
the end of INIT or of a control phase, and exactly when a stop has been requested. -/
def Obligations.PhasesFollowTheLoop : Prop :=
  ∀ s t : State, step s = .next t →
    match s.phase with
    | .reset => t.phase = .init
    | .init => t.phase = .failed ∨ (t.phase = .shutdown ∧ t.stopRequested = true) ∨
        (t.phase = .wait ∧ t.stopRequested = false)
    | .wait => t.phase = .frame
    | .frame => (s.snapshot = none ∧ t.phase = .frame) ∨ (s.snapshot ≠ none ∧ t.phase = .control)
    | .control => t.phase = .control ∨ (t.phase = .shutdown ∧ t.stopRequested = true) ∨
        (t.phase = .wait ∧ t.stopRequested = false)
    | .shutdown => t.phase = .halted
    | .halted => t.phase = .halted
    | .failed => t.phase = .failed

/-! ## The frame -/

/-- R83, R92: the start of a frame copies `enabled`, `pin` and `pulse_us` of all eight channels and sets the sticky fault bit
exactly when two enabled channels hold one pin; nothing else changes (but for a stop the host asserts). -/
def Obligations.FrameStartTakesSnapshot : Prop :=
  ∀ s : State, s.phase = .frame → s.snapshot = none →
    ∃ t snap, step s = .next t ∧ t.snapshot = some snap ∧
      (∀ c : Fin 8, snap[c].enabled = s.ch[c].enabled ∧ snap[c].pin = s.ch[c].pin ∧
        snap[c].pulseUs = s.ch[c].pulseUs) ∧
      (t.sharedPinFault = true ↔ s.sharedPinFault = true ∨
        ∃ c d : Fin 8, c ≠ d ∧ s.ch[c].enabled = true ∧ s.ch[d].enabled = true ∧ s.ch[c].pin = s.ch[d].pin) ∧
      t = { s with
        snapshot := some snap, sharedPinFault := t.sharedPinFault, stopRequested := t.stopRequested }

/-- R85: the frame's order holds all eight ids, and `c` stands before `d` exactly when its pulse is smaller, or equal with
a smaller id. -/
def Obligations.FrameOrderIsStableSort : Prop :=
  ∀ snap : Vector SnapEntry 8,
    (frameOrder snap).length = 8 ∧ (∀ c : Fin 8, c ∈ frameOrder snap) ∧
      (frameOrder snap).Pairwise fun c d =>
        snap[c].pulseUs.toInt < snap[d].pulseUs.toInt ∨ (snap[c].pulseUs.toInt = snap[d].pulseUs.toInt ∧ c < d)

/-- R84, R86, R90: under `exact`, a frame that starts now drives every enabled channel's pin high now, in id order, and low
at `t_start + pulse_us`, in the frame's order; it ends at its last LOW, at most 2500 µs later, enters CONTROL, and changes
nothing else (but for a stop the host asserts). -/
def Obligations.ExactFrameEmitsCommandedPulses : Prop :=
  ∀ (s : State) (snap : Vector SnapEntry 8), s.phase = .frame → s.snapshot = some snap → s.edgeTiming = .exact →
    SnapLegal snap →
    ∃ t, step s = .next t ∧
      t.trace = s.trace ++ ((enabledIds snap).map fun c => ⟨s.now, snap[c].pin.toNat, .high⟩) ++
        ((enabledOrder snap).map fun c => ⟨s.now + width snap c, snap[c].pin.toNat, .low⟩) ∧
      t.now = s.now + ((enabledIds snap).map (width snap)).foldl max 0 ∧ t.now ≤ s.now + 2500 ∧
      t = { s with
        trace := t.trace, now := t.now, snapshot := none, batch := none, phase := .control,
        stopRequested := t.stopRequested }

/-- R84, R87, R88, R90: under `lower_bound` the HIGH events carry non-decreasing times from the start on and the last of them is
`t_hi`; every enabled channel's LOW is at or after `t_hi + pulse_us`, and a later LOW comes after an earlier one by at
least the difference of their pulses. The frame ends at its last LOW, or at `t_hi` when no channel is enabled (then a free
time not before the start, log 5), and changes nothing else (but for a stop the host asserts). -/
def Obligations.LowerBoundFrameNeverCutsAPulse : Prop :=
  ∀ (s : State) (snap : Vector SnapEntry 8), s.phase = .frame → s.snapshot = some snap → s.edgeTiming = .lowerBound →
    SnapLegal snap →
    ∃ (t : State) (his los : List PinEvent) (tHi : Nat), step s = .next t ∧ t.trace = s.trace ++ his ++ los ∧
      his.map PinEvent.deed = ((enabledIds snap).map fun c => (snap[c].pin.toNat, PinAct.high)) ∧
      los.map PinEvent.deed = ((enabledOrder snap).map fun c => (snap[c].pin.toNat, PinAct.low)) ∧
      EventsBetween s.now tHi his ∧ (∀ e, his.getLast? = some e → e.time = tHi) ∧
      EventsBetween tHi t.now los ∧
      List.Forall₂ (fun c e => tHi + width snap c ≤ e.time) (enabledOrder snap) los ∧
      ((enabledOrder snap).zip los).Pairwise
        (fun x y => x.2.time + width snap y.1 ≤ y.2.time + width snap x.1) ∧
      s.now ≤ tHi ∧ (∀ e, los.getLast? = some e → t.now = e.time) ∧ (los = [] → t.now = tHi) ∧
      t = { s with
        trace := t.trace, now := t.now, delays := t.delays, snapshot := none, batch := none, phase := .control,
        stopRequested := t.stopRequested }

/-- R88, `exact`: a frame with no enabled channel emits no event and takes no time; it still leads to CONTROL. -/
def Obligations.IdleFrameEmitsNothing : Prop :=
  ∀ (s : State) (snap : Vector SnapEntry 8), s.phase = .frame → s.snapshot = some snap → s.edgeTiming = .exact →
    (∀ c : Fin 8, snap[c].enabled = false) →
    ∃ t, step s = .next t ∧
      t = { s with snapshot := none, batch := none, phase := .control, stopRequested := t.stopRequested }

/-- R29, R83: once the snapshot is taken the frame does not depend on the channel table, and does not write it. -/
def Obligations.FrameReadsOnlyItsSnapshot : Prop :=
  ∀ (s : State) (snap : Vector SnapEntry 8) (table : Vector Channel 8), s.phase = .frame → s.snapshot = some snap →
    ∃ t, step s = .next t ∧ t.ch = s.ch ∧ step { s with ch := table } = .next { t with ch := table }

/-- R92, `exact`: in a frame the first LOW of a pin comes at the smallest `pulse_us` of the enabled channels that hold it,
whether or not the pin is shared. -/
def Obligations.SharedPinFallsAtShortestPulse : Prop :=
  ∀ (s : State) (snap : Vector SnapEntry 8) (c : Fin 8), s.phase = .frame → s.snapshot = some snap →
    s.edgeTiming = .exact → SnapLegal snap → snap[c].enabled = true →
    (∀ d : Fin 8, snap[d].enabled = true → snap[d].pin = snap[c].pin → width snap c ≤ width snap d) →
    ∃ t es, step s = .next t ∧ t.trace = s.trace ++ es ∧
      (es.filter fun e => e.deed = (snap[c].pin.toNat, PinAct.low)).head? =
        some ⟨s.now + width snap c, snap[c].pin.toNat, .low⟩ ∧
      (es.filter fun e => e.deed = (snap[c].pin.toNat, PinAct.high)).length =
        (es.filter fun e => e.deed = (snap[c].pin.toNat, PinAct.low)).length

/-- R90, R92, `exact`: in a frame that leaves the run unfaulted, the pin of an enabled channel goes high once, at the start,
and low once, exactly `pulse_us` later. -/
def Obligations.UnsharedPinIsHighForItsPulse : Prop :=
  ∀ (s : State) (c : Fin 8), s.phase = .frame → s.snapshot = none → s.edgeTiming = .exact → s.ChannelsSafe →
    s.ch[c].enabled = true →
    ∃ (t u : State) (es : List PinEvent), step s = .next t ∧ step t = .next u ∧ u.trace = s.trace ++ es ∧
      u.sharedPinFault = t.sharedPinFault ∧
      (¬u.Faulted → es.filter (fun e => e.pin = s.ch[c].pin.toNat) =
        [⟨s.now, s.ch[c].pin.toNat, .high⟩, ⟨s.now + s.ch[c].pulseUs.toInt.toNat, s.ch[c].pin.toNat, .low⟩])

/-- R47, R98: what the channel table holds when the last line of a control phase has been applied is, completely, what the
next frame's snapshot holds. -/
def Obligations.CommandsVisibleFromNextFrame : Prop :=
  ∀ s t u v : State, s.phase = .control → fetch s = .drained → step s = .next t → t.phase = .wait →
    step t = .next u → step u = .next v →
    v.phase = .frame ∧ ∃ snap, v.snapshot = some snap ∧
      ∀ c : Fin 8, snap[c].enabled = s.ch[c].enabled ∧ snap[c].pin = s.ch[c].pin ∧ snap[c].pulseUs = s.ch[c].pulseUs

/-! ## The control phase -/

/-- R30, R34, R99, R109 (log 6, log 16): the host's actions that are due take effect in their order, and only they: a new
connection is pending with an empty buffer, bytes go to the end of their connection's buffer, a disconnect discards the
connection with its untaken bytes, a stop sets `stop_requested`, and every other connection stays as it is. A poll alone sees
connections, bytes and disconnects; between polls a disconnect that has happened closes its connection for responses. -/
def Obligations.HostInputsTakeEffectInOrder : Prop :=
  (∀ (s : State) (due later : List (Nat × HostEvent)), s.hostInputs = due ++ later → (∀ x ∈ due, x.1 ≤ s.now) →
    (∀ x, later.head? = some x → s.now < x.1) →
    s.deliver = { due.foldl (fun u x => u.hostAct x.2) s with hostInputs := later }) ∧
  (∀ (s : State) (k : Nat),
    (k ∈ (s.conns ++ s.pending).map Conn.id → s.hostAct (.connect k) = s) ∧
    (k ∉ (s.conns ++ s.pending).map Conn.id →
      s.hostAct (.connect k) = { s with pending := s.pending ++ [⟨k, []⟩] })) ∧
  (∀ (s : State) (k : Nat) (data : List Byte), ∃ cs ps : List Conn,
    s.hostAct (.bytes k data) = { s with conns := cs, pending := ps } ∧
      List.Forall₂ (fun c d => d.id = c.id ∧ d.buffer = if c.id = k then c.buffer ++ data else c.buffer) s.conns cs ∧
      List.Forall₂ (fun c d => d.id = c.id ∧ d.buffer = if c.id = k then c.buffer ++ data else c.buffer) s.pending ps) ∧
  (∀ (s : State) (k : Nat), ∃ cs ps : List Conn,
    s.hostAct (.disconnect k) = { s with conns := cs, pending := ps } ∧
      cs.Sublist s.conns ∧ (∀ c, c ∈ cs ↔ c ∈ s.conns ∧ c.id ≠ k) ∧
      ps.Sublist s.pending ∧ ∀ c, c ∈ ps ↔ c ∈ s.pending ∧ c.id ≠ k) ∧
  (∀ s : State, s.hostAct .stop = { s with stopRequested := true }) ∧
  (∀ s t : State, step s = .next t → (s.phase ≠ .control ∨ s.batch ≠ none) →
    t.hostInputs = s.hostInputs ∧ (s.phase ≠ .shutdown → t.conns = s.conns ∧ t.pending = s.pending)) ∧
  (∀ (s : State) (due later : List (Nat × HostEvent)) (k : Nat), s.hostInputs = due ++ later →
    (∀ x ∈ due, x.1 ≤ s.now) → (∀ x, later.head? = some x → s.now < x.1) →
    (s.isOpen k = true ↔ k ∈ s.conns.map Conn.id ∧ ∀ x ∈ due, x.2 ≠ .disconnect k))

/-- R30, R99: the poll accepts at most one pending connection, takes every complete line of every open connection, in
order, and leaves the trailing partial line in its buffer; the host's actions it has seen are off the list, so they are not
seen again (log 6); it applies no command. -/
def Obligations.PollTakesCompleteLines : Prop :=
  (∀ s : State, s.phase = .control → s.batch = none →
    ∃ t, step s = .next t ∧
      t.batch = some ((s.deliver.conns ++ s.deliver.pending.take 1).map fun c => (c.id, (splitLines c.buffer).1)) ∧
      t.conns = ((s.deliver.conns ++ s.deliver.pending.take 1).map fun c => ⟨c.id, (splitLines c.buffer).2⟩) ∧
      t.pending = s.deliver.pending.drop 1 ∧ t.hostInputs = s.deliver.hostInputs ∧
      t.stopRequested = s.deliver.stopRequested ∧ t.phase = .control ∧ t.ch = s.ch ∧ t.trace = s.trace ∧ t.now = s.now ∧
      t.responses = s.responses ∧ t.records = s.records) ∧
  (∀ buffer : List Byte,
    ((splitLines buffer).1.map fun l => l ++ [newline]).flatten ++ (splitLines buffer).2 = buffer ∧
      newline ∉ (splitLines buffer).2 ∧ ∀ l ∈ (splitLines buffer).1, newline ∉ l)

/-- R96: the line a step applies is the first line not yet applied of some connection, every connection with lines left can
be the one, and the lines of every other connection stay as they are. -/
def Obligations.AnyConnectionInItsOwnOrder : Prop :=
  ∀ (s : State) (batch : List (Nat × List Line)), s.phase = .control → s.batch = some batch →
    (live batch = [] → fetch s = .drained) ∧
    (live batch ≠ [] → ∃ (i : Nat) (k : Nat) (content : Line) (rest : List Line) (s' : State),
      (live batch)[i]? = some (k, content :: rest) ∧ fetch s = .line content s' ∧ s'.conn = k ∧
        s'.batch = some ((live batch).set i (k, rest)) ∧ s'.ch = s.ch ∧ s'.trace = s.trace) ∧
    (∀ (i : Nat) (k : Nat) (content : Line) (rest : List Line) (draws : List Nat),
      (live batch)[i]? = some (k, content :: rest) → s.choices.given = i :: draws →
      2 ≤ (live batch).length →
      ∃ s', fetch s = .line content s' ∧ s'.conn = k ∧ s'.batch = some ((live batch).set i (k, rest)))

/-- R95, R54, R59, R60: a step of a control phase that has a line to apply executes the command the line decodes to, answers
an illegal line with its error and nothing else, and drops a line without a token; besides, a stop asserted by then is
seen (`landStop`, R27). -/
def Obligations.StepRunsDecodedLine : Prop :=
  ∀ (s s' : State) (content : Line), s.phase = .control → fetch s = .line content s' →
    (∀ i, decodeLine content = .command i → ∃ t, exec i s' = .next t ∧ step s = .next t.landStop) ∧
    (∀ kind, decodeLine content = .bad kind → ∃ t, RefusedWith s' t kind ∧ step s = .next t.landStop) ∧
    (decodeLine content = .blank → step s = .next s'.landStop) ∧
    s'.ch = s.ch ∧ s'.trace = s.trace ∧ s'.responses = s.responses ∧ s'.records = s.records ∧ s'.now = s.now

/-- R95, R97, R101: when no line is left the control phase ends after one more free amount of time, with nothing else changed:
the model's `CONTROL_TIME` is the sum of the free amounts of the phase, this one the last (log 2, DEDUCED). It ends at the
top of the loop, where a stop asserted by then is seen and leads to the shutdown before any expiry is consumed. -/
def Obligations.ControlPhaseEndsAfterItsDraw : Prop :=
  ∀ s : State, s.phase = .control → fetch s = .drained →
    ∃ t, step s = .next t ∧ s.now ≤ t.now ∧ (∀ d ds, s.delays.given = d :: ds → t.now = s.now + d) ∧
      t.batch = none ∧ t.ch = s.ch ∧ t.trace = s.trace ∧ t.responses = s.responses ∧ t.records = s.records ∧
      t.served = s.served ∧ t.overrunCount = s.overrunCount ∧ t.frameIndex = s.frameIndex ∧
      t.phase = (if t.stopRequested then .shutdown else .wait) ∧
      ((∃ x ∈ s.hostInputs, x.2 = .stop) → (∀ x ∈ s.hostInputs, x.1 ≤ s.now) → t.phase = .shutdown)

/-- Log 17: a command placed by `withFetchWord` is what the next step runs, on the channel table, pins and counters of the
state it was placed in. -/
def Obligations.PlacedCommandRunsNext : Prop :=
  ∀ (s : State) (nbits w : Nat) (i : Instr), decodeTableWord nbits w = some i →
    ∃ s' t, exec i s' = .next t ∧ step (s.withFetchWord nbits w) = .next t.landStop ∧ s'.conn = 0 ∧ s'.ch = s.ch ∧ s'.trace = s.trace ∧
      s'.records = s.records ∧ s'.responses = s.responses ∧ s'.now = s.now ∧ s'.phase = .control

/-- R122: the shutdown disables every channel, drives every configured channel's pin low and then releases it to input, both
in id order, and halts; it takes no line and sends no response. -/
def Obligations.ShutdownReleasesConfiguredPins : Prop :=
  ∀ s : State, s.phase = .shutdown →
    ∃ (t : State) (es : List PinEvent), step s = .next t ∧ t.trace = s.trace ++ es ∧ EventsBetween s.now t.now es ∧
      es.map PinEvent.deed =
        ((channelIds.filter fun c => s.ch[c].configured).map fun c => (s.ch[c].pin.toNat, PinAct.low)) ++
        ((channelIds.filter fun c => s.ch[c].configured).map fun c => (s.ch[c].pin.toNat, PinAct.input)) ∧
      (∀ c : Fin 8, t.ch[c] = { s.ch[c] with enabled := false }) ∧ t.phase = .halted ∧
      t.conns = [] ∧ t.pending = [] ∧ t.batch = none ∧ t.responses = s.responses ∧ t.records = s.records ∧
      t.served = s.served ∧ t.overrunCount = s.overrunCount ∧ t.frameIndex = s.frameIndex ∧
      t.sharedPinFault = s.sharedPinFault

/-! ## The commands -/

/-- R65: `SETUP`. -/
def Obligations.SetupConfiguresChannel : Prop :=
  (∀ (s : State) (c : Fin 8) (p : Int), 0 ≤ p → p ≤ 27 →
    ∃ (t : State) (t1 t2 : Nat), exec (.setup c.val p) s = .next t ∧
      t.ch[c].configured = true ∧ (t.ch[c].pin.toNat : Int) = p ∧ t.ch[c].enabled = false ∧
      t.ch[c].minUs.toInt = 1000 ∧ t.ch[c].maxUs.toInt = 2000 ∧ t.ch[c].pulseUs.toInt = 1500 ∧
      t.trace = s.trace ++ [⟨t1, p.toNat, .output⟩, ⟨t2, p.toNat, .low⟩] ∧ s.now ≤ t1 ∧ t1 ≤ t2 ∧ t2 ≤ t.now ∧
      Answered s t (ascii ['O', 'K']) ⟨0, false, false⟩ ∧ CommandFrame c s t) ∧
  (∀ (s : State) (c p : Int), (c < 0 ∨ 7 < c) →
    ∃ t, exec (.setup c p) s = .next t ∧ RefusedWith s t .invalidChannel) ∧
  (∀ (s : State) (c : Fin 8) (p : Int), (p < 0 ∨ 27 < p) →
    ∃ t, exec (.setup c.val p) s = .next t ∧ RefusedWith s t .invalidPin)

/-- R68: `ENABLE`. -/
def Obligations.EnableSetsEnabled : Prop :=
  (∀ (s : State) (c : Fin 8), s.ch[c].configured = true →
    ∃ t, exec (.enable c.val) s = .next t ∧ t.ch[c] = { s.ch[c] with enabled := true } ∧ NoPinEvent s t ∧
      Answered s t (ascii ['O', 'K']) ⟨0, false, false⟩ ∧ CommandFrame c s t) ∧
  (∀ (s : State) (c : Int), (c < 0 ∨ 7 < c) →
    ∃ t, exec (.enable c) s = .next t ∧ RefusedWith s t .invalidChannel) ∧
  (∀ (s : State) (c : Fin 8), s.ch[c].configured = false →
    ∃ t, exec (.enable c.val) s = .next t ∧ RefusedWith s t .notConfigured)

/-- R69: `DISABLE`. -/
def Obligations.DisableForcesPinLow : Prop :=
  (∀ (s : State) (c : Fin 8), s.ch[c].configured = true →
    ∃ (t : State) (t1 : Nat), exec (.disable c.val) s = .next t ∧ t.ch[c] = { s.ch[c] with enabled := false } ∧
      t.trace = s.trace ++ [⟨t1, s.ch[c].pin.toNat, .low⟩] ∧ s.now ≤ t1 ∧ t1 ≤ t.now ∧
      Answered s t (ascii ['O', 'K']) ⟨0, false, false⟩ ∧ CommandFrame c s t) ∧
  (∀ (s : State) (c : Fin 8), s.ch[c].configured = false →
    ∃ t, exec (.disable c.val) s = .next t ∧ t.ch[c] = { s.ch[c] with enabled := false } ∧ NoPinEvent s t ∧
      Answered s t (ascii ['O', 'K']) ⟨0, false, false⟩ ∧ CommandFrame c s t) ∧
  (∀ (s : State) (c : Int), (c < 0 ∨ 7 < c) →
    ∃ t, exec (.disable c) s = .next t ∧ RefusedWith s t .invalidChannel)

/-- R72: `SET RANGE`. The clamps are written with max and min. -/
def Obligations.SetRangeClampsAndReclamps : Prop :=
  (∀ (s : State) (c : Fin 8) (a b lo hi old new : Int), a < b → lo = max a 500 → hi = min b 2500 → lo < hi →
    old = s.ch[c].pulseUs.toInt → new = max lo (min hi old) →
    ∃ t, exec (.setRange c.val a b) s = .next t ∧
      t.ch[c].minUs.toInt = lo ∧ t.ch[c].maxUs.toInt = hi ∧ t.ch[c].pulseUs.toInt = new ∧
      t.ch[c].configured = s.ch[c].configured ∧ t.ch[c].pin = s.ch[c].pin ∧ t.ch[c].enabled = s.ch[c].enabled ∧
      NoPinEvent s t ∧ Answered s t (ascii ['O', 'K']) ⟨0, decide (lo ≠ a ∨ hi ≠ b), decide (new ≠ old)⟩ ∧
      CommandFrame c s t) ∧
  (∀ (s : State) (c a b : Int), (c < 0 ∨ 7 < c) →
    ∃ t, exec (.setRange c a b) s = .next t ∧ RefusedWith s t .invalidChannel) ∧
  (∀ (s : State) (c : Fin 8) (a b : Int), (b ≤ a ∨ b ≤ 500 ∨ 2500 ≤ a) →
    ∃ t, exec (.setRange c.val a b) s = .next t ∧ RefusedWith s t .invalidRange)

/-- R74: `SET PULSE`, for every value and every stored range. -/
def Obligations.SetPulseClampsTwice : Prop :=
  (∀ (s : State) (c : Fin 8) (v r1 r : Int), s.ch[c].configured = true →
    r1 = (if v < s.ch[c].minUs.toInt then s.ch[c].minUs.toInt
          else if s.ch[c].maxUs.toInt < v then s.ch[c].maxUs.toInt else v) →
    r = max 500 (min 2500 r1) →
    ∃ t, exec (.setPulse c.val v) s = .next t ∧ t.ch[c].pulseUs.toInt = r ∧
      t.ch[c].configured = true ∧ t.ch[c].pin = s.ch[c].pin ∧ t.ch[c].enabled = s.ch[c].enabled ∧
      t.ch[c].minUs = s.ch[c].minUs ∧ t.ch[c].maxUs = s.ch[c].maxUs ∧ NoPinEvent s t ∧
      Answered s t (ascii ['O', 'K']) ⟨0, false, decide (r ≠ v)⟩ ∧ CommandFrame c s t) ∧
  (∀ (s : State) (c v : Int), (c < 0 ∨ 7 < c) →
    ∃ t, exec (.setPulse c v) s = .next t ∧ RefusedWith s t .invalidChannel) ∧
  (∀ (s : State) (c : Fin 8) (v : Int), s.ch[c].configured = false →
    ∃ t, exec (.setPulse c.val v) s = .next t ∧ RefusedWith s t .notConfigured)

/-- R77: `GET RANGE`. -/
def Obligations.GetRangeAnswersRange : Prop :=
  (∀ (s : State) (c : Fin 8),
    ∃ t, exec (.getRange c.val) s = .next t ∧ t.ch = s.ch ∧ NoPinEvent s t ∧
      Answered s t (ascii ['R', 'A', 'N', 'G', 'E', ' '] ++ dec s.ch[c].minUs.toInt ++ ascii [' '] ++
        dec s.ch[c].maxUs.toInt) ⟨0, false, false⟩ ∧ CommandFrame c s t) ∧
  (∀ (s : State) (c : Int), (c < 0 ∨ 7 < c) →
    ∃ t, exec (.getRange c) s = .next t ∧ RefusedWith s t .invalidChannel)

/-- R78: `GET PULSE`. -/
def Obligations.GetPulseAnswersPulse : Prop :=
  (∀ (s : State) (c : Fin 8),
    ∃ t, exec (.getPulse c.val) s = .next t ∧ t.ch = s.ch ∧ NoPinEvent s t ∧
      Answered s t (ascii ['P', 'U', 'L', 'S', 'E', ' '] ++ dec s.ch[c].pulseUs.toInt) ⟨0, false, false⟩ ∧
      CommandFrame c s t) ∧
  (∀ (s : State) (c : Int), (c < 0 ∨ 7 < c) →
    ∃ t, exec (.getPulse c) s = .next t ∧ RefusedWith s t .invalidChannel)

/-- R79: `GET STATE`. -/
def Obligations.GetStateAnswersPinAndEnable : Prop :=
  (∀ (s : State) (c : Fin 8),
    ∃ t, exec (.getState c.val) s = .next t ∧ t.ch = s.ch ∧ NoPinEvent s t ∧
      Answered s t (ascii ['G', 'P', 'I', 'O', ' '] ++ dec s.ch[c].pin.toNat ++
        ascii [' ', 'E', 'N', 'A', 'B', 'L', 'E', ' '] ++
        ascii [if s.ch[c].enabled then '1' else '0']) ⟨0, false, false⟩ ∧ CommandFrame c s t) ∧
  (∀ (s : State) (c : Int), (c < 0 ∨ 7 < c) →
    ∃ t, exec (.getState c) s = .next t ∧ RefusedWith s t .invalidChannel)

/-! ## Rules over all commands -/

/-- R104: every command gives exactly one answer, and one whose code is not 0 has no effect but its error response and its
record. -/
def Obligations.RefusedCommandWritesNothing : Prop :=
  ∀ (i : Instr) (s : State), ∃ (t : State) (text : List Byte) (r : ResultRecord),
    exec i s = .next t ∧ Answered s t text r ∧
      (r.code ≠ 0 → ∃ kind, r = ⟨errorCode kind, false, false⟩ ∧ RefusedWith s t kind)

/-- R43: a command reads and writes one channel slot: no other slot changes, and neither do the sequencer's state and the
host's side. -/
def Obligations.CommandTouchesOnlyItsChannel : Prop :=
  ∀ (i : Instr) (s t : State), exec i s = .next t →
    (∀ d : Fin 8, (d.val : Int) ≠ i.channel → t.ch[d] = s.ch[d]) ∧ SequencerKept s t ∧ HostSideKept s t

/-- R105: the first error in the order syntax, channel, configured, pin or range is the one reported. -/
def Obligations.ErrorsInOrderOfPrecedence : Prop :=
  (∀ verb rest, (∀ kw ∈ [kwSetup, kwEnable, kwDisable, kwSet, kwGet], isKeyword verb kw = false) →
    decodeTokens verb rest = .error .unknownCommand) ∧
  (∀ verb rest kind, (∃ kw ∈ [kwSetup, kwEnable, kwDisable, kwSet, kwGet], isKeyword verb kw = true) →
    decodeTokens verb rest = .error kind → kind = .invalidCommand) ∧
  (∀ (i : Instr) (s : State), (i.channel < 0 ∨ 7 < i.channel) →
    ∃ t, exec i s = .next t ∧ RefusedWith s t .invalidChannel) ∧
  (∀ (s : State) (c : Fin 8) (v : Int), s.ch[c].configured = false →
    (∃ t, exec (.enable c.val) s = .next t ∧ RefusedWith s t .notConfigured) ∧
    (∃ t, exec (.setPulse c.val v) s = .next t ∧ RefusedWith s t .notConfigured)) ∧
  (∀ (s : State) (c : Fin 8) (p : Int), (p < 0 ∨ 27 < p) →
    ∃ t, exec (.setup c.val p) s = .next t ∧ RefusedWith s t .invalidPin) ∧
  (∀ (s : State) (c : Fin 8) (a b : Int), (b ≤ a ∨ b ≤ 500 ∨ 2500 ≤ a) →
    ∃ t, exec (.setRange c.val a b) s = .next t ∧ RefusedWith s t .invalidRange)

/-- R103: the code and the exact text of each error kind. -/
def Obligations.ErrorCodesAndTexts : Prop :=
  (errorCode .invalidCommand = 1 ∧ errorText .invalidCommand =
    [0x45, 0x52, 0x52, 0x4F, 0x52, 0x20, 0x49, 0x6E, 0x76, 0x61, 0x6C, 0x69, 0x64, 0x20, 0x63, 0x6F, 0x6D, 0x6D, 0x61,
      0x6E, 0x64]) ∧
  (errorCode .unknownCommand = 2 ∧ errorText .unknownCommand =
    [0x45, 0x52, 0x52, 0x4F, 0x52, 0x20, 0x55, 0x6E, 0x6B, 0x6E, 0x6F, 0x77, 0x6E, 0x20, 0x63, 0x6F, 0x6D, 0x6D, 0x61,
      0x6E, 0x64]) ∧
  (errorCode .invalidChannel = 3 ∧ errorText .invalidChannel =
    [0x45, 0x52, 0x52, 0x4F, 0x52, 0x20, 0x49, 0x6E, 0x76, 0x61, 0x6C, 0x69, 0x64, 0x20, 0x63, 0x68, 0x61, 0x6E, 0x6E,
      0x65, 0x6C]) ∧
  (errorCode .notConfigured = 4 ∧ errorText .notConfigured =
    [0x45, 0x52, 0x52, 0x4F, 0x52, 0x20, 0x43, 0x68, 0x61, 0x6E, 0x6E, 0x65, 0x6C, 0x20, 0x6E, 0x6F, 0x74, 0x20, 0x63,
      0x6F, 0x6E, 0x66, 0x69, 0x67, 0x75, 0x72, 0x65, 0x64]) ∧
  (errorCode .invalidPin = 5 ∧ errorText .invalidPin =
    [0x45, 0x52, 0x52, 0x4F, 0x52, 0x20, 0x49, 0x6E, 0x76, 0x61, 0x6C, 0x69, 0x64, 0x20, 0x47, 0x50, 0x49, 0x4F, 0x20,
      0x70, 0x69, 0x6E]) ∧
  (errorCode .invalidRange = 6 ∧ errorText .invalidRange =
    [0x45, 0x52, 0x52, 0x4F, 0x52, 0x20, 0x49, 0x6E, 0x76, 0x61, 0x6C, 0x69, 0x64, 0x20, 0x72, 0x61, 0x6E, 0x67, 0x65,
      0x3A, 0x20, 0x6D, 0x69, 0x6E, 0x20, 0x6D, 0x75, 0x73, 0x74, 0x20, 0x62, 0x65, 0x20, 0x6C, 0x65, 0x73, 0x73, 0x20,
      0x74, 0x68, 0x61, 0x6E, 0x20, 0x6D, 0x61, 0x78])

/-- R105, R68, R74: a well-formed command is refused only as not configured, an ill-formed one always for its operands. -/
def Obligations.WellFormedCommandsPassOperandChecks : Prop :=
  ∀ (i : Instr) (s : State), ∃ (t : State) (r : ResultRecord),
    exec i s = .next t ∧ t.records = s.records ++ [(s.conn, r)] ∧
      (i.wellFormed = true → r.code = 0 ∨ r.code = 4) ∧
      (i.wellFormed = false → r.code = 3 ∨ r.code = 5 ∨ r.code = 6)

/-- R73: a range within the absolute bounds is stored as given, and a query answers exactly it. -/
def Obligations.LegalRangeReadsBack : Prop :=
  ∀ (s : State) (c : Fin 8) (a b : Int), 500 ≤ a → a < b → b ≤ 2500 →
    ∃ (t u : State) (moved : Bool), exec (.setRange c.val a b) s = .next t ∧
      Answered s t (ascii ['O', 'K']) ⟨0, false, moved⟩ ∧ exec (.getRange c.val) t = .next u ∧
      Answered t u (ascii ['R', 'A', 'N', 'G', 'E', ' '] ++ dec a ++ ascii [' '] ++ dec b) ⟨0, false, false⟩

/-- R75: after a successful `SET PULSE` the stored pulse lies in the interval of both layers, and equals the requested value
exactly when that lay there; the premise is INV1 to INV3 of the channel. -/
def Obligations.StoredPulseLiesInBothRanges : Prop :=
  ∀ (s : State) (c : Fin 8) (v : Int), (s.ch[c]).Inv → s.ch[c].configured = true →
    ∃ t, exec (.setPulse c.val v) s = .next t ∧
      max s.ch[c].minUs.toInt 500 ≤ t.ch[c].pulseUs.toInt ∧ t.ch[c].pulseUs.toInt ≤ min s.ch[c].maxUs.toInt 2500 ∧
      (t.ch[c].pulseUs.toInt = v ↔ max s.ch[c].minUs.toInt 500 ≤ v ∧ v ≤ min s.ch[c].maxUs.toInt 2500)

/-- R69, R44: a second `DISABLE` succeeds, leaves the channel table as the first one left it, and leaves the pin low. -/
def Obligations.DisableTwiceIsIdempotent : Prop :=
  ∀ (s : State) (c : Fin 8), s.ch[c].configured = true →
    ∃ t u, exec (.disable c.val) s = .next t ∧ exec (.disable c.val) t = .next u ∧ u.ch = t.ch ∧
      Answered t u (ascii ['O', 'K']) ⟨0, false, false⟩ ∧ t.pinLevel s.ch[c].pin.toNat = .low ∧
      u.pinLevel s.ch[c].pin.toNat = .low

/-! ## Encoding -/

/-- R59: which token rows decode to which command, and which verbs are unknown. -/
def Obligations.DecodeMapsTheEightForms : Prop :=
  ∀ (verb : List Byte) (rest : List (List Byte)) (i : Instr), decodeTokens verb rest = .ok i ↔
    match i with
    | .setup c p => isKeyword verb kwSetup = true ∧ ∃ t1 t2 t3, rest = [t1, t2, t3] ∧ isKeyword t2 kwGpio = true ∧
        numeral t1 = some c ∧ numeral t3 = some p
    | .enable c => isKeyword verb kwEnable = true ∧ ∃ t1, rest = [t1] ∧ numeral t1 = some c
    | .disable c => isKeyword verb kwDisable = true ∧ ∃ t1, rest = [t1] ∧ numeral t1 = some c
    | .setRange c a b => isKeyword verb kwSet = true ∧ ∃ t1 t2 t3 t4, rest = [t1, t2, t3, t4] ∧
        isKeyword t2 kwRange = true ∧ numeral t1 = some c ∧ numeral t3 = some a ∧ numeral t4 = some b
    | .setPulse c v => isKeyword verb kwSet = true ∧ ∃ t1 t2 t3, rest = [t1, t2, t3] ∧ isKeyword t2 kwPulse = true ∧
        numeral t1 = some c ∧ numeral t3 = some v
    | .getRange c => isKeyword verb kwGet = true ∧ ∃ t1 t2, rest = [t1, t2] ∧ isKeyword t2 kwRange = true ∧
        numeral t1 = some c
    | .getPulse c => isKeyword verb kwGet = true ∧ ∃ t1 t2, rest = [t1, t2] ∧ isKeyword t2 kwPulse = true ∧
        numeral t1 = some c
    | .getState c => isKeyword verb kwGet = true ∧ ∃ t1 t2, rest = [t1, t2] ∧ isKeyword t2 kwState = true ∧
        numeral t1 = some c

/-- R64: the spec's own words decode to the commands they stand for, one of them in lower case, and the response `OK` is
its three bytes. -/
def Obligations.SpecWordsDecode : Prop :=
  decode [0x53, 0x45, 0x54, 0x55, 0x50, 0x20, 0x30, 0x20, 0x47, 0x50, 0x49, 0x4F, 0x20, 0x31, 0x37, 0x0A] =
    .ok (.setup 0 17, []) ∧
  decode [0x73, 0x65, 0x74, 0x20, 0x30, 0x20, 0x70, 0x75, 0x6C, 0x73, 0x65, 0x20, 0x31, 0x32, 0x30, 0x30, 0x0A] =
    .ok (.setPulse 0 1200, []) ∧
  decode [0x53, 0x45, 0x54, 0x20, 0x30, 0x20, 0x50, 0x55, 0x4C, 0x53, 0x45, 0x20, 0x31, 0x32, 0x30, 0x30, 0x0A] =
    .ok (.setPulse 0 1200, []) ∧
  decode [0x47, 0x45, 0x54, 0x20, 0x30, 0x20, 0x53, 0x54, 0x41, 0x54, 0x45, 0x0A] = .ok (.getState 0, []) ∧
  okText ++ [newline] = [0x4F, 0x4B, 0x0A]

/-- R58, R61: decoding the canonical spelling of any command, whatever its operands and whatever bytes follow, gives that
command and those bytes. -/
def Obligations.DecodeInvertsEncode : Prop :=
  ∀ (i : Instr) (rest : List Byte), decode (encode i ++ rest) = .ok (i, rest)

/-- R52, R54: one trailing carriage return, the byte 0x0D, changes nothing, also not what the line decodes to, a second one stays; a line of
separators is dropped; any other line is decoded from the tokens of what is left of it. -/
def Obligations.CarriageReturnAndBlankLines : Prop :=
  carriageReturn = 0x0D ∧
  (∀ content : Line, stripCR (content ++ [carriageReturn]) = content) ∧
  (∀ content : Line, content.getLast? ≠ some carriageReturn → stripCR content = content) ∧
  (∀ content : Line, (∀ b ∈ content, isSeparator b = true) →
    decodeLine content = .blank ∧ decodeLine (content ++ [carriageReturn]) = .blank) ∧
  (∀ content : Line, content.getLast? ≠ some carriageReturn →
    decodeLine (content ++ [carriageReturn]) = decodeLine content) ∧
  (∀ (content : Line) (i : Instr), decodeLine content = .command i ↔
    ∃ verb rest, tokens (stripCR content) = verb :: rest ∧ decodeTokens verb rest = .ok i) ∧
  (∀ (content : Line) (kind : ErrorKind), decodeLine content = .bad kind ↔
    ∃ verb rest, tokens (stripCR content) = verb :: rest ∧ decodeTokens verb rest = .error kind)

/-- R53: tokens are the maximal runs of bytes that are not separators: laid out with any runs of separators around them,
they come back as they were. The separators are the bytes 0x20 and 0x09 and no others. -/
def Obligations.TokensAreMaximalRuns : Prop :=
  (∀ b : Byte, isSeparator b = true ↔ b = 0x20 ∨ b = 0x09) ∧
  ∀ (lead : List Byte) (row : List (List Byte × List Byte)) (last : List Byte),
    (∀ b ∈ lead, isSeparator b = true) →
    (∀ x ∈ row, x.1 ≠ [] ∧ (∀ b ∈ x.1, isSeparator b = false) ∧ x.2 ≠ [] ∧ ∀ b ∈ x.2, isSeparator b = true) →
    (∀ b ∈ last, isSeparator b = false) →
    tokens (lead ++ (row.map fun x => x.1 ++ x.2).flatten ++ last) =
      row.map (fun x => x.1) ++ if last = [] then [] else [last]

/-- R63, R56: `dec(n)` is a numeral that denotes `n`, with no leading zero. -/
def Obligations.DecimalTextDenotesItsNumber : Prop :=
  ∀ n : Int, numeral (dec n) = some n ∧ (n = 0 → dec n = [0x30]) ∧
    (0 < n → ∃ b bs, dec n = b :: bs ∧ b ≠ 0x30 ∧ b ≠ minusSign) ∧
    (n < 0 → ∃ b bs, dec n = minusSign :: b :: bs ∧ b ≠ 0x30)

/-! ## The ports -/

/-- R36: a pin's mode and level are those of the latest such event for it; before the first one they are values of which
nothing is known. -/
def Obligations.PinViewIsLatestEvent : Prop :=
  ∀ (s : State) (p : Nat),
    (∀ pre e post, s.trace = pre ++ e :: post → e.pin = p →
      ((∀ f ∈ post, f.pin = p → f.act = .high ∨ f.act = .low) →
        (e.act = .output → s.pinMode p = .output) ∧ (e.act = .input → s.pinMode p = .input)) ∧
      ((∀ f ∈ post, f.pin = p → f.act = .output ∨ f.act = .input) →
        (e.act = .high → s.pinLevel p = .high) ∧ (e.act = .low → s.pinLevel p = .low))) ∧
    ((∀ f ∈ s.trace, f.pin = p → f.act = .high ∨ f.act = .low) → s.pinMode p = Config.unknownPinMode s.resets p) ∧
    ((∀ f ∈ s.trace, f.pin = p → f.act = .output ∨ f.act = .input) →
      s.pinLevel p = Config.unknownPinLevel s.resets p)

/-- R33, R34, R39: a step only appends to the trace, at times that do not decrease and lie between the time before and the
time after; HIGH comes from a frame only, LOW from a frame, a
command or the shutdown only, OUTPUT from a command only, INPUT from the shutdown only; from a safe state no
pin index above 27 reaches the pin port. -/
def Obligations.TraceGrowsByLawfulEvents : Prop :=
  ∀ s t : State, step s = .next t → s.now ≤ t.now ∧
    ∃ es, t.trace = s.trace ++ es ∧ EventsBetween s.now t.now es ∧
      ∀ e ∈ es, (e.act = .high → s.phase = .frame) ∧
        (e.act = .low → s.phase = .frame ∨ s.phase = .control ∨ s.phase = .shutdown) ∧ (e.act = .output → s.phase = .control) ∧
        (e.act = .input → s.phase = .shutdown) ∧ (s.ChannelsSafe → s.SnapshotLive → e.pin ≤ 27)

/-- R16, R128: every pin event is for a pin that a configured channel holds; a pin no channel has set up is never touched. -/
def Obligations.OnlySetUpPinsAreTouched : Prop :=
  ∀ s t : State, s.ChannelsSafe → s.SnapshotLive → step s = .next t →
    ∃ es, t.trace = s.trace ++ es ∧
      ∀ e ∈ es, ∃ c : Fin 8, t.ch[c].configured = true ∧ t.ch[c].pin.toNat = e.pin

/-- R22, R45: the channel table, the responses and the records change in a control phase only, but for `enabled` in the
shutdown; `configured` is never cleared. -/
def Obligations.TableChangesOnlyByCommands : Prop :=
  ∀ s t : State, step s = .next t →
    (s.phase ≠ .control → t.responses = s.responses ∧ t.records = s.records ∧
      ∀ c : Fin 8, t.ch[c] = s.ch[c] ∨ (s.phase = .shutdown ∧ t.ch[c] = { s.ch[c] with enabled := false })) ∧
    (∀ c : Fin 8, s.ch[c].configured = true → t.ch[c].configured = true)

/-! ## Invariants -/

/-- R20: every step keeps INV1 to INV7 of every channel. -/
def Obligations.StepKeepsChannelsSafe : Prop :=
  ∀ s t : State, s.ChannelsSafe → step s = .next t → t.ChannelsSafe

/-- R29: every step keeps the snapshot equal to the live table while a frame runs, and absent otherwise. -/
def Obligations.StepKeepsSnapshotLive : Prop :=
  ∀ s t : State, s.SnapshotLive → step s = .next t → t.SnapshotLive

/-- R33: every step keeps the trace in time order. -/
def Obligations.StepKeepsTraceOrdered : Prop :=
  ∀ s t : State, s.TraceOrdered → step s = .next t → t.TraceOrdered

/-- R86, R66: every step keeps that no pin was last driven high; of a pin never driven it says nothing, since R36 leaves its
level unknown. -/
def Obligations.StepKeepsNoPinLastDrivenHigh : Prop :=
  ∀ s t : State, s.NoPinHigh → step s = .next t → t.NoPinHigh

/-- R65, R66, R69, R86: every step keeps every configured channel's pin in output mode and low until the shutdown. -/
def Obligations.StepKeepsConfiguredPinsDriven : Prop :=
  ∀ s t : State, s.ConfiguredPinsDriven → step s = .next t → t.ConfiguredPinsDriven

/-- R24, R26, R81, R82: every step keeps the timer consistent: only expiries that have passed are consumed, at least one for
every frame. -/
def Obligations.StepKeepsTimerConsistent : Prop :=
  ∀ s t : State, s.TimerConsistent → s.NoFrameBeforeLoop → step s = .next t →
    t.TimerConsistent ∧ t.NoFrameBeforeLoop

/-- Log 16: every step keeps connection ids distinct. -/
def Obligations.StepKeepsConnectionsDistinct : Prop :=
  ∀ s t : State, s.ConnsDistinct → step s = .next t → t.ConnsDistinct

/-- R76: in every state reached from reset, whatever the host does and whatever the free values are, every stored bound and
pulse lies in 500..2500, and so does every pulse a frame has in its snapshot. -/
def Obligations.PulsesNeverLeaveTheEnvelope : Prop :=
  ∀ (s : State) (n : Nat) (t : State), s.HasResetValues → core.run n s = .next t →
    (∀ c : Fin 8, (500 ≤ t.ch[c].minUs.toInt ∧ t.ch[c].minUs.toInt ≤ 2500) ∧
      (500 ≤ t.ch[c].maxUs.toInt ∧ t.ch[c].maxUs.toInt ≤ 2500) ∧
      (500 ≤ t.ch[c].pulseUs.toInt ∧ t.ch[c].pulseUs.toInt ≤ 2500)) ∧
    ∀ snap, t.snapshot = some snap → ∀ c : Fin 8,
      500 ≤ snap[c].pulseUs.toInt ∧ snap[c].pulseUs.toInt ≤ 2500

/-- R104, R106, R107, R108: no error stops the machine: from every state, any number of steps gives a state. That the model
has no stopping fault at all is its reading of these rules (log 22, DEDUCED), and that HALTED and FAILED, which the spec calls
stuck until a reset, step on with only the host's time passing is its choice (log 10). -/
def Obligations.MachineNeverStops : Prop :=
  ∀ (n : Nat) (s : State), ∃ t, core.run n s = .next t

/-! ## Keywords and numerals -/

/-- R55: a token matches a keyword when it equals it byte for byte after the bytes 0x61..0x7A, and no other, have been
mapped to the byte 0x20 less; so no abbreviation matches. The nine keywords are the spec's. -/
def Obligations.KeywordsFoldLowerCaseOnly : Prop :=
  (∀ b : Byte,
    (0x61 ≤ b.toNat → b.toNat ≤ 0x7A → (foldByte b).toNat + 0x20 = b.toNat) ∧
    ((b.toNat < 0x61 ∨ 0x7A < b.toNat) → foldByte b = b)) ∧
  (∀ token keyword : List Byte, isKeyword token keyword = true ↔
    List.Forall₂ (fun b k => k = foldByte b) token keyword) ∧
  (∀ token keyword : List Byte, isKeyword token keyword = true → token.length = keyword.length) ∧
  kwSetup = [0x53, 0x45, 0x54, 0x55, 0x50] ∧ kwEnable = [0x45, 0x4E, 0x41, 0x42, 0x4C, 0x45] ∧
  kwDisable = [0x44, 0x49, 0x53, 0x41, 0x42, 0x4C, 0x45] ∧ kwSet = [0x53, 0x45, 0x54] ∧
  kwGet = [0x47, 0x45, 0x54] ∧ kwGpio = [0x47, 0x50, 0x49, 0x4F] ∧ kwRange = [0x52, 0x41, 0x4E, 0x47, 0x45] ∧
  kwPulse = [0x50, 0x55, 0x4C, 0x53, 0x45] ∧ kwState = [0x53, 0x54, 0x41, 0x54, 0x45]

/-- R56: a token is a numeral exactly when it is an optional minus sign and one or more digits and nothing else; its value
is the number the digits denote in base ten, negated after a minus sign. So leading zeros and `-0` are numerals, and a plus
sign, a lone minus sign, a decimal point and a hexadecimal prefix are not. -/
def Obligations.NumeralsAreSignedDigitRows : Prop :=
  (∀ (token : List Byte) (n : Int), numeral token = some n ↔
    ∃ digits : List Byte, digits ≠ [] ∧ (∀ b ∈ digits, 0x30 ≤ b.toNat ∧ b.toNat ≤ 0x39) ∧
      ((token = digits ∧ n = (Nat.ofDigits 10 (digits.reverse.map fun b => b.toNat - 0x30) : Nat)) ∨
        (token = 0x2D :: digits ∧ n = -(Nat.ofDigits 10 (digits.reverse.map fun b => b.toNat - 0x30) : Nat)))) ∧
  numeral [0x30, 0x30, 0x37] = some 7 ∧ numeral [0x2D, 0x30] = some 0 ∧ numeral [] = none ∧ numeral [0x2D] = none ∧
  numeral [0x2B, 0x31] = none ∧ numeral [0x2D, 0x2D, 0x31] = none ∧ numeral [0x31, 0x2E, 0x35] = none ∧
  numeral [0x31, 0x65, 0x33] = none ∧ numeral [0x30, 0x78, 0x31] = none
end

