-- ==== Sys2Proof/Laws/Decode.lean ====
section
/-! SUPPORT. Lines, tokens, keywords and numerals: what each function of the decoder gives, and what the canonical spelling is
made of. -/

namespace Sys2Proof

/-! ## Lines -/

theorem splitLine_append_newline {content rest : List Byte} (h : newline ∉ content) :
    splitLine (content ++ newline :: rest) = some (content, rest) := by
  induction content with
  | nil => simp [splitLine]
  | cons b bs ih =>
    rw [List.mem_cons, not_or] at h
    rw [List.cons_append, splitLine, if_neg (Ne.symm h.1), ih h.2]
    rfl

/-- The lines a buffer holds and its partial line are the buffer, cut at its newlines (10_state.md R30). -/
theorem splitLines_spec (buffer : List Byte) :
    ((splitLines buffer).1.map fun l => l ++ [newline]).flatten ++ (splitLines buffer).2 = buffer ∧
      newline ∉ (splitLines buffer).2 ∧ ∀ l ∈ (splitLines buffer).1, newline ∉ l := by
  induction buffer with
  | nil => simp [splitLines]
  | cons b bs ih =>
    obtain ⟨h1, h2, h3⟩ := ih
    unfold splitLines
    split
    · rename_i hb
      subst hb
      simp only [List.map_cons, List.nil_append, List.flatten_cons, List.cons_append, h1]
      exact ⟨trivial, h2, by simpa using h3⟩
    · rename_i hb
      split
      · rename_i p hp
        rw [hp] at h1 h2
        simp only [List.map_nil, List.flatten_nil, List.nil_append] at h1
        exact ⟨by simp [h1], by simpa using ⟨fun e => hb e.symm, h2⟩, by simp⟩
      · rename_i l ls p hp
        rw [hp] at h1 h2 h3
        simp only [List.map_cons, List.flatten_cons] at h1
        refine ⟨by simp [← h1], h2, fun m hm => ?_⟩
        rcases List.mem_cons.1 hm with rfl | hm
        · have := h3 l List.mem_cons_self
          simpa using ⟨fun e => hb e.symm, this⟩
        · exact h3 m (List.mem_cons_of_mem _ hm)

theorem splitLines_newline (bs : List Byte) :
    splitLines (newline :: bs) = ([] :: (splitLines bs).1, (splitLines bs).2) := by
  rw [splitLines, if_pos rfl]

/-- The first line of a buffer is the one `splitLine` gives. -/
theorem splitLines_of_splitLine {buffer rest : List Byte} {content : Line}
    (h : splitLine buffer = some (content, rest)) : (splitLines buffer).1 = content :: (splitLines rest).1 := by
  induction buffer generalizing content with
  | nil => cases h
  | cons b bs ih =>
    rw [splitLine] at h
    split at h
    · rename_i hb
      cases h
      rw [hb, splitLines_newline]
    · rename_i hb
      rw [Option.map_eq_some_iff] at h
      obtain ⟨⟨l, r⟩, hq, he⟩ := h
      cases he
      have hl := ih hq
      rw [splitLines, if_neg hb]
      split
      · rename_i p hp
        rw [hp] at hl
        cases hl
      · rename_i m ms p hp
        rw [hp] at hl
        cases hl
        rfl

/-! ## The trailing carriage return -/

theorem stripCR_append (content : Line) : stripCR (content ++ [carriageReturn]) = content := by
  induction content with
  | nil => rfl
  | cons b bs ih =>
    cases bs with
    | nil => rfl
    | cons d ds => exact congrArg (b :: ·) ih

theorem stripCR_of_getLast {content : Line} (h : content.getLast? ≠ some carriageReturn) : stripCR content = content := by
  induction content with
  | nil => rfl
  | cons b bs ih =>
    cases bs with
    | nil =>
      rw [stripCR, if_neg]
      intro e
      exact h (by rw [e]; rfl)
    | cons d ds =>
      rw [List.getLast?_cons_cons] at h
      exact congrArg (b :: ·) (ih h)

theorem stripCR_of_not_mem {content : Line} (h : carriageReturn ∉ content) : stripCR content = content :=
  stripCR_of_getLast fun e => h (List.mem_of_getLast? e)

/-! ## Tokens -/

theorem endToken_of_ne {current : List Byte} (h : current ≠ []) : endToken current = [current] := by
  cases current with
  | nil => exact absurd rfl h
  | cons => rfl

theorem endToken_eq (current : List Byte) : endToken current = if current = [] then [] else [current] := by
  cases current <;> rfl

/-- Bytes that are not separators go to the token under construction. -/
theorem tokensFrom_append_run {run : List Byte} (current rest : List Byte) (h : ∀ b ∈ run, isSeparator b = false) :
    tokensFrom current (run ++ rest) = tokensFrom (current ++ run) rest := by
  induction run generalizing current with
  | nil => simp
  | cons b bs ih =>
    rw [List.cons_append, tokensFrom, if_neg (by rw [h b List.mem_cons_self]; exact Bool.false_ne_true),
      ih _ fun d hd => h d (List.mem_cons_of_mem _ hd), List.append_assoc, List.singleton_append]

/-- A run of separators ends the token under construction. -/
theorem tokensFrom_append_separators {seps : List Byte} (current rest : List Byte)
    (h : ∀ b ∈ seps, isSeparator b = true) (hne : seps ≠ []) :
    tokensFrom current (seps ++ rest) = endToken current ++ tokens rest := by
  induction seps generalizing current with
  | nil => exact absurd rfl hne
  | cons b bs ih =>
    rw [List.cons_append, tokensFrom, if_pos (h b List.mem_cons_self)]
    cases bs with
    | nil => rfl
    | cons d ds => rw [ih [] (fun e he => h e (List.mem_cons_of_mem _ he)) (by simp)]; rfl

theorem tokens_append_separators {seps : List Byte} (rest : List Byte) (h : ∀ b ∈ seps, isSeparator b = true) :
    tokens (seps ++ rest) = tokens rest := by
  cases seps with
  | nil => rfl
  | cons b bs => exact tokensFrom_append_separators [] rest h (by simp)

/-- A token and the separators after it come off the front of a line. -/
theorem tokens_cons_run {run seps : List Byte} (rest : List Byte) (hne : run ≠ [])
    (hrun : ∀ b ∈ run, isSeparator b = false) (hsne : seps ≠ []) (hseps : ∀ b ∈ seps, isSeparator b = true) :
    tokens (run ++ seps ++ rest) = run :: tokens rest := by
  rw [List.append_assoc, tokens, tokensFrom_append_run [] _ hrun, List.nil_append,
    tokensFrom_append_separators run rest hseps hsne, endToken_of_ne hne]
  rfl

/-- The last token of a line, with nothing after it. -/
theorem tokens_run {run : List Byte} (h : ∀ b ∈ run, isSeparator b = false) :
    tokens run = if run = [] then [] else [run] := by
  rw [← endToken_eq, tokens, ← List.append_nil run, tokensFrom_append_run [] [] h, List.nil_append, List.append_nil]
  rfl

/-- A token and one space come off the front of a line. -/
theorem tokens_cons_space {run : List Byte} (rest : List Byte) (hne : run ≠ [])
    (hrun : ∀ b ∈ run, isSeparator b = false) : tokens (run ++ space :: rest) = run :: tokens rest := by
  rw [← List.singleton_append, ← List.append_assoc]
  exact tokens_cons_run rest hne hrun (by simp) (by decide)

/-! ## Numerals -/

theorem digitByte_toNat {d : Nat} (h : d < 10) : (digitByte d).toNat = 0x30 + d := by
  rw [digitByte, BitVec.toNat_ofNat]
  omega

theorem isDigit_iff (b : Byte) : isDigit b = true ↔ 0x30 ≤ b.toNat ∧ b.toNat ≤ 0x39 := by
  simp [isDigit, BitVec.le_def]

theorem isDigit_digitByte {d : Nat} (h : d < 10) : isDigit (digitByte d) = true := by
  rw [isDigit_iff, digitByte_toNat h]
  omega

theorem digitValue_digitByte {d : Nat} (h : d < 10) : digitValue (digitByte d) = d := by
  rw [digitValue, digitByte_toNat h]
  omega

/-- A digit is no separator, no newline, no carriage return and no minus sign. -/
theorem digit_ne {b : Byte} (h : isDigit b = true) :
    isSeparator b = false ∧ b ≠ newline ∧ b ≠ carriageReturn ∧ b ≠ minusSign := by
  have hb := (isDigit_iff b).1 h
  refine ⟨?_, ?_, ?_, ?_⟩
  · rw [isSeparator, Bool.or_eq_false_iff]
    constructor <;> rw [beq_eq_false_iff_ne] <;> rintro rfl <;> revert hb <;> decide
  all_goals rintro rfl; revert hb; decide

theorem digitsValue_append (ds : List Byte) (b : Byte) :
    digitsValue (ds ++ [b]) = 10 * digitsValue ds + digitValue b := by
  simp [digitsValue]

/-- The digits of `n`: all digits, at least one, of value `n`, and no leading zero. -/
theorem decDigits_spec (fuel n : Nat) (h : n < fuel) :
    (∀ b ∈ decDigits fuel n, isDigit b = true) ∧ digitsValue (decDigits fuel n) = n ∧
      ∃ b bs, decDigits fuel n = b :: bs ∧ (0 < n → b ≠ 0x30) := by
  induction fuel generalizing n with
  | zero => omega
  | succ fuel ih =>
    rw [decDigits]
    split
    · rename_i hn
      refine ⟨by simpa using isDigit_digitByte hn, ?_, digitByte n, [], rfl, fun hpos e => ?_⟩
      · simp [digitsValue, digitValue_digitByte hn]
      · have := congrArg BitVec.toNat e
        rw [digitByte_toNat hn] at this
        simp at this
        omega
    · rename_i hn
      have hm : n % 10 < 10 := Nat.mod_lt _ (by decide)
      obtain ⟨h1, h2, b, bs, h3, h4⟩ := ih (n / 10) (by omega)
      refine ⟨fun d hd => ?_, ?_, b, bs ++ [digitByte (n % 10)], by rw [h3]; rfl, fun _ => h4 (by omega)⟩
      · rcases List.mem_append.1 hd with hd | hd
        · exact h1 d hd
        · rw [List.mem_singleton.1 hd]; exact isDigit_digitByte hm
      · rw [digitsValue_append, h2, digitValue_digitByte hm]
        omega

/-- The decimal text of a natural number (30_encoding.md R63). -/
theorem decNat_spec (n : Nat) :
    (∀ b ∈ decNat n, isDigit b = true) ∧ digitsValue (decNat n) = n ∧
      ∃ b bs, decNat n = b :: bs ∧ (0 < n → b ≠ 0x30) :=
  decDigits_spec (n + 1) n (Nat.lt_succ_self n)

theorem unsignedNumeral_decNat (n : Nat) : unsignedNumeral (decNat n) = some n := by
  obtain ⟨h1, h2, b, bs, h3, -⟩ := decNat_spec n
  rw [h3] at h1 h2 ⊢
  rw [unsignedNumeral, if_pos (List.all_eq_true.2 h1), h2]

/-- The decimal text of an integer is a numeral that denotes it (30_encoding.md R56, R63). -/
theorem numeral_dec (n : Int) : numeral (dec n) = some n := by
  cases n with
  | ofNat m =>
    obtain ⟨h1, -, b, bs, h3, -⟩ := decNat_spec m
    have hb : b ≠ minusSign := (digit_ne (h1 b (by rw [h3]; exact List.mem_cons_self))).2.2.2
    have hu := unsignedNumeral_decNat m
    rw [h3] at hu
    rw [dec, h3, numeral, if_neg hb, hu]
    rfl
  | negSucc m =>
    rw [dec, numeral, if_pos rfl, unsignedNumeral_decNat]
    rfl

/-- Every byte of the decimal text of an integer is a digit or a minus sign. -/
theorem dec_bytes (n : Int) : ∀ b ∈ dec n, isDigit b = true ∨ b = minusSign := by
  cases n with
  | ofNat m => exact fun b hb => .inl ((decNat_spec m).1 b hb)
  | negSucc m =>
    intro b hb
    rcases List.mem_cons.1 hb with rfl | hb
    · exact .inr rfl
    · exact .inl ((decNat_spec (m + 1)).1 b hb)

theorem dec_ne_nil (n : Int) : dec n ≠ [] := by
  cases n with
  | ofNat m =>
    obtain ⟨-, -, b, bs, h3, -⟩ := decNat_spec m
    rw [dec, h3]
    exact List.cons_ne_nil _ _
  | negSucc m => exact List.cons_ne_nil _ _

theorem dec_separators (n : Int) : ∀ b ∈ dec n, isSeparator b = false := by
  intro b hb
  rcases dec_bytes n b hb with h | rfl
  · exact (digit_ne h).1
  · decide

theorem newline_not_mem_dec (n : Int) : newline ∉ dec n := fun hb => by
  rcases dec_bytes n _ hb with h | h
  · exact (digit_ne h).2.1 rfl
  · revert h; decide

theorem carriageReturn_not_mem_dec (n : Int) : carriageReturn ∉ dec n := fun hb => by
  rcases dec_bytes n _ hb with h | h
  · exact (digit_ne h).2.2.1 rfl
  · revert h; decide

/-! ## The canonical spelling -/

/-- The tokens of a command's canonical spelling (30_encoding.md R58, R61). -/
def canonicalTokens : Instr → List (List Byte)
  | .setup c p => [kwSetup, dec c, kwGpio, dec p]
  | .enable c => [kwEnable, dec c]
  | .disable c => [kwDisable, dec c]
  | .setRange c a b => [kwSet, dec c, kwRange, dec a, dec b]
  | .setPulse c v => [kwSet, dec c, kwPulse, dec v]
  | .getRange c => [kwGet, dec c, kwRange]
  | .getPulse c => [kwGet, dec c, kwPulse]
  | .getState c => [kwGet, dec c, kwState]

theorem tokens_keyword_space (kw : List Byte) (rest : List Byte)
    (h : kw ∈ [kwSetup, kwEnable, kwDisable, kwSet, kwGet, kwGpio, kwRange, kwPulse, kwState]) :
    tokens (kw ++ space :: rest) = kw :: tokens rest := by
  fin_cases h <;> exact tokens_cons_space rest (by decide) (by decide)

theorem tokens_dec_space (n : Int) (rest : List Byte) : tokens (dec n ++ space :: rest) = dec n :: tokens rest :=
  tokens_cons_space rest (dec_ne_nil n) (dec_separators n)

theorem tokens_dec (n : Int) : tokens (dec n) = [dec n] := by
  rw [tokens_run (dec_separators n), if_neg (dec_ne_nil n)]

theorem tokens_encodeLine (i : Instr) : tokens (encodeLine i) = canonicalTokens i := by
  cases i <;> simp only [encodeLine, canonicalTokens, List.append_assoc, List.cons_append]
  case setup c p =>
    rw [tokens_keyword_space kwSetup _ (by simp), tokens_dec_space, tokens_keyword_space kwGpio _ (by simp), tokens_dec]
  case enable c => rw [tokens_keyword_space kwEnable _ (by simp), tokens_dec]
  case disable c => rw [tokens_keyword_space kwDisable _ (by simp), tokens_dec]
  case setRange c a b =>
    rw [tokens_keyword_space kwSet _ (by simp), tokens_dec_space, tokens_keyword_space kwRange _ (by simp),
      tokens_dec_space, tokens_dec]
  case setPulse c v =>
    rw [tokens_keyword_space kwSet _ (by simp), tokens_dec_space, tokens_keyword_space kwPulse _ (by simp), tokens_dec]
  case getRange c => rw [tokens_keyword_space kwGet _ (by simp), tokens_dec_space]; rfl
  case getPulse c => rw [tokens_keyword_space kwGet _ (by simp), tokens_dec_space]; rfl
  case getState c => rw [tokens_keyword_space kwGet _ (by simp), tokens_dec_space]; rfl

theorem carriageReturn_not_mem_encodeLine (i : Instr) : carriageReturn ∉ encodeLine i := by
  have hs : carriageReturn ≠ space := by decide
  cases i <;> simp only [encodeLine, List.mem_append, List.mem_cons, not_or] <;>
    simp only [carriageReturn_not_mem_dec, hs, not_false_eq_true, and_true, true_and] <;> decide

end Sys2Proof
end

