-- ==== Sys2Proof/Laws/State.lean ====
section
/-! SUPPORT. One lemma per field per update of `State`: what an update leaves as it was, and what it writes. -/

namespace Sys2Proof.Machine

variable (s : State)

/-! ## `State.setCh` -/

@[simp] theorem State.setCh_phase (c : Fin 8) (v : Channel) : (s.setCh c v).phase = s.phase := rfl
@[simp] theorem State.setCh_tRun0 (c : Fin 8) (v : Channel) : (s.setCh c v).tRun0 = s.tRun0 := rfl
@[simp] theorem State.setCh_served (c : Fin 8) (v : Channel) : (s.setCh c v).served = s.served := rfl
@[simp] theorem State.setCh_overrunCount (c : Fin 8) (v : Channel) : (s.setCh c v).overrunCount = s.overrunCount := rfl
@[simp] theorem State.setCh_frameIndex (c : Fin 8) (v : Channel) : (s.setCh c v).frameIndex = s.frameIndex := rfl
@[simp] theorem State.setCh_stopRequested (c : Fin 8) (v : Channel) : (s.setCh c v).stopRequested = s.stopRequested := rfl
@[simp] theorem State.setCh_sharedPinFault (c : Fin 8) (v : Channel) : (s.setCh c v).sharedPinFault = s.sharedPinFault := rfl
@[simp] theorem State.setCh_snapshot (c : Fin 8) (v : Channel) : (s.setCh c v).snapshot = s.snapshot := rfl
@[simp] theorem State.setCh_conns (c : Fin 8) (v : Channel) : (s.setCh c v).conns = s.conns := rfl
@[simp] theorem State.setCh_pending (c : Fin 8) (v : Channel) : (s.setCh c v).pending = s.pending := rfl
@[simp] theorem State.setCh_batch (c : Fin 8) (v : Channel) : (s.setCh c v).batch = s.batch := rfl
@[simp] theorem State.setCh_conn (c : Fin 8) (v : Channel) : (s.setCh c v).conn = s.conn := rfl
@[simp] theorem State.setCh_responses (c : Fin 8) (v : Channel) : (s.setCh c v).responses = s.responses := rfl
@[simp] theorem State.setCh_records (c : Fin 8) (v : Channel) : (s.setCh c v).records = s.records := rfl
@[simp] theorem State.setCh_trace (c : Fin 8) (v : Channel) : (s.setCh c v).trace = s.trace := rfl
@[simp] theorem State.setCh_now (c : Fin 8) (v : Channel) : (s.setCh c v).now = s.now := rfl
@[simp] theorem State.setCh_regsOk (c : Fin 8) (v : Channel) : (s.setCh c v).regsOk = s.regsOk := rfl
@[simp] theorem State.setCh_timerOk (c : Fin 8) (v : Channel) : (s.setCh c v).timerOk = s.timerOk := rfl
@[simp] theorem State.setCh_endpointOk (c : Fin 8) (v : Channel) : (s.setCh c v).endpointOk = s.endpointOk := rfl
@[simp] theorem State.setCh_edgeTiming (c : Fin 8) (v : Channel) : (s.setCh c v).edgeTiming = s.edgeTiming := rfl
@[simp] theorem State.setCh_hostInputs (c : Fin 8) (v : Channel) : (s.setCh c v).hostInputs = s.hostInputs := rfl
@[simp] theorem State.setCh_delays (c : Fin 8) (v : Channel) : (s.setCh c v).delays = s.delays := rfl
@[simp] theorem State.setCh_choices (c : Fin 8) (v : Channel) : (s.setCh c v).choices = s.choices := rfl
@[simp] theorem State.setCh_resets (c : Fin 8) (v : Channel) : (s.setCh c v).resets = s.resets := rfl
@[simp] theorem State.setCh_accepted (c : Fin 8) (v : Channel) (k : Nat) : (s.setCh c v).accepted k = s.accepted k := rfl
@[simp] theorem State.setCh_dueInputs (c : Fin 8) (v : Channel) : (s.setCh c v).dueInputs = s.dueInputs := rfl
@[simp] theorem State.setCh_isOpen (c : Fin 8) (v : Channel) (k : Nat) : (s.setCh c v).isOpen k = s.isOpen k := rfl

/-! ## `State.passTime` -/

@[simp] theorem State.passTime_ch : (s.passTime).ch = s.ch := rfl
@[simp] theorem State.passTime_phase : (s.passTime).phase = s.phase := rfl
@[simp] theorem State.passTime_tRun0 : (s.passTime).tRun0 = s.tRun0 := rfl
@[simp] theorem State.passTime_served : (s.passTime).served = s.served := rfl
@[simp] theorem State.passTime_overrunCount : (s.passTime).overrunCount = s.overrunCount := rfl
@[simp] theorem State.passTime_frameIndex : (s.passTime).frameIndex = s.frameIndex := rfl
@[simp] theorem State.passTime_stopRequested : (s.passTime).stopRequested = s.stopRequested := rfl
@[simp] theorem State.passTime_sharedPinFault : (s.passTime).sharedPinFault = s.sharedPinFault := rfl
@[simp] theorem State.passTime_snapshot : (s.passTime).snapshot = s.snapshot := rfl
@[simp] theorem State.passTime_conns : (s.passTime).conns = s.conns := rfl
@[simp] theorem State.passTime_pending : (s.passTime).pending = s.pending := rfl
@[simp] theorem State.passTime_batch : (s.passTime).batch = s.batch := rfl
@[simp] theorem State.passTime_conn : (s.passTime).conn = s.conn := rfl
@[simp] theorem State.passTime_responses : (s.passTime).responses = s.responses := rfl
@[simp] theorem State.passTime_records : (s.passTime).records = s.records := rfl
@[simp] theorem State.passTime_trace : (s.passTime).trace = s.trace := rfl
@[simp] theorem State.passTime_regsOk : (s.passTime).regsOk = s.regsOk := rfl
@[simp] theorem State.passTime_timerOk : (s.passTime).timerOk = s.timerOk := rfl
@[simp] theorem State.passTime_endpointOk : (s.passTime).endpointOk = s.endpointOk := rfl
@[simp] theorem State.passTime_edgeTiming : (s.passTime).edgeTiming = s.edgeTiming := rfl
@[simp] theorem State.passTime_hostInputs : (s.passTime).hostInputs = s.hostInputs := rfl
@[simp] theorem State.passTime_choices : (s.passTime).choices = s.choices := rfl
@[simp] theorem State.passTime_resets : (s.passTime).resets = s.resets := rfl
@[simp] theorem State.passTime_accepted (k : Nat) : (s.passTime).accepted k = s.accepted k := rfl

/-! ## `State.elapse` -/

@[simp] theorem State.elapse_ch (d : Nat) : (s.elapse d).ch = s.ch := rfl
@[simp] theorem State.elapse_phase (d : Nat) : (s.elapse d).phase = s.phase := rfl
@[simp] theorem State.elapse_tRun0 (d : Nat) : (s.elapse d).tRun0 = s.tRun0 := rfl
@[simp] theorem State.elapse_served (d : Nat) : (s.elapse d).served = s.served := rfl
@[simp] theorem State.elapse_overrunCount (d : Nat) : (s.elapse d).overrunCount = s.overrunCount := rfl
@[simp] theorem State.elapse_frameIndex (d : Nat) : (s.elapse d).frameIndex = s.frameIndex := rfl
@[simp] theorem State.elapse_stopRequested (d : Nat) : (s.elapse d).stopRequested = s.stopRequested := rfl
@[simp] theorem State.elapse_sharedPinFault (d : Nat) : (s.elapse d).sharedPinFault = s.sharedPinFault := rfl
@[simp] theorem State.elapse_snapshot (d : Nat) : (s.elapse d).snapshot = s.snapshot := rfl
@[simp] theorem State.elapse_conns (d : Nat) : (s.elapse d).conns = s.conns := rfl
@[simp] theorem State.elapse_pending (d : Nat) : (s.elapse d).pending = s.pending := rfl
@[simp] theorem State.elapse_batch (d : Nat) : (s.elapse d).batch = s.batch := rfl
@[simp] theorem State.elapse_conn (d : Nat) : (s.elapse d).conn = s.conn := rfl
@[simp] theorem State.elapse_responses (d : Nat) : (s.elapse d).responses = s.responses := rfl
@[simp] theorem State.elapse_records (d : Nat) : (s.elapse d).records = s.records := rfl
@[simp] theorem State.elapse_trace (d : Nat) : (s.elapse d).trace = s.trace := rfl
@[simp] theorem State.elapse_regsOk (d : Nat) : (s.elapse d).regsOk = s.regsOk := rfl
@[simp] theorem State.elapse_timerOk (d : Nat) : (s.elapse d).timerOk = s.timerOk := rfl
@[simp] theorem State.elapse_endpointOk (d : Nat) : (s.elapse d).endpointOk = s.endpointOk := rfl
@[simp] theorem State.elapse_edgeTiming (d : Nat) : (s.elapse d).edgeTiming = s.edgeTiming := rfl
@[simp] theorem State.elapse_hostInputs (d : Nat) : (s.elapse d).hostInputs = s.hostInputs := rfl
@[simp] theorem State.elapse_delays (d : Nat) : (s.elapse d).delays = s.delays := rfl
@[simp] theorem State.elapse_choices (d : Nat) : (s.elapse d).choices = s.choices := rfl
@[simp] theorem State.elapse_resets (d : Nat) : (s.elapse d).resets = s.resets := rfl
@[simp] theorem State.elapse_accepted (d : Nat) (k : Nat) : (s.elapse d).accepted k = s.accepted k := rfl

/-! ## `State.lateness` -/

@[simp] theorem State.lateness_ch : (s.lateness).ch = s.ch := by unfold State.lateness; split <;> rfl
@[simp] theorem State.lateness_phase : (s.lateness).phase = s.phase := by unfold State.lateness; split <;> rfl
@[simp] theorem State.lateness_tRun0 : (s.lateness).tRun0 = s.tRun0 := by unfold State.lateness; split <;> rfl
@[simp] theorem State.lateness_served : (s.lateness).served = s.served := by unfold State.lateness; split <;> rfl
@[simp] theorem State.lateness_overrunCount : (s.lateness).overrunCount = s.overrunCount := by unfold State.lateness; split <;> rfl
@[simp] theorem State.lateness_frameIndex : (s.lateness).frameIndex = s.frameIndex := by unfold State.lateness; split <;> rfl
@[simp] theorem State.lateness_stopRequested : (s.lateness).stopRequested = s.stopRequested := by unfold State.lateness; split <;> rfl
@[simp] theorem State.lateness_sharedPinFault : (s.lateness).sharedPinFault = s.sharedPinFault := by unfold State.lateness; split <;> rfl
@[simp] theorem State.lateness_snapshot : (s.lateness).snapshot = s.snapshot := by unfold State.lateness; split <;> rfl
@[simp] theorem State.lateness_conns : (s.lateness).conns = s.conns := by unfold State.lateness; split <;> rfl
@[simp] theorem State.lateness_pending : (s.lateness).pending = s.pending := by unfold State.lateness; split <;> rfl
@[simp] theorem State.lateness_batch : (s.lateness).batch = s.batch := by unfold State.lateness; split <;> rfl
@[simp] theorem State.lateness_conn : (s.lateness).conn = s.conn := by unfold State.lateness; split <;> rfl
@[simp] theorem State.lateness_responses : (s.lateness).responses = s.responses := by unfold State.lateness; split <;> rfl
@[simp] theorem State.lateness_records : (s.lateness).records = s.records := by unfold State.lateness; split <;> rfl
@[simp] theorem State.lateness_trace : (s.lateness).trace = s.trace := by unfold State.lateness; split <;> rfl
@[simp] theorem State.lateness_regsOk : (s.lateness).regsOk = s.regsOk := by unfold State.lateness; split <;> rfl
@[simp] theorem State.lateness_timerOk : (s.lateness).timerOk = s.timerOk := by unfold State.lateness; split <;> rfl
@[simp] theorem State.lateness_endpointOk : (s.lateness).endpointOk = s.endpointOk := by unfold State.lateness; split <;> rfl
@[simp] theorem State.lateness_edgeTiming : (s.lateness).edgeTiming = s.edgeTiming := by unfold State.lateness; split <;> rfl
@[simp] theorem State.lateness_hostInputs : (s.lateness).hostInputs = s.hostInputs := by unfold State.lateness; split <;> rfl
@[simp] theorem State.lateness_choices : (s.lateness).choices = s.choices := by unfold State.lateness; split <;> rfl
@[simp] theorem State.lateness_resets : (s.lateness).resets = s.resets := by unfold State.lateness; split <;> rfl
@[simp] theorem State.lateness_accepted (k : Nat) : (s.lateness).accepted k = s.accepted k := by simp [State.accepted]

/-! ## `State.emitNow` -/

@[simp] theorem State.emitNow_ch (pin : PinWord) (act : PinAct) : (s.emitNow pin act).ch = s.ch := rfl
@[simp] theorem State.emitNow_phase (pin : PinWord) (act : PinAct) : (s.emitNow pin act).phase = s.phase := rfl
@[simp] theorem State.emitNow_tRun0 (pin : PinWord) (act : PinAct) : (s.emitNow pin act).tRun0 = s.tRun0 := rfl
@[simp] theorem State.emitNow_served (pin : PinWord) (act : PinAct) : (s.emitNow pin act).served = s.served := rfl
@[simp] theorem State.emitNow_overrunCount (pin : PinWord) (act : PinAct) : (s.emitNow pin act).overrunCount = s.overrunCount := rfl
@[simp] theorem State.emitNow_frameIndex (pin : PinWord) (act : PinAct) : (s.emitNow pin act).frameIndex = s.frameIndex := rfl
@[simp] theorem State.emitNow_stopRequested (pin : PinWord) (act : PinAct) : (s.emitNow pin act).stopRequested = s.stopRequested := rfl
@[simp] theorem State.emitNow_sharedPinFault (pin : PinWord) (act : PinAct) : (s.emitNow pin act).sharedPinFault = s.sharedPinFault := rfl
@[simp] theorem State.emitNow_snapshot (pin : PinWord) (act : PinAct) : (s.emitNow pin act).snapshot = s.snapshot := rfl
@[simp] theorem State.emitNow_conns (pin : PinWord) (act : PinAct) : (s.emitNow pin act).conns = s.conns := rfl
@[simp] theorem State.emitNow_pending (pin : PinWord) (act : PinAct) : (s.emitNow pin act).pending = s.pending := rfl
@[simp] theorem State.emitNow_batch (pin : PinWord) (act : PinAct) : (s.emitNow pin act).batch = s.batch := rfl
@[simp] theorem State.emitNow_conn (pin : PinWord) (act : PinAct) : (s.emitNow pin act).conn = s.conn := rfl
@[simp] theorem State.emitNow_responses (pin : PinWord) (act : PinAct) : (s.emitNow pin act).responses = s.responses := rfl
@[simp] theorem State.emitNow_records (pin : PinWord) (act : PinAct) : (s.emitNow pin act).records = s.records := rfl
@[simp] theorem State.emitNow_now (pin : PinWord) (act : PinAct) : (s.emitNow pin act).now = s.now := rfl
@[simp] theorem State.emitNow_regsOk (pin : PinWord) (act : PinAct) : (s.emitNow pin act).regsOk = s.regsOk := rfl
@[simp] theorem State.emitNow_timerOk (pin : PinWord) (act : PinAct) : (s.emitNow pin act).timerOk = s.timerOk := rfl
@[simp] theorem State.emitNow_endpointOk (pin : PinWord) (act : PinAct) : (s.emitNow pin act).endpointOk = s.endpointOk := rfl
@[simp] theorem State.emitNow_edgeTiming (pin : PinWord) (act : PinAct) : (s.emitNow pin act).edgeTiming = s.edgeTiming := rfl
@[simp] theorem State.emitNow_hostInputs (pin : PinWord) (act : PinAct) : (s.emitNow pin act).hostInputs = s.hostInputs := rfl
@[simp] theorem State.emitNow_delays (pin : PinWord) (act : PinAct) : (s.emitNow pin act).delays = s.delays := rfl
@[simp] theorem State.emitNow_choices (pin : PinWord) (act : PinAct) : (s.emitNow pin act).choices = s.choices := rfl
@[simp] theorem State.emitNow_resets (pin : PinWord) (act : PinAct) : (s.emitNow pin act).resets = s.resets := rfl
@[simp] theorem State.emitNow_accepted (pin : PinWord) (act : PinAct) (k : Nat) : (s.emitNow pin act).accepted k = s.accepted k := rfl
@[simp] theorem State.emitNow_dueInputs (pin : PinWord) (act : PinAct) : (s.emitNow pin act).dueInputs = s.dueInputs := rfl
@[simp] theorem State.emitNow_isOpen (pin : PinWord) (act : PinAct) (k : Nat) : (s.emitNow pin act).isOpen k = s.isOpen k := rfl

/-! ## `State.emit` -/

@[simp] theorem State.emit_ch (pin : PinWord) (act : PinAct) : (s.emit pin act).ch = s.ch := rfl
@[simp] theorem State.emit_phase (pin : PinWord) (act : PinAct) : (s.emit pin act).phase = s.phase := rfl
@[simp] theorem State.emit_tRun0 (pin : PinWord) (act : PinAct) : (s.emit pin act).tRun0 = s.tRun0 := rfl
@[simp] theorem State.emit_served (pin : PinWord) (act : PinAct) : (s.emit pin act).served = s.served := rfl
@[simp] theorem State.emit_overrunCount (pin : PinWord) (act : PinAct) : (s.emit pin act).overrunCount = s.overrunCount := rfl
@[simp] theorem State.emit_frameIndex (pin : PinWord) (act : PinAct) : (s.emit pin act).frameIndex = s.frameIndex := rfl
@[simp] theorem State.emit_stopRequested (pin : PinWord) (act : PinAct) : (s.emit pin act).stopRequested = s.stopRequested := rfl
@[simp] theorem State.emit_sharedPinFault (pin : PinWord) (act : PinAct) : (s.emit pin act).sharedPinFault = s.sharedPinFault := rfl
@[simp] theorem State.emit_snapshot (pin : PinWord) (act : PinAct) : (s.emit pin act).snapshot = s.snapshot := rfl
@[simp] theorem State.emit_conns (pin : PinWord) (act : PinAct) : (s.emit pin act).conns = s.conns := rfl
@[simp] theorem State.emit_pending (pin : PinWord) (act : PinAct) : (s.emit pin act).pending = s.pending := rfl
@[simp] theorem State.emit_batch (pin : PinWord) (act : PinAct) : (s.emit pin act).batch = s.batch := rfl
@[simp] theorem State.emit_conn (pin : PinWord) (act : PinAct) : (s.emit pin act).conn = s.conn := rfl
@[simp] theorem State.emit_responses (pin : PinWord) (act : PinAct) : (s.emit pin act).responses = s.responses := rfl
@[simp] theorem State.emit_records (pin : PinWord) (act : PinAct) : (s.emit pin act).records = s.records := rfl
@[simp] theorem State.emit_regsOk (pin : PinWord) (act : PinAct) : (s.emit pin act).regsOk = s.regsOk := rfl
@[simp] theorem State.emit_timerOk (pin : PinWord) (act : PinAct) : (s.emit pin act).timerOk = s.timerOk := rfl
@[simp] theorem State.emit_endpointOk (pin : PinWord) (act : PinAct) : (s.emit pin act).endpointOk = s.endpointOk := rfl
@[simp] theorem State.emit_edgeTiming (pin : PinWord) (act : PinAct) : (s.emit pin act).edgeTiming = s.edgeTiming := rfl
@[simp] theorem State.emit_hostInputs (pin : PinWord) (act : PinAct) : (s.emit pin act).hostInputs = s.hostInputs := rfl
@[simp] theorem State.emit_choices (pin : PinWord) (act : PinAct) : (s.emit pin act).choices = s.choices := rfl
@[simp] theorem State.emit_resets (pin : PinWord) (act : PinAct) : (s.emit pin act).resets = s.resets := rfl
@[simp] theorem State.emit_accepted (pin : PinWord) (act : PinAct) (k : Nat) : (s.emit pin act).accepted k = s.accepted k := rfl

/-! ## `State.landStop` -/

@[simp] theorem State.landStop_ch : (s.landStop).ch = s.ch := rfl
@[simp] theorem State.landStop_phase : (s.landStop).phase = s.phase := rfl
@[simp] theorem State.landStop_tRun0 : (s.landStop).tRun0 = s.tRun0 := rfl
@[simp] theorem State.landStop_served : (s.landStop).served = s.served := rfl
@[simp] theorem State.landStop_overrunCount : (s.landStop).overrunCount = s.overrunCount := rfl
@[simp] theorem State.landStop_frameIndex : (s.landStop).frameIndex = s.frameIndex := rfl
@[simp] theorem State.landStop_sharedPinFault : (s.landStop).sharedPinFault = s.sharedPinFault := rfl
@[simp] theorem State.landStop_snapshot : (s.landStop).snapshot = s.snapshot := rfl
@[simp] theorem State.landStop_conns : (s.landStop).conns = s.conns := rfl
@[simp] theorem State.landStop_pending : (s.landStop).pending = s.pending := rfl
@[simp] theorem State.landStop_batch : (s.landStop).batch = s.batch := rfl
@[simp] theorem State.landStop_conn : (s.landStop).conn = s.conn := rfl
@[simp] theorem State.landStop_responses : (s.landStop).responses = s.responses := rfl
@[simp] theorem State.landStop_records : (s.landStop).records = s.records := rfl
@[simp] theorem State.landStop_trace : (s.landStop).trace = s.trace := rfl
@[simp] theorem State.landStop_now : (s.landStop).now = s.now := rfl
@[simp] theorem State.landStop_regsOk : (s.landStop).regsOk = s.regsOk := rfl
@[simp] theorem State.landStop_timerOk : (s.landStop).timerOk = s.timerOk := rfl
@[simp] theorem State.landStop_endpointOk : (s.landStop).endpointOk = s.endpointOk := rfl
@[simp] theorem State.landStop_edgeTiming : (s.landStop).edgeTiming = s.edgeTiming := rfl
@[simp] theorem State.landStop_hostInputs : (s.landStop).hostInputs = s.hostInputs := rfl
@[simp] theorem State.landStop_delays : (s.landStop).delays = s.delays := rfl
@[simp] theorem State.landStop_choices : (s.landStop).choices = s.choices := rfl
@[simp] theorem State.landStop_resets : (s.landStop).resets = s.resets := rfl
@[simp] theorem State.landStop_accepted (k : Nat) : (s.landStop).accepted k = s.accepted k := rfl
@[simp] theorem State.landStop_dueInputs : (s.landStop).dueInputs = s.dueInputs := rfl
@[simp] theorem State.landStop_isOpen (k : Nat) : (s.landStop).isOpen k = s.isOpen k := rfl

/-! ## `State.handOver` -/

@[simp] theorem State.handOver_ch (text : List Byte) : (s.handOver text).ch = s.ch := rfl
@[simp] theorem State.handOver_phase (text : List Byte) : (s.handOver text).phase = s.phase := rfl
@[simp] theorem State.handOver_tRun0 (text : List Byte) : (s.handOver text).tRun0 = s.tRun0 := rfl
@[simp] theorem State.handOver_served (text : List Byte) : (s.handOver text).served = s.served := rfl
@[simp] theorem State.handOver_overrunCount (text : List Byte) : (s.handOver text).overrunCount = s.overrunCount := rfl
@[simp] theorem State.handOver_frameIndex (text : List Byte) : (s.handOver text).frameIndex = s.frameIndex := rfl
@[simp] theorem State.handOver_stopRequested (text : List Byte) : (s.handOver text).stopRequested = s.stopRequested := rfl
@[simp] theorem State.handOver_sharedPinFault (text : List Byte) : (s.handOver text).sharedPinFault = s.sharedPinFault := rfl
@[simp] theorem State.handOver_snapshot (text : List Byte) : (s.handOver text).snapshot = s.snapshot := rfl
@[simp] theorem State.handOver_conns (text : List Byte) : (s.handOver text).conns = s.conns := rfl
@[simp] theorem State.handOver_pending (text : List Byte) : (s.handOver text).pending = s.pending := rfl
@[simp] theorem State.handOver_batch (text : List Byte) : (s.handOver text).batch = s.batch := rfl
@[simp] theorem State.handOver_conn (text : List Byte) : (s.handOver text).conn = s.conn := rfl
@[simp] theorem State.handOver_records (text : List Byte) : (s.handOver text).records = s.records := rfl
@[simp] theorem State.handOver_trace (text : List Byte) : (s.handOver text).trace = s.trace := rfl
@[simp] theorem State.handOver_now (text : List Byte) : (s.handOver text).now = s.now := rfl
@[simp] theorem State.handOver_regsOk (text : List Byte) : (s.handOver text).regsOk = s.regsOk := rfl
@[simp] theorem State.handOver_timerOk (text : List Byte) : (s.handOver text).timerOk = s.timerOk := rfl
@[simp] theorem State.handOver_endpointOk (text : List Byte) : (s.handOver text).endpointOk = s.endpointOk := rfl
@[simp] theorem State.handOver_edgeTiming (text : List Byte) : (s.handOver text).edgeTiming = s.edgeTiming := rfl
@[simp] theorem State.handOver_hostInputs (text : List Byte) : (s.handOver text).hostInputs = s.hostInputs := rfl
@[simp] theorem State.handOver_delays (text : List Byte) : (s.handOver text).delays = s.delays := rfl
@[simp] theorem State.handOver_choices (text : List Byte) : (s.handOver text).choices = s.choices := rfl
@[simp] theorem State.handOver_resets (text : List Byte) : (s.handOver text).resets = s.resets := rfl
@[simp] theorem State.handOver_accepted (text : List Byte) (k : Nat) : (s.handOver text).accepted k = s.accepted k := rfl
@[simp] theorem State.handOver_dueInputs (text : List Byte) : (s.handOver text).dueInputs = s.dueInputs := rfl
@[simp] theorem State.handOver_isOpen (text : List Byte) (k : Nat) : (s.handOver text).isOpen k = s.isOpen k := rfl

/-! ## `State.respond` -/

@[simp] theorem State.respond_ch (text : List Byte) : (s.respond text).ch = s.ch := rfl
@[simp] theorem State.respond_phase (text : List Byte) : (s.respond text).phase = s.phase := rfl
@[simp] theorem State.respond_tRun0 (text : List Byte) : (s.respond text).tRun0 = s.tRun0 := rfl
@[simp] theorem State.respond_served (text : List Byte) : (s.respond text).served = s.served := rfl
@[simp] theorem State.respond_overrunCount (text : List Byte) : (s.respond text).overrunCount = s.overrunCount := rfl
@[simp] theorem State.respond_frameIndex (text : List Byte) : (s.respond text).frameIndex = s.frameIndex := rfl
@[simp] theorem State.respond_stopRequested (text : List Byte) : (s.respond text).stopRequested = s.stopRequested := rfl
@[simp] theorem State.respond_sharedPinFault (text : List Byte) : (s.respond text).sharedPinFault = s.sharedPinFault := rfl
@[simp] theorem State.respond_snapshot (text : List Byte) : (s.respond text).snapshot = s.snapshot := rfl
@[simp] theorem State.respond_conns (text : List Byte) : (s.respond text).conns = s.conns := rfl
@[simp] theorem State.respond_pending (text : List Byte) : (s.respond text).pending = s.pending := rfl
@[simp] theorem State.respond_batch (text : List Byte) : (s.respond text).batch = s.batch := rfl
@[simp] theorem State.respond_conn (text : List Byte) : (s.respond text).conn = s.conn := rfl
@[simp] theorem State.respond_records (text : List Byte) : (s.respond text).records = s.records := rfl
@[simp] theorem State.respond_trace (text : List Byte) : (s.respond text).trace = s.trace := rfl
@[simp] theorem State.respond_regsOk (text : List Byte) : (s.respond text).regsOk = s.regsOk := rfl
@[simp] theorem State.respond_timerOk (text : List Byte) : (s.respond text).timerOk = s.timerOk := rfl
@[simp] theorem State.respond_endpointOk (text : List Byte) : (s.respond text).endpointOk = s.endpointOk := rfl
@[simp] theorem State.respond_edgeTiming (text : List Byte) : (s.respond text).edgeTiming = s.edgeTiming := rfl
@[simp] theorem State.respond_hostInputs (text : List Byte) : (s.respond text).hostInputs = s.hostInputs := rfl
@[simp] theorem State.respond_choices (text : List Byte) : (s.respond text).choices = s.choices := rfl
@[simp] theorem State.respond_resets (text : List Byte) : (s.respond text).resets = s.resets := rfl
@[simp] theorem State.respond_accepted (text : List Byte) (k : Nat) : (s.respond text).accepted k = s.accepted k := rfl

/-! ## `State.addRecord` -/

@[simp] theorem State.addRecord_ch (r : ResultRecord) : (s.addRecord r).ch = s.ch := rfl
@[simp] theorem State.addRecord_phase (r : ResultRecord) : (s.addRecord r).phase = s.phase := rfl
@[simp] theorem State.addRecord_tRun0 (r : ResultRecord) : (s.addRecord r).tRun0 = s.tRun0 := rfl
@[simp] theorem State.addRecord_served (r : ResultRecord) : (s.addRecord r).served = s.served := rfl
@[simp] theorem State.addRecord_overrunCount (r : ResultRecord) : (s.addRecord r).overrunCount = s.overrunCount := rfl
@[simp] theorem State.addRecord_frameIndex (r : ResultRecord) : (s.addRecord r).frameIndex = s.frameIndex := rfl
@[simp] theorem State.addRecord_stopRequested (r : ResultRecord) : (s.addRecord r).stopRequested = s.stopRequested := rfl
@[simp] theorem State.addRecord_sharedPinFault (r : ResultRecord) : (s.addRecord r).sharedPinFault = s.sharedPinFault := rfl
@[simp] theorem State.addRecord_snapshot (r : ResultRecord) : (s.addRecord r).snapshot = s.snapshot := rfl
@[simp] theorem State.addRecord_conns (r : ResultRecord) : (s.addRecord r).conns = s.conns := rfl
@[simp] theorem State.addRecord_pending (r : ResultRecord) : (s.addRecord r).pending = s.pending := rfl
@[simp] theorem State.addRecord_batch (r : ResultRecord) : (s.addRecord r).batch = s.batch := rfl
@[simp] theorem State.addRecord_conn (r : ResultRecord) : (s.addRecord r).conn = s.conn := rfl
@[simp] theorem State.addRecord_responses (r : ResultRecord) : (s.addRecord r).responses = s.responses := rfl
@[simp] theorem State.addRecord_trace (r : ResultRecord) : (s.addRecord r).trace = s.trace := rfl
@[simp] theorem State.addRecord_now (r : ResultRecord) : (s.addRecord r).now = s.now := rfl
@[simp] theorem State.addRecord_regsOk (r : ResultRecord) : (s.addRecord r).regsOk = s.regsOk := rfl
@[simp] theorem State.addRecord_timerOk (r : ResultRecord) : (s.addRecord r).timerOk = s.timerOk := rfl
@[simp] theorem State.addRecord_endpointOk (r : ResultRecord) : (s.addRecord r).endpointOk = s.endpointOk := rfl
@[simp] theorem State.addRecord_edgeTiming (r : ResultRecord) : (s.addRecord r).edgeTiming = s.edgeTiming := rfl
@[simp] theorem State.addRecord_hostInputs (r : ResultRecord) : (s.addRecord r).hostInputs = s.hostInputs := rfl
@[simp] theorem State.addRecord_delays (r : ResultRecord) : (s.addRecord r).delays = s.delays := rfl
@[simp] theorem State.addRecord_choices (r : ResultRecord) : (s.addRecord r).choices = s.choices := rfl
@[simp] theorem State.addRecord_resets (r : ResultRecord) : (s.addRecord r).resets = s.resets := rfl
@[simp] theorem State.addRecord_accepted (r : ResultRecord) (k : Nat) : (s.addRecord r).accepted k = s.accepted k := rfl
@[simp] theorem State.addRecord_dueInputs (r : ResultRecord) : (s.addRecord r).dueInputs = s.dueInputs := rfl
@[simp] theorem State.addRecord_isOpen (r : ResultRecord) (k : Nat) : (s.addRecord r).isOpen k = s.isOpen k := rfl

/-! ## `State.succeed` -/

@[simp] theorem State.succeed_ch (text : List Byte) (rc pc : Bool) : (s.succeed text rc pc).ch = s.ch := rfl
@[simp] theorem State.succeed_phase (text : List Byte) (rc pc : Bool) : (s.succeed text rc pc).phase = s.phase := rfl
@[simp] theorem State.succeed_tRun0 (text : List Byte) (rc pc : Bool) : (s.succeed text rc pc).tRun0 = s.tRun0 := rfl
@[simp] theorem State.succeed_served (text : List Byte) (rc pc : Bool) : (s.succeed text rc pc).served = s.served := rfl
@[simp] theorem State.succeed_overrunCount (text : List Byte) (rc pc : Bool) : (s.succeed text rc pc).overrunCount = s.overrunCount := rfl
@[simp] theorem State.succeed_frameIndex (text : List Byte) (rc pc : Bool) : (s.succeed text rc pc).frameIndex = s.frameIndex := rfl
@[simp] theorem State.succeed_stopRequested (text : List Byte) (rc pc : Bool) : (s.succeed text rc pc).stopRequested = s.stopRequested := rfl
@[simp] theorem State.succeed_sharedPinFault (text : List Byte) (rc pc : Bool) : (s.succeed text rc pc).sharedPinFault = s.sharedPinFault := rfl
@[simp] theorem State.succeed_snapshot (text : List Byte) (rc pc : Bool) : (s.succeed text rc pc).snapshot = s.snapshot := rfl
@[simp] theorem State.succeed_conns (text : List Byte) (rc pc : Bool) : (s.succeed text rc pc).conns = s.conns := rfl
@[simp] theorem State.succeed_pending (text : List Byte) (rc pc : Bool) : (s.succeed text rc pc).pending = s.pending := rfl
@[simp] theorem State.succeed_batch (text : List Byte) (rc pc : Bool) : (s.succeed text rc pc).batch = s.batch := rfl
@[simp] theorem State.succeed_conn (text : List Byte) (rc pc : Bool) : (s.succeed text rc pc).conn = s.conn := rfl
@[simp] theorem State.succeed_trace (text : List Byte) (rc pc : Bool) : (s.succeed text rc pc).trace = s.trace := rfl
@[simp] theorem State.succeed_regsOk (text : List Byte) (rc pc : Bool) : (s.succeed text rc pc).regsOk = s.regsOk := rfl
@[simp] theorem State.succeed_timerOk (text : List Byte) (rc pc : Bool) : (s.succeed text rc pc).timerOk = s.timerOk := rfl
@[simp] theorem State.succeed_endpointOk (text : List Byte) (rc pc : Bool) : (s.succeed text rc pc).endpointOk = s.endpointOk := rfl
@[simp] theorem State.succeed_edgeTiming (text : List Byte) (rc pc : Bool) : (s.succeed text rc pc).edgeTiming = s.edgeTiming := rfl
@[simp] theorem State.succeed_hostInputs (text : List Byte) (rc pc : Bool) : (s.succeed text rc pc).hostInputs = s.hostInputs := rfl
@[simp] theorem State.succeed_choices (text : List Byte) (rc pc : Bool) : (s.succeed text rc pc).choices = s.choices := rfl
@[simp] theorem State.succeed_resets (text : List Byte) (rc pc : Bool) : (s.succeed text rc pc).resets = s.resets := rfl
@[simp] theorem State.succeed_accepted (text : List Byte) (rc pc : Bool) (k : Nat) : (s.succeed text rc pc).accepted k = s.accepted k := rfl

/-! ## `State.raiseError` -/

@[simp] theorem State.raiseError_ch (kind : ErrorKind) : (s.raiseError kind).ch = s.ch := rfl
@[simp] theorem State.raiseError_phase (kind : ErrorKind) : (s.raiseError kind).phase = s.phase := rfl
@[simp] theorem State.raiseError_tRun0 (kind : ErrorKind) : (s.raiseError kind).tRun0 = s.tRun0 := rfl
@[simp] theorem State.raiseError_served (kind : ErrorKind) : (s.raiseError kind).served = s.served := rfl
@[simp] theorem State.raiseError_overrunCount (kind : ErrorKind) : (s.raiseError kind).overrunCount = s.overrunCount := rfl
@[simp] theorem State.raiseError_frameIndex (kind : ErrorKind) : (s.raiseError kind).frameIndex = s.frameIndex := rfl
@[simp] theorem State.raiseError_stopRequested (kind : ErrorKind) : (s.raiseError kind).stopRequested = s.stopRequested := rfl
@[simp] theorem State.raiseError_sharedPinFault (kind : ErrorKind) : (s.raiseError kind).sharedPinFault = s.sharedPinFault := rfl
@[simp] theorem State.raiseError_snapshot (kind : ErrorKind) : (s.raiseError kind).snapshot = s.snapshot := rfl
@[simp] theorem State.raiseError_conns (kind : ErrorKind) : (s.raiseError kind).conns = s.conns := rfl
@[simp] theorem State.raiseError_pending (kind : ErrorKind) : (s.raiseError kind).pending = s.pending := rfl
@[simp] theorem State.raiseError_batch (kind : ErrorKind) : (s.raiseError kind).batch = s.batch := rfl
@[simp] theorem State.raiseError_conn (kind : ErrorKind) : (s.raiseError kind).conn = s.conn := rfl
@[simp] theorem State.raiseError_trace (kind : ErrorKind) : (s.raiseError kind).trace = s.trace := rfl
@[simp] theorem State.raiseError_regsOk (kind : ErrorKind) : (s.raiseError kind).regsOk = s.regsOk := rfl
@[simp] theorem State.raiseError_timerOk (kind : ErrorKind) : (s.raiseError kind).timerOk = s.timerOk := rfl
@[simp] theorem State.raiseError_endpointOk (kind : ErrorKind) : (s.raiseError kind).endpointOk = s.endpointOk := rfl
@[simp] theorem State.raiseError_edgeTiming (kind : ErrorKind) : (s.raiseError kind).edgeTiming = s.edgeTiming := rfl
@[simp] theorem State.raiseError_hostInputs (kind : ErrorKind) : (s.raiseError kind).hostInputs = s.hostInputs := rfl
@[simp] theorem State.raiseError_choices (kind : ErrorKind) : (s.raiseError kind).choices = s.choices := rfl
@[simp] theorem State.raiseError_resets (kind : ErrorKind) : (s.raiseError kind).resets = s.resets := rfl
@[simp] theorem State.raiseError_accepted (kind : ErrorKind) (k : Nat) : (s.raiseError kind).accepted k = s.accepted k := rfl

/-! ## `State.sleep` -/

@[simp] theorem State.sleep_ch (d : Nat) : (s.sleep d).ch = s.ch := by unfold State.sleep; rw [State.lateness_ch]; rfl
@[simp] theorem State.sleep_phase (d : Nat) : (s.sleep d).phase = s.phase := by unfold State.sleep; rw [State.lateness_phase]; rfl
@[simp] theorem State.sleep_tRun0 (d : Nat) : (s.sleep d).tRun0 = s.tRun0 := by unfold State.sleep; rw [State.lateness_tRun0]; rfl
@[simp] theorem State.sleep_served (d : Nat) : (s.sleep d).served = s.served := by unfold State.sleep; rw [State.lateness_served]; rfl
@[simp] theorem State.sleep_overrunCount (d : Nat) : (s.sleep d).overrunCount = s.overrunCount := by unfold State.sleep; rw [State.lateness_overrunCount]; rfl
@[simp] theorem State.sleep_frameIndex (d : Nat) : (s.sleep d).frameIndex = s.frameIndex := by unfold State.sleep; rw [State.lateness_frameIndex]; rfl
@[simp] theorem State.sleep_stopRequested (d : Nat) : (s.sleep d).stopRequested = s.stopRequested := by unfold State.sleep; rw [State.lateness_stopRequested]; rfl
@[simp] theorem State.sleep_sharedPinFault (d : Nat) : (s.sleep d).sharedPinFault = s.sharedPinFault := by unfold State.sleep; rw [State.lateness_sharedPinFault]; rfl
@[simp] theorem State.sleep_snapshot (d : Nat) : (s.sleep d).snapshot = s.snapshot := by unfold State.sleep; rw [State.lateness_snapshot]; rfl
@[simp] theorem State.sleep_conns (d : Nat) : (s.sleep d).conns = s.conns := by unfold State.sleep; rw [State.lateness_conns]; rfl
@[simp] theorem State.sleep_pending (d : Nat) : (s.sleep d).pending = s.pending := by unfold State.sleep; rw [State.lateness_pending]; rfl
@[simp] theorem State.sleep_batch (d : Nat) : (s.sleep d).batch = s.batch := by unfold State.sleep; rw [State.lateness_batch]; rfl
@[simp] theorem State.sleep_conn (d : Nat) : (s.sleep d).conn = s.conn := by unfold State.sleep; rw [State.lateness_conn]; rfl
@[simp] theorem State.sleep_responses (d : Nat) : (s.sleep d).responses = s.responses := by unfold State.sleep; rw [State.lateness_responses]; rfl
@[simp] theorem State.sleep_records (d : Nat) : (s.sleep d).records = s.records := by unfold State.sleep; rw [State.lateness_records]; rfl
@[simp] theorem State.sleep_trace (d : Nat) : (s.sleep d).trace = s.trace := by unfold State.sleep; rw [State.lateness_trace]; rfl
@[simp] theorem State.sleep_regsOk (d : Nat) : (s.sleep d).regsOk = s.regsOk := by unfold State.sleep; rw [State.lateness_regsOk]; rfl
@[simp] theorem State.sleep_timerOk (d : Nat) : (s.sleep d).timerOk = s.timerOk := by unfold State.sleep; rw [State.lateness_timerOk]; rfl
@[simp] theorem State.sleep_endpointOk (d : Nat) : (s.sleep d).endpointOk = s.endpointOk := by unfold State.sleep; rw [State.lateness_endpointOk]; rfl
@[simp] theorem State.sleep_edgeTiming (d : Nat) : (s.sleep d).edgeTiming = s.edgeTiming := by unfold State.sleep; rw [State.lateness_edgeTiming]; rfl
@[simp] theorem State.sleep_hostInputs (d : Nat) : (s.sleep d).hostInputs = s.hostInputs := by unfold State.sleep; rw [State.lateness_hostInputs]; rfl
@[simp] theorem State.sleep_choices (d : Nat) : (s.sleep d).choices = s.choices := by unfold State.sleep; rw [State.lateness_choices]; rfl
@[simp] theorem State.sleep_resets (d : Nat) : (s.sleep d).resets = s.resets := by unfold State.sleep; rw [State.lateness_resets]; rfl
@[simp] theorem State.sleep_accepted (d : Nat) (k : Nat) : (s.sleep d).accepted k = s.accepted k := by simp [State.accepted]

/-! ## What the updates write -/

@[simp] theorem State.setCh_ch (c : Fin 8) (v : Channel) : (s.setCh c v).ch = s.ch.set c v := rfl

@[simp] theorem State.setCh_getElem_self (c : Fin 8) (v : Channel) : (s.setCh c v).ch[c] = v := by
  simp [State.setCh]

theorem State.setCh_getElem_ne (c d : Fin 8) (v : Channel) (h : d ≠ c) : (s.setCh c v).ch[d] = s.ch[d] := by
  have : c.val ≠ d.val := fun e => h (Fin.ext e.symm)
  simp [State.setCh, this]

@[simp] theorem State.emitNow_trace (pin : PinWord) (act : PinAct) :
    (s.emitNow pin act).trace = s.trace ++ [⟨s.now, pin.toNat, act⟩] := rfl

@[simp] theorem State.emit_trace (pin : PinWord) (act : PinAct) :
    (s.emit pin act).trace = s.trace ++ [⟨s.passTime.now, pin.toNat, act⟩] := rfl

@[simp] theorem State.emit_now (pin : PinWord) (act : PinAct) : (s.emit pin act).now = s.passTime.now := rfl

@[simp] theorem State.elapse_now (d : Nat) : (s.elapse d).now = s.now + d := rfl

@[simp] theorem State.addRecord_records (r : ResultRecord) :
    (s.addRecord r).records = s.records ++ [(s.conn, r)] := rfl

@[simp] theorem State.landStop_stopRequested :
    s.landStop.stopRequested = (s.stopRequested || s.stopDue) := rfl

@[simp] theorem State.handOver_responses (text : List Byte) :
    (s.handOver text).responses =
      if s.isOpen s.conn then s.responses ++ [(s.conn, text ++ [newline])] else s.responses := rfl

@[simp] theorem State.respond_now (text : List Byte) : (s.respond text).now = s.passTime.now := rfl

@[simp] theorem State.succeed_now (text : List Byte) (rc pc : Bool) : (s.succeed text rc pc).now = s.passTime.now := rfl

@[simp] theorem State.raiseError_now (kind : ErrorKind) : (s.raiseError kind).now = s.passTime.now := rfl

@[simp] theorem State.respond_responses (text : List Byte) :
    (s.respond text).responses =
      if s.passTime.isOpen s.conn then s.responses ++ [(s.conn, text ++ [newline])] else s.responses := rfl

@[simp] theorem State.succeed_records (text : List Byte) (rc pc : Bool) :
    (s.succeed text rc pc).records = s.records ++ [(s.conn, ⟨0, rc, pc⟩)] := rfl

@[simp] theorem State.succeed_responses (text : List Byte) (rc pc : Bool) :
    (s.succeed text rc pc).responses =
      if s.passTime.isOpen s.conn then s.responses ++ [(s.conn, text ++ [newline])] else s.responses := rfl

@[simp] theorem State.raiseError_records (kind : ErrorKind) :
    (s.raiseError kind).records = s.records ++ [(s.conn, ⟨errorCode kind, false, false⟩)] := rfl

@[simp] theorem State.raiseError_responses (kind : ErrorKind) :
    (s.raiseError kind).responses =
      if s.passTime.isOpen s.conn then s.responses ++ [(s.conn, errorText kind ++ [newline])] else s.responses := rfl

end Sys2Proof.Machine
end

