-- ==== Sys2Proof/Laws/Ops.lean ====
section
/-! SUPPORT. The shared operations: what each can do, said once. -/

namespace Sys2Proof.Machine

/-! ## Time -/

theorem State.now_le_passTime (s : State) : s.now ≤ s.passTime.now := Nat.le_add_right _ _

theorem State.now_le_lateness (s : State) : s.now ≤ s.lateness.now := by
  unfold State.lateness
  split
  · exact le_rfl
  · exact s.now_le_passTime

theorem State.now_le_sleep (s : State) (d : Nat) : s.now + d ≤ (s.sleep d).now :=
  (s.elapse d).now_le_lateness

theorem State.lateness_of_exact {s : State} (h : s.edgeTiming = .exact) : s.lateness = s := by
  simp [State.lateness, h]

theorem State.lateness_of_lowerBound {s : State} (h : s.edgeTiming = .lowerBound) : s.lateness = s.passTime := by
  simp [State.lateness, h]

theorem State.passTime_now_of_given {s : State} {d : Nat} {ds : List Nat} (h : s.delays.given = d :: ds) :
    s.passTime.now = s.now + d := by
  simp [State.passTime, Draws.next, h]

/-! ## Stops and connections -/

/-- The host's actions are those due and those that lie in the future. -/
theorem State.dueInputs_append_laterInputs (s : State) : s.dueInputs ++ s.laterInputs = s.hostInputs :=
  List.takeWhile_append_dropWhile

theorem State.le_now_of_mem_dueInputs {s : State} {x : Nat × HostEvent} (h : x ∈ s.dueInputs) : x.1 ≤ s.now := by
  simpa using List.mem_takeWhile_imp h

theorem State.now_lt_of_head_laterInputs {s : State} {x : Nat × HostEvent} (h : s.laterInputs.head? = some x) :
    s.now < x.1 := by
  have := List.head?_dropWhile_not (fun x : Nat × HostEvent => decide (x.1 ≤ s.now)) s.hostInputs
  unfold State.laterInputs at h
  rw [h] at this
  simpa using this

/-- A list whose head part is due and whose rest begins with a later action: that part is what is due. -/
theorem State.dueInputs_of_append {s : State} {due later : List (Nat × HostEvent)} (h : s.hostInputs = due ++ later)
    (hdue : ∀ x ∈ due, x.1 ≤ s.now) (hlater : ∀ x, later.head? = some x → s.now < x.1) : s.dueInputs = due := by
  unfold State.dueInputs
  rw [h, List.takeWhile_append_of_pos (by simpa using hdue)]
  cases later with
  | nil => simp
  | cons x xs =>
    have := hlater x rfl
    rw [List.takeWhile_cons_of_neg (by simpa using this), List.append_nil]

/-- A stop has been asserted when it stands in a part of the host's actions that is due. -/
theorem State.stopDue_iff (s : State) : s.stopDue = true ↔
    ∃ due later, s.hostInputs = due ++ later ∧ (∀ x ∈ due, x.1 ≤ s.now) ∧ ∃ x ∈ due, x.2 = .stop := by
  unfold State.stopDue
  rw [List.any_eq_true]
  constructor
  · rintro ⟨x, hx, he⟩
    exact ⟨s.dueInputs, s.laterInputs, s.dueInputs_append_laterInputs.symm, fun y hy => State.le_now_of_mem_dueInputs hy,
      x, hx, by simpa using he⟩
  · rintro ⟨due, later, h, hdue, x, hx, he⟩
    refine ⟨x, ?_, by simpa using he⟩
    unfold State.dueInputs
    rw [h, List.takeWhile_append_of_pos (by simpa using hdue)]
    exact List.mem_append_left _ hx

/-- Landing a stop twice is landing it once. -/
theorem State.landStop_landStop (s : State) : s.landStop.landStop = s.landStop := by
  change ({ s with stopRequested := (s.stopRequested || s.stopDue) || s.stopDue } : State) = _
  rw [Bool.or_assoc, Bool.or_self]
  rfl

theorem State.landStop_of_stopDue_false {s : State} (h : s.stopDue = false) : s.landStop = s := by
  unfold State.landStop
  rw [h, Bool.or_false]

/-! ## Channels -/

theorem mem_channelIds (c : Fin 8) : c ∈ channelIds := by
  fin_cases c <;> decide

theorem channelIds_pairwise_lt : channelIds.Pairwise (· < ·) := by decide

theorem channelIds_nodup : channelIds.Nodup := by decide

theorem State.setCh_ch_of_ne (s : State) {c d : Fin 8} (v : Channel) (h : d ≠ c) : (s.ch.set c v)[d] = s.ch[d] :=
  s.setCh_getElem_ne c d v h

theorem snapTable_getElem (ch : Vector Channel 8) (c : Fin 8) : (snapTable ch)[c] = ch[c].snap := by
  have h : (c : Nat) < (ch.toList.map Channel.snap).length := by simp
  change (⟨ch.toList.map Channel.snap⟩ : Array SnapEntry)[c] = _
  simp

theorem sharesPin_iff (snap : Vector SnapEntry 8) :
    sharesPin snap = true ↔
      ∃ c d : Fin 8, c ≠ d ∧ snap[c].enabled = true ∧ snap[d].enabled = true ∧ snap[c].pin = snap[d].pin := by
  simp [sharesPin, mem_channelIds, and_assoc]

/-! ## Operands -/

theorem channelOperand_val (c : Fin 8) : channelOperand (c.val : Int) = some c := by
  have h : (0 : Int) ≤ c.val ∧ (c.val : Int) ≤ 7 := by omega
  simp [channelOperand, h]

theorem channelOperand_of_out {c : Int} (h : c < 0 ∨ 7 < c) : channelOperand c = none := by
  have : ¬(0 ≤ c ∧ c ≤ 7) := by omega
  simp [channelOperand, this]

theorem channelOperand_eq_some {c : Int} {i : Fin 8} (h : channelOperand c = some i) : c = i.val := by
  unfold channelOperand at h
  split at h
  · cases h; simp; omega
  · cases h

theorem channelOperand_eq_none {c : Int} (h : channelOperand c = none) : c < 0 ∨ 7 < c := by
  unfold channelOperand at h
  split at h
  · cases h
  · omega

theorem pinOperand_of_legal {p : Int} (h0 : 0 ≤ p) (h1 : p ≤ 27) :
    ∃ q, pinOperand p = some q ∧ q.toNat = p.toNat := by
  refine ⟨BitVec.ofNat 5 p.toNat, by simp [pinOperand, Config.lastPin, h0, h1], ?_⟩
  rw [BitVec.toNat_ofNat]
  omega

theorem pinOperand_of_out {p : Int} (h : p < 0 ∨ 27 < p) : pinOperand p = none := by
  have : ¬(0 ≤ p ∧ p ≤ 27) := by omega
  simp [pinOperand, Config.lastPin, this]

theorem pinOperand_eq_some {p : Int} {q : PinWord} (h : pinOperand p = some q) : q.toNat ≤ 27 := by
  unfold pinOperand Config.lastPin at h
  split at h
  · cases h; rw [BitVec.toNat_ofNat]; omega
  · cases h

theorem pinOperand_eq_none {p : Int} (h : pinOperand p = none) : p < 0 ∨ 27 < p := by
  unfold pinOperand Config.lastPin at h
  split at h
  · cases h
  · omega

theorem channelLegal_iff (c : Int) : channelLegal c = true ↔ 0 ≤ c ∧ c ≤ 7 := by
  simp only [channelLegal, Bool.and_eq_true, decide_eq_true_eq]
  exact Iff.rfl

theorem pinLegal_iff (p : Int) : pinLegal p = true ↔ 0 ≤ p ∧ p ≤ 27 := by
  simp only [pinLegal, Bool.and_eq_true, decide_eq_true_eq]
  exact Iff.rfl

theorem rangeLegal_iff (a b : Int) : rangeLegal a b = true ↔ a < b ∧ max a 500 < min b 2500 := by
  simp only [rangeLegal, Bool.and_eq_true, decide_eq_true_eq]
  exact Iff.rfl

/-- A legal number of microseconds reads back from the field it is stored in (41_range_pulse.md R70). -/
theorem toInt_toField {v : Int} (h0 : 500 ≤ v) (h1 : v ≤ 2500) : (toField v).toInt = v := by
  rw [toField, BitVec.toInt_ofInt]
  exact Int.bmod_eq_of_le (by omega) (by omega)

theorem clamp_of_le {v lo hi : Int} (h : lo ≤ hi) : clamp v lo hi = max lo (min hi v) := by
  unfold clamp; split
  · omega
  · split <;> omega

theorem absoluteClamp_eq (v : Int) : absoluteClamp v = max 500 (min 2500 v) := clamp_of_le (by decide)

theorem raisedMin_eq (a : Int) : raisedMin a = max a 500 := by
  unfold raisedMin Config.absoluteMin; split <;> omega

theorem loweredMax_eq (b : Int) : loweredMax b = min b 2500 := by
  unfold loweredMax Config.absoluteMax; split <;> omega

theorem rangeOperand_of_legal {a b : Int} (h : a < b) (h' : max a 500 < min b 2500) :
    rangeOperand a b = some (max a 500, min b 2500) := by
  rw [rangeOperand, raisedMin_eq, loweredMax_eq, if_neg (by omega), if_neg (by omega)]

theorem rangeOperand_of_degenerate {a b : Int} (h : b ≤ a ∨ b ≤ 500 ∨ 2500 ≤ a) : rangeOperand a b = none := by
  rw [rangeOperand, raisedMin_eq, loweredMax_eq]
  split
  · rfl
  · rw [if_pos (by omega)]

theorem rangeOperand_eq_some {a b lo hi : Int} (h : rangeOperand a b = some (lo, hi)) :
    a < b ∧ lo = max a 500 ∧ hi = min b 2500 ∧ lo < hi := by
  rw [rangeOperand, raisedMin_eq, loweredMax_eq] at h
  split at h
  · cases h
  · split at h
    · cases h
    · cases h; omega

theorem rangeOperand_eq_none {a b : Int} (h : rangeOperand a b = none) : b ≤ a ∨ b ≤ 500 ∨ 2500 ≤ a := by
  by_contra hn
  rw [rangeOperand_of_legal (by omega) (by omega)] at h
  cases h

/-- The pulse a successful `SET RANGE` leaves is the old one moved into the new range (41_range_pulse.md R71, R72). -/
theorem reclampedPulse_eq {old lo hi : Int} (h0 : 500 ≤ lo) (h : lo ≤ hi) (h1 : hi ≤ 2500) :
    reclampedPulse old lo hi = max lo (min hi old) := by
  rw [reclampedPulse, absoluteClamp_eq, clamp_of_le h]; omega

end Sys2Proof.Machine
end

