-- ==== Sys2Proof/Laws/Exec.lean ====
section
/-! SUPPORT. What executing a command can do, said once: `exec_effect` lists every case, and the lemmas after it say what
all of them keep. -/

namespace Sys2Proof.Machine

/-- The slot a successful `SET RANGE` leaves. -/
def rangedChannel (ch : Channel) (lo hi : Int) : Channel :=
  { ch with
    minUs := toField lo
    maxUs := toField hi
    pulseUs := toField (reclampedPulse ch.pulseUs.toInt lo hi) }

/-- Every effect a command can have. -/
inductive Effect (s : State) : State → Prop
  | refused (kind : ErrorKind) : Effect s (s.raiseError kind)
  | setup (c : Fin 8) (q : PinWord) (hq : q.toNat ≤ 27) :
      Effect s ((((s.setCh c (setupChannel q)).emit q .output).emit q .low).succeed okText false false)
  | enabled (c : Fin 8) (h : s.ch[c].configured = true) :
      Effect s ((s.setCh c { s.ch[c] with enabled := true }).succeed okText false false)
  | disabled (c : Fin 8) :
      Effect s (((s.setCh c { s.ch[c] with enabled := false }).forceLow c).succeed okText false false)
  | ranged (c : Fin 8) (lo hi : Int) (h0 : 500 ≤ lo) (h : lo < hi) (h1 : hi ≤ 2500) (rc pc : Bool) :
      Effect s ((s.setCh c (rangedChannel s.ch[c] lo hi)).succeed okText rc pc)
  | pulsed (c : Fin 8) (v : Int) (h : s.ch[c].configured = true) (pc : Bool) :
      Effect s ((s.setCh c { s.ch[c] with pulseUs := toField (clampedPulse s.ch[c] v) }).succeed okText false pc)
  | queried (text : List Byte) : Effect s (s.succeed text false false)

/-- Every command answers a next state, by one of the effects. -/
theorem exec_effect (i : Instr) (s : State) : ∃ t, exec i s = .next t ∧ Effect s t := by
  cases i with
  | setup c p =>
    simp only [exec, execSetup]
    split
    · exact ⟨_, rfl, .refused _⟩
    · split
      · exact ⟨_, rfl, .refused _⟩
      · rename_i q hq
        exact ⟨_, rfl, .setup _ q (pinOperand_eq_some hq)⟩
  | enable c =>
    simp only [exec, execEnable]
    split
    · exact ⟨_, rfl, .refused _⟩
    · split
      · exact ⟨_, rfl, .enabled _ (by assumption)⟩
      · exact ⟨_, rfl, .refused _⟩
  | disable c =>
    simp only [exec, execDisable]
    split
    · exact ⟨_, rfl, .refused _⟩
    · exact ⟨_, rfl, .disabled _⟩
  | setRange c a b =>
    simp only [exec, execSetRange]
    split
    · exact ⟨_, rfl, .refused _⟩
    · split
      · exact ⟨_, rfl, .refused _⟩
      · rename_i lo hi hr
        obtain ⟨h, rfl, rfl, hlt⟩ := rangeOperand_eq_some hr
        exact ⟨_, rfl, .ranged _ _ _ (by omega) hlt (by omega) _ _⟩
  | setPulse c v =>
    simp only [exec, execSetPulse]
    split
    · exact ⟨_, rfl, .refused _⟩
    · split
      · exact ⟨_, rfl, .pulsed _ v (by assumption) _⟩
      · exact ⟨_, rfl, .refused _⟩
  | getRange c =>
    simp only [exec, execGetRange]
    split
    · exact ⟨_, rfl, .refused _⟩
    · exact ⟨_, rfl, .queried _⟩
  | getPulse c =>
    simp only [exec, execGetPulse]
    split
    · exact ⟨_, rfl, .refused _⟩
    · exact ⟨_, rfl, .queried _⟩
  | getState c =>
    simp only [exec, execGetState]
    split
    · exact ⟨_, rfl, .refused _⟩
    · exact ⟨_, rfl, .queried _⟩

theorem Effect.of_exec {i : Instr} {s t : State} (h : exec i s = .next t) : Effect s t := by
  obtain ⟨u, hu, he⟩ := exec_effect i s
  rw [hu] at h
  cases h
  exact he

/-! ## What every effect keeps -/

theorem SequencerKept.rfl' (s : State) : SequencerKept s s := ⟨rfl, rfl, rfl, rfl, rfl, rfl, rfl, rfl⟩

theorem HostSideKept.rfl' (s : State) : HostSideKept s s := ⟨rfl, rfl, rfl, rfl, rfl, rfl, rfl, rfl, rfl, rfl, rfl⟩

/-- `DISABLE` drives the pin of a configured channel low, and does nothing to the pins otherwise. -/
theorem State.forceLow_of_configured {s : State} {c : Fin 8} (h : s.ch[c].configured = true) :
    s.forceLow c = s.emit s.ch[c].pin .low := by
  unfold State.forceLow
  rw [if_pos h]

theorem State.forceLow_of_unconfigured {s : State} {c : Fin 8} (h : s.ch[c].configured = false) : s.forceLow c = s := by
  unfold State.forceLow
  rw [h]
  rfl

theorem State.forceLow_cases (s : State) (c : Fin 8) :
    s.forceLow c = s ∨ (s.ch[c].configured = true ∧ s.forceLow c = s.emit s.ch[c].pin .low) := by
  cases h : s.ch[c].configured
  · exact .inl (State.forceLow_of_unconfigured h)
  · exact .inr ⟨rfl, State.forceLow_of_configured h⟩

theorem Effect.sequencerKept {s t : State} (h : Effect s t) : SequencerKept s t := by
  cases h with
  | disabled c =>
    rcases (s.setCh c { s.ch[c] with enabled := false }).forceLow_cases c with e | ⟨-, e⟩ <;> rw [e] <;>
      exact SequencerKept.rfl' s
  | _ => exact SequencerKept.rfl' s

theorem Effect.hostSideKept {s t : State} (h : Effect s t) : HostSideKept s t := by
  cases h with
  | disabled c =>
    rcases (s.setCh c { s.ch[c] with enabled := false }).forceLow_cases c with e | ⟨-, e⟩ <;> rw [e] <;>
      exact HostSideKept.rfl' s
  | _ => exact HostSideKept.rfl' s

/-! ## Each meaning, case by case -/

theorem exec_channelOut (i : Instr) (s : State) (h : i.channel < 0 ∨ 7 < i.channel) :
    exec i s = .next (s.raiseError .invalidChannel) := by
  cases i <;>
    simp only [exec, execSetup, execEnable, execDisable, execSetRange, execSetPulse, execGetRange, execGetPulse,
      execGetState] <;>
    rw [channelOperand_of_out (by exact h)]

theorem exec_setup_ok (s : State) (c : Fin 8) {p : Int} {q : PinWord} (h : pinOperand p = some q) :
    exec (.setup c.val p) s =
      .next ((((s.setCh c (setupChannel q)).emit q .output).emit q .low).succeed okText false false) := by
  simp only [exec, execSetup, channelOperand_val, h]

theorem exec_setup_badPin (s : State) (c : Fin 8) {p : Int} (h : p < 0 ∨ 27 < p) :
    exec (.setup c.val p) s = .next (s.raiseError .invalidPin) := by
  simp only [exec, execSetup, channelOperand_val, pinOperand_of_out h]

theorem exec_enable_ok {s : State} {c : Fin 8} (h : s.ch[c].configured = true) :
    exec (.enable c.val) s = .next ((s.setCh c { s.ch[c] with enabled := true }).succeed okText false false) := by
  simp only [exec, execEnable, channelOperand_val]
  rw [if_pos h]

theorem exec_enable_unconfigured {s : State} {c : Fin 8} (h : s.ch[c].configured = false) :
    exec (.enable c.val) s = .next (s.raiseError .notConfigured) := by
  simp only [exec, execEnable, channelOperand_val]
  rw [if_neg (by rw [h]; exact Bool.false_ne_true)]

theorem exec_disable_configured {s : State} {c : Fin 8} (h : s.ch[c].configured = true) :
    exec (.disable c.val) s =
      .next (((s.setCh c { s.ch[c] with enabled := false }).emit s.ch[c].pin .low).succeed okText false false) := by
  simp only [exec, execDisable, channelOperand_val]
  rw [State.forceLow_of_configured (by rw [State.setCh_getElem_self]; exact h), State.setCh_getElem_self]

theorem exec_disable_unconfigured {s : State} {c : Fin 8} (h : s.ch[c].configured = false) :
    exec (.disable c.val) s = .next ((s.setCh c { s.ch[c] with enabled := false }).succeed okText false false) := by
  simp only [exec, execDisable, channelOperand_val]
  rw [State.forceLow_of_unconfigured (by rw [State.setCh_getElem_self]; exact h)]

theorem exec_setRange_ok (s : State) (c : Fin 8) {a b lo hi : Int} (h : rangeOperand a b = some (lo, hi)) :
    exec (.setRange c.val a b) s =
      .next ((s.setCh c (rangedChannel s.ch[c] lo hi)).succeed okText (rangeClampedFlag a b lo hi)
        (pulseChangedFlag s.ch[c].pulseUs.toInt (reclampedPulse s.ch[c].pulseUs.toInt lo hi))) := by
  simp only [exec, execSetRange, channelOperand_val, h]
  rfl

theorem exec_setRange_bad (s : State) (c : Fin 8) {a b : Int} (h : b ≤ a ∨ b ≤ 500 ∨ 2500 ≤ a) :
    exec (.setRange c.val a b) s = .next (s.raiseError .invalidRange) := by
  simp only [exec, execSetRange, channelOperand_val, rangeOperand_of_degenerate h]

theorem exec_setPulse_ok {s : State} {c : Fin 8} (v : Int) (h : s.ch[c].configured = true) :
    exec (.setPulse c.val v) s =
      .next ((s.setCh c { s.ch[c] with pulseUs := toField (clampedPulse s.ch[c] v) }).succeed okText false
        (pulseChangedFlag v (clampedPulse s.ch[c] v))) := by
  simp only [exec, execSetPulse, channelOperand_val]
  rw [if_pos h]

theorem exec_setPulse_unconfigured {s : State} {c : Fin 8} (v : Int) (h : s.ch[c].configured = false) :
    exec (.setPulse c.val v) s = .next (s.raiseError .notConfigured) := by
  simp only [exec, execSetPulse, channelOperand_val]
  rw [if_neg (by rw [h]; exact Bool.false_ne_true)]

theorem exec_getRange_ok (s : State) (c : Fin 8) :
    exec (.getRange c.val) s = .next (s.succeed (rangeText s.ch[c]) false false) := by
  simp only [exec, execGetRange, channelOperand_val]

theorem exec_getPulse_ok (s : State) (c : Fin 8) :
    exec (.getPulse c.val) s = .next (s.succeed (pulseText s.ch[c]) false false) := by
  simp only [exec, execGetPulse, channelOperand_val]

theorem exec_getState_ok (s : State) (c : Fin 8) :
    exec (.getState c.val) s = .next (s.succeed (stateText s.ch[c]) false false) := by
  simp only [exec, execGetState, channelOperand_val]

/-- A refusal's whole effect. -/
theorem refusedWith_raiseError (s : State) (kind : ErrorKind) : RefusedWith s (s.raiseError kind) kind :=
  ⟨⟨rfl, rfl⟩, rfl, ⟨rfl, s.now_le_passTime⟩, SequencerKept.rfl' s, HostSideKept.rfl' s⟩

end Sys2Proof.Machine
end

