-- ==== Sys2Proof/Laws/Frame.lean ====
section
/-! SUPPORT. The frame: its order, its edges under `exact` and under `lower_bound`, and what a run of pin events leaves as it
was. -/

namespace Sys2Proof.Machine

/-! ## Runs of pin events -/

/-- Only the pin port and the time differ. -/
def OnlyPins (s t : State) : Prop := t = { s with trace := t.trace, now := t.now, delays := t.delays }

theorem OnlyPins.rfl' (s : State) : OnlyPins s s := rfl

theorem OnlyPins.trans {s t u : State} (h : OnlyPins s t) (h' : OnlyPins t u) : OnlyPins s u := by
  unfold OnlyPins at *
  rw [h', h]

theorem State.onlyPins_passTime (s : State) : OnlyPins s s.passTime := rfl

theorem State.onlyPins_elapse (s : State) (d : Nat) : OnlyPins s (s.elapse d) := rfl

theorem State.onlyPins_emitNow (s : State) (pin : PinWord) (act : PinAct) : OnlyPins s (s.emitNow pin act) := rfl

theorem State.onlyPins_emit (s : State) (pin : PinWord) (act : PinAct) : OnlyPins s (s.emit pin act) := rfl

theorem State.onlyPins_lateness (s : State) : OnlyPins s s.lateness := by
  unfold State.lateness
  split
  · exact OnlyPins.rfl' s
  · exact s.onlyPins_passTime

theorem State.onlyPins_sleep (s : State) (d : Nat) : OnlyPins s (s.sleep d) :=
  (s.onlyPins_elapse d).trans (s.elapse d).onlyPins_lateness

theorem highEdges_onlyPins (snap : Vector SnapEntry 8) (cs : List (Fin 8)) (s : State) :
    OnlyPins s (highEdges snap cs s) := by
  induction cs generalizing s with
  | nil => exact OnlyPins.rfl' s
  | cons c cs ih =>
    unfold highEdges
    split
    · exact (s.onlyPins_lateness.trans (s.lateness.onlyPins_emitNow _ _)).trans (ih _)
    · exact ih s

theorem lowEdges_onlyPins (snap : Vector SnapEntry 8) (cs : List (Fin 8)) (baseline : Int) (s : State) :
    OnlyPins s (lowEdges snap cs baseline s) := by
  induction cs generalizing s baseline with
  | nil => exact OnlyPins.rfl' s
  | cons c cs ih =>
    unfold lowEdges
    split
    · exact ((s.onlyPins_sleep _).trans (State.onlyPins_emitNow _ _ _)).trans (ih _ _)
    · exact ih _ s

theorem risePhase_onlyPins (snap : Vector SnapEntry 8) (s : State) : OnlyPins s (risePhase snap s) := by
  unfold risePhase
  split
  · exact s.onlyPins_lateness
  · exact highEdges_onlyPins _ _ _

/-- The edges of a frame leave everything but the pins, the time, the snapshot, the batch and the phase. -/
theorem frameEdges_eq (snap : Vector SnapEntry 8) (s : State) :
    frameEdges snap s = { s with
      trace := (frameEdges snap s).trace, now := (frameEdges snap s).now, delays := (frameEdges snap s).delays,
      snapshot := none, batch := none, phase := .control } := by
  have h := (risePhase_onlyPins snap s).trans (lowEdges_onlyPins snap (frameOrder snap) 0 (risePhase snap s))
  unfold frameEdges
  rw [h]

/-! ## Events between two times -/

theorem EventsBetween.nil (lo hi : Nat) : EventsBetween lo hi [] := by simp [EventsBetween]

theorem EventsBetween.append {lo mid hi : Nat} {es fs : List PinEvent} (h : EventsBetween lo mid es)
    (h' : EventsBetween mid hi fs) (hl : lo ≤ mid) (hm : mid ≤ hi) : EventsBetween lo hi (es ++ fs) := by
  refine ⟨List.pairwise_append.2 ⟨h.1, h'.1, fun e he f hf => (h.2 e he).2.trans (h'.2 f hf).1⟩, fun e he => ?_⟩
  rcases List.mem_append.1 he with he | he
  · exact ⟨(h.2 e he).1, (h.2 e he).2.trans hm⟩
  · exact ⟨hl.trans (h'.2 e he).1, (h'.2 e he).2⟩

theorem EventsBetween.cons {lo mid hi : Nat} {e : PinEvent} {fs : List PinEvent} (hl : lo ≤ e.time)
    (he : e.time ≤ mid) (h : EventsBetween mid hi fs) (hm : mid ≤ hi) : EventsBetween lo hi (e :: fs) :=
  EventsBetween.append (es := [e]) (by simp [EventsBetween, hl, he]) h (hl.trans he) hm

/-- The high edges: their deeds in order, and their times. -/
theorem highEdges_events (snap : Vector SnapEntry 8) (cs : List (Fin 8)) (s : State) :
    ∃ es, (highEdges snap cs s).trace = s.trace ++ es ∧
      es.map PinEvent.deed = ((cs.filter fun c => snap[c].enabled).map fun c => (snap[c].pin.toNat, PinAct.high)) ∧
      EventsBetween s.now (highEdges snap cs s).now es ∧ s.now ≤ (highEdges snap cs s).now ∧
      (∀ e, es.getLast? = some e → e.time = (highEdges snap cs s).now) := by
  induction cs generalizing s with
  | nil => exact ⟨[], by simp [highEdges, EventsBetween.nil]⟩
  | cons c cs ih =>
    unfold highEdges
    split
    · rename_i hc
      obtain ⟨es, h1, h2, h3, h4, h5⟩ := ih (s.lateness.emitNow snap[c].pin .high)
      refine ⟨⟨s.lateness.now, snap[c].pin.toNat, .high⟩ :: es, ?_, ?_, ?_, ?_, ?_⟩
      · rw [h1]; simp
      · simp only [List.map_cons, h2, List.filter_cons, hc, if_true]; rfl
      · exact EventsBetween.cons s.now_le_lateness le_rfl h3 h4
      · exact s.now_le_lateness.trans h4
      · intro e he
        cases es with
        | nil =>
          have hcs : cs.filter (fun c => snap[c].enabled) = [] := by simpa using h2.symm
          have : highEdges snap cs (s.lateness.emitNow snap[c].pin .high) = s.lateness.emitNow snap[c].pin .high := by
            clear ih h1 h2 h3 h4 h5 he
            generalize s.lateness.emitNow snap[c].pin .high = u
            induction cs with
            | nil => rfl
            | cons d ds ihd =>
              rw [List.filter_cons] at hcs
              split at hcs
              · cases hcs
              · rename_i hd
                unfold highEdges
                rw [if_neg hd]
                exact ihd hcs
          rw [this]
          simp at he
          rw [← he]
          rfl
        | cons f fs => exact h5 e (by simpa using he)
    · rename_i hc
      simpa [-Fin.getElem_fin, List.filter_cons, hc] using ih s

/-- The low edges: their deeds in order, and their times. -/
theorem lowEdges_events (snap : Vector SnapEntry 8) (cs : List (Fin 8)) (baseline : Int) (s : State) :
    ∃ es, (lowEdges snap cs baseline s).trace = s.trace ++ es ∧
      es.map PinEvent.deed = ((cs.filter fun c => snap[c].enabled).map fun c => (snap[c].pin.toNat, PinAct.low)) ∧
      EventsBetween s.now (lowEdges snap cs baseline s).now es ∧ s.now ≤ (lowEdges snap cs baseline s).now := by
  induction cs generalizing s baseline with
  | nil => exact ⟨[], by simp [lowEdges, EventsBetween.nil]⟩
  | cons c cs ih =>
    unfold lowEdges
    split
    · rename_i hc
      obtain ⟨es, h1, h2, h3, h4⟩ := ih snap[c].pulseUs.toInt
        ((s.sleep (snap[c].pulseUs.toInt - baseline).toNat).emitNow snap[c].pin .low)
      have hs : s.now ≤ (s.sleep (snap[c].pulseUs.toInt - baseline).toNat).now :=
        (Nat.le_add_right _ _).trans (s.now_le_sleep _)
      refine ⟨⟨(s.sleep (snap[c].pulseUs.toInt - baseline).toNat).now, snap[c].pin.toNat, .low⟩ :: es, ?_, ?_, ?_, ?_⟩
      · rw [h1]; simp
      · simp only [List.map_cons, h2, List.filter_cons, hc, if_true]; rfl
      · exact EventsBetween.cons hs le_rfl h3 h4
      · exact hs.trans h4
    · rename_i hc
      simpa [-Fin.getElem_fin, List.filter_cons, hc] using ih baseline s

/-! ## The order -/

theorem insertByPulse_perm (snap : Vector SnapEntry 8) (c : Fin 8) (cs : List (Fin 8)) :
    (insertByPulse snap c cs).Perm (c :: cs) := by
  induction cs with
  | nil => exact List.Perm.refl _
  | cons d ds ih =>
    unfold insertByPulse
    split
    · exact List.Perm.refl _
    · exact (ih.cons d).trans (List.Perm.swap c d ds)

theorem sortByPulse_perm (snap : Vector SnapEntry 8) (cs : List (Fin 8)) : (sortByPulse snap cs).Perm cs := by
  induction cs with
  | nil => exact List.Perm.refl _
  | cons c cs ih => exact (insertByPulse_perm snap c _).trans (ih.cons c)

/-- `c` belongs before `d` in the frame's order (45_frame_scheduler.md R85). -/
def Precedes (snap : Vector SnapEntry 8) (c d : Fin 8) : Prop :=
  snap[c].pulseUs.toInt < snap[d].pulseUs.toInt ∨ (snap[c].pulseUs.toInt = snap[d].pulseUs.toInt ∧ c < d)

theorem insertByPulse_pairwise (snap : Vector SnapEntry 8) (c : Fin 8) (cs : List (Fin 8))
    (h : cs.Pairwise (Precedes snap)) (hc : ∀ d ∈ cs, c < d) : (insertByPulse snap c cs).Pairwise (Precedes snap) := by
  induction cs with
  | nil => simp [insertByPulse]
  | cons d ds ih =>
    have hd := List.pairwise_cons.1 h
    unfold insertByPulse
    split
    · rename_i hle
      refine List.pairwise_cons.2 ⟨fun e he => ?_, h⟩
      have hce := hc e he
      rcases List.mem_cons.1 he with rfl | he'
      · unfold Precedes; omega
      · have := hd.1 e he'
        unfold Precedes at this ⊢; omega
    · rename_i hgt
      refine List.pairwise_cons.2 ⟨fun e he => ?_, ih hd.2 fun e he => hc e (List.mem_cons_of_mem _ he)⟩
      rcases List.mem_cons.1 ((insertByPulse_perm snap c ds).mem_iff.1 he) with rfl | he'
      · unfold Precedes; omega
      · exact hd.1 e he'

theorem sortByPulse_pairwise (snap : Vector SnapEntry 8) (cs : List (Fin 8)) (h : cs.Pairwise (· < ·)) :
    (sortByPulse snap cs).Pairwise (Precedes snap) := by
  induction cs with
  | nil => simp [sortByPulse]
  | cons c cs ih =>
    have hc := List.pairwise_cons.1 h
    exact insertByPulse_pairwise snap c _ (ih hc.2) fun d hd => hc.1 d ((sortByPulse_perm snap cs).mem_iff.1 hd)

theorem enabledOrder_perm (snap : Vector SnapEntry 8) : (enabledOrder snap).Perm (enabledIds snap) :=
  (sortByPulse_perm snap channelIds).filter _

theorem mem_enabledIds (snap : Vector SnapEntry 8) (c : Fin 8) : c ∈ enabledIds snap ↔ snap[c].enabled = true := by
  simp [enabledIds, mem_channelIds]

theorem mem_enabledOrder (snap : Vector SnapEntry 8) (c : Fin 8) : c ∈ enabledOrder snap ↔ snap[c].enabled = true :=
  (enabledOrder_perm snap).mem_iff.trans (mem_enabledIds snap c)

/-! ## Edges under `exact` -/

/-- Under `exact` the high edges are all at the present time. -/
theorem highEdges_exact (snap : Vector SnapEntry 8) (cs : List (Fin 8)) {s : State} (h : s.edgeTiming = .exact) :
    highEdges snap cs s = { s with
      trace := s.trace ++ ((cs.filter fun c => snap[c].enabled).map fun c => ⟨s.now, snap[c].pin.toNat, .high⟩) } := by
  induction cs generalizing s with
  | nil => simp [highEdges]
  | cons c cs ih =>
    unfold highEdges
    rw [State.lateness_of_exact h]
    split
    · rename_i hc
      rw [ih (by simpa using h)]
      simp [-Fin.getElem_fin, hc, State.emitNow]
    · rename_i hc
      rw [ih h]
      simp [-Fin.getElem_fin, hc]

theorem risePhase_exact (snap : Vector SnapEntry 8) {s : State} (h : s.edgeTiming = .exact) :
    risePhase snap s = { s with
      trace := s.trace ++ ((enabledIds snap).map fun c => ⟨s.now, snap[c].pin.toNat, .high⟩) } := by
  unfold risePhase
  split
  · rename_i hn
    have : enabledIds snap = [] := by
      simp only [noneEnabled, List.all_eq_true, Bool.not_eq_true'] at hn
      simpa [enabledIds, List.filter_eq_nil_iff] using hn
    rw [State.lateness_of_exact h, this]
    simp
  · exact highEdges_exact snap channelIds h

/-- A row of channel ids sorted by pulse, none of the enabled ones below a baseline. -/
structure AboveBaseline (snap : Vector SnapEntry 8) (baseline : Int) (cs : List (Fin 8)) : Prop where
  nonneg : 0 ≤ baseline
  sorted : cs.Pairwise fun c d => snap[c].pulseUs.toInt ≤ snap[d].pulseUs.toInt
  above : ∀ c ∈ cs, snap[c].enabled = true → baseline ≤ snap[c].pulseUs.toInt

theorem AboveBaseline.skip {snap : Vector SnapEntry 8} {baseline : Int} {c : Fin 8} {cs : List (Fin 8)}
    (h : AboveBaseline snap baseline (c :: cs)) : AboveBaseline snap baseline cs :=
  ⟨h.nonneg, (List.pairwise_cons.1 h.sorted).2, fun d hd => h.above d (List.mem_cons_of_mem _ hd)⟩

theorem AboveBaseline.next {snap : Vector SnapEntry 8} {baseline : Int} {c : Fin 8} {cs : List (Fin 8)}
    (h : AboveBaseline snap baseline (c :: cs)) (hc : snap[c].enabled = true) :
    AboveBaseline snap snap[c].pulseUs.toInt cs :=
  ⟨h.nonneg.trans (h.above c List.mem_cons_self hc), (List.pairwise_cons.1 h.sorted).2,
    fun d hd _ => (List.pairwise_cons.1 h.sorted).1 d hd⟩

/-- From the head of such a row on, widths do not fall. -/
theorem AboveBaseline.width_le {snap : Vector SnapEntry 8} {baseline : Int} {c d : Fin 8} {cs : List (Fin 8)}
    (h : AboveBaseline snap baseline (c :: cs)) (hc : snap[c].enabled = true) (hd : d ∈ cs) :
    baseline.toNat ≤ width snap c ∧ width snap c ≤ width snap d ∧
      (snap[c].pulseUs.toInt - baseline).toNat = width snap c - baseline.toNat := by
  have h0 := h.nonneg
  have h1 := h.above c List.mem_cons_self hc
  have h2 := (List.pairwise_cons.1 h.sorted).1 d hd
  unfold width
  omega

theorem AboveBaseline.head {snap : Vector SnapEntry 8} {baseline : Int} {c : Fin 8} {cs : List (Fin 8)}
    (h : AboveBaseline snap baseline (c :: cs)) (hc : snap[c].enabled = true) :
    baseline.toNat ≤ width snap c ∧ (snap[c].pulseUs.toInt - baseline).toNat = width snap c - baseline.toNat := by
  have h0 := h.nonneg
  have h1 := h.above c List.mem_cons_self hc
  unfold width
  omega

/-- The frame's order is such a row from baseline 0 when the snapshot is legal. -/
theorem frameOrder_aboveBaseline {snap : Vector SnapEntry 8} (h : SnapLegal snap) :
    AboveBaseline snap 0 (frameOrder snap) where
  nonneg := le_rfl
  sorted := (sortByPulse_pairwise snap channelIds channelIds_pairwise_lt).imp fun hp => by
    unfold Precedes at hp; omega
  above := fun c _ hc => by have := h c hc; omega

theorem foldl_max_add (a : Nat) (l : List Nat) (b : Nat) : (l.map (a + ·)).foldl max (a + b) = a + l.foldl max b := by
  induction l generalizing b with
  | nil => rfl
  | cons x xs ih => simp only [List.map_cons, List.foldl_cons]; rw [← ih, Nat.add_max_add_left]

/-- Under `exact` the low edges come at their widths above the baseline, and the last one ends the row. -/
theorem lowEdges_exact (snap : Vector SnapEntry 8) (cs : List (Fin 8)) (baseline : Int) {s : State}
    (h : s.edgeTiming = .exact) (hrow : AboveBaseline snap baseline cs) :
    (lowEdges snap cs baseline s).trace = s.trace ++ ((cs.filter fun c => snap[c].enabled).map fun c =>
        ⟨s.now + (width snap c - baseline.toNat), snap[c].pin.toNat, .low⟩) ∧
      (lowEdges snap cs baseline s).now =
        s.now + ((cs.filter fun c => snap[c].enabled).map fun c => width snap c - baseline.toNat).foldl max 0 := by
  induction cs generalizing s baseline with
  | nil => simp [lowEdges]
  | cons c cs ih =>
    unfold lowEdges
    split
    · rename_i hc
      have hs : s.sleep (snap[c].pulseUs.toInt - baseline).toNat = s.elapse (width snap c - baseline.toNat) := by
        rw [State.sleep, State.lateness_of_exact (by simpa using h), (hrow.head hc).2]
      have hw : ∀ d ∈ cs.filter (fun c => snap[c].enabled),
          width snap d - baseline.toNat = (width snap c - baseline.toNat) + (width snap d - width snap c) := by
        intro d hd
        have := hrow.width_le hc (List.mem_filter.1 hd).1
        omega
      have hbase : snap[c].pulseUs.toInt.toNat = width snap c := rfl
      obtain ⟨i1, i2⟩ := ih snap[c].pulseUs.toInt
        (s := (s.elapse (width snap c - baseline.toNat)).emitNow snap[c].pin .low) (by simpa using h) (hrow.next hc)
      rw [hs, i1, i2, hbase, List.filter_cons_of_pos (p := fun d : Fin 8 => snap[d].enabled) hc]
      constructor
      · rw [List.map_cons, State.emitNow_trace, List.append_assoc]
        simp only [List.singleton_append, State.emitNow_now, State.elapse_now, State.elapse_trace]
        congr 2
        exact List.map_congr_left fun d hd => by rw [hw d hd, Nat.add_assoc]
      · have hmax := foldl_max_add (width snap c - baseline.toNat)
          ((cs.filter fun c => snap[c].enabled).map fun d => width snap d - width snap c) 0
        rw [List.map_map] at hmax
        rw [List.map_cons, List.map_congr_left hw, List.foldl_cons, Nat.zero_max]
        simp only [State.emitNow_now, State.elapse_now, Nat.add_assoc]
        exact congrArg (s.now + ·) hmax.symm
    · rename_i hc
      rw [List.filter_cons_of_neg (p := fun d : Fin 8 => snap[d].enabled) hc]
      exact ih _ h hrow.skip

/-! ## Edges under `lower_bound` -/

/-- Under either edge timing no LOW comes before the sleeps that lead to it. -/
theorem lowEdges_notEarly (snap : Vector SnapEntry 8) (cs : List (Fin 8)) (baseline : Int) (s : State)
    (hrow : AboveBaseline snap baseline cs) :
    ∃ es, (lowEdges snap cs baseline s).trace = s.trace ++ es ∧
      List.Forall₂ (fun c e => s.now + (width snap c - baseline.toNat) ≤ e.time)
        (cs.filter fun c => snap[c].enabled) es ∧
      ((cs.filter fun c => snap[c].enabled).zip es).Pairwise
        (fun x y => x.2.time + width snap y.1 ≤ y.2.time + width snap x.1) := by
  induction cs generalizing s baseline with
  | nil => exact ⟨[], by simp [lowEdges]⟩
  | cons c cs ih =>
    unfold lowEdges
    split
    · rename_i hc
      have hhead := hrow.head hc
      obtain ⟨es, h1, h2, h3⟩ := ih snap[c].pulseUs.toInt
        ((s.sleep (snap[c].pulseUs.toInt - baseline).toNat).emitNow snap[c].pin .low) (hrow.next hc)
      have hs := s.now_le_sleep (snap[c].pulseUs.toInt - baseline).toNat
      rw [hhead.2] at hs
      refine ⟨⟨(s.sleep (snap[c].pulseUs.toInt - baseline).toNat).now, snap[c].pin.toNat, .low⟩ :: es, ?_, ?_, ?_⟩
      · rw [h1]; simp
      · rw [List.filter_cons_of_pos (p := fun d : Fin 8 => snap[d].enabled) hc, hhead.2]
        rw [hhead.2] at h2
        refine .cons hs ?_
        rw [List.forall₂_iff_get] at h2 ⊢
        refine ⟨h2.1, fun i hi hi' => ?_⟩
        have hi2 := h2.2 i hi hi'
        have hm := List.get_mem (cs.filter fun c => snap[c].enabled) ⟨i, hi⟩
        have hw := hrow.width_le hc (List.mem_filter.1 hm).1
        have hbase : snap[c].pulseUs.toInt.toNat = width snap c := rfl
        simp only [State.emitNow_now, hbase] at hi2
        omega
      · rw [List.filter_cons_of_pos (p := fun d : Fin 8 => snap[d].enabled) hc, List.zip_cons_cons]
        refine List.pairwise_cons.2 ⟨fun y hy => ?_, h3⟩
        obtain ⟨d, e⟩ := y
        obtain ⟨i, hi, hget⟩ := List.getElem_of_mem hy
        rw [List.getElem_zip] at hget
        cases hget
        have hi' : i < (cs.filter fun c => snap[c].enabled).length := by rw [List.length_zip] at hi; omega
        have hi2 := (List.forall₂_iff_get.1 h2).2 i hi' (by rw [List.length_zip] at hi; omega)
        have hm := List.get_mem (cs.filter fun c => snap[c].enabled) ⟨i, hi'⟩
        have hw := hrow.width_le hc (List.mem_filter.1 hm).1
        have hbase : snap[c].pulseUs.toInt.toNat = width snap c := rfl
        simp only [State.emitNow_now, hbase, List.get_eq_getElem] at hi2 hw
        simp only
        omega
    · rename_i hc
      obtain ⟨es, h1, h2, h3⟩ := ih baseline s hrow.skip
      exact ⟨es, h1, by rw [List.filter_cons_of_neg (p := fun d : Fin 8 => snap[d].enabled) hc]; exact h2, by rw [List.filter_cons_of_neg (p := fun d : Fin 8 => snap[d].enabled) hc]; exact h3⟩

end Sys2Proof.Machine
end

