-- ==== Sys2Proof/Laws/Loop.lean ====
section
/-! SUPPORT. The host's inputs, the control phase, the top of the loop and the shutdown: what each can do, said once. -/

namespace Sys2Proof.Machine

/-! ## The host's inputs -/

/-- Only the connections, the stop request and the host's remaining inputs differ. -/
def OnlyHost (s t : State) : Prop :=
  t = { s with
    conns := t.conns, pending := t.pending, stopRequested := t.stopRequested, hostInputs := t.hostInputs }

theorem OnlyHost.get {α : Type} {s t : State} (h : OnlyHost s t) (f : State → α) :
    f t = f { s with
      conns := t.conns, pending := t.pending, stopRequested := t.stopRequested, hostInputs := t.hostInputs } :=
  congrArg f h

theorem OnlyHost.rfl' (s : State) : OnlyHost s s := rfl

theorem OnlyHost.trans {s t u : State} (h : OnlyHost s t) (h' : OnlyHost t u) : OnlyHost s u := by
  unfold OnlyHost at *
  rw [h', h]

theorem State.onlyHost_hostAct (s : State) (e : HostEvent) : OnlyHost s (s.hostAct e) := by
  cases e with
  | connect k => unfold State.hostAct; simp only; split <;> rfl
  | _ => rfl

theorem State.onlyHost_deliverFrom (s : State) (inputs : List (Nat × HostEvent)) : OnlyHost s (s.deliverFrom inputs) := by
  induction inputs generalizing s with
  | nil => rfl
  | cons x xs ih =>
    unfold State.deliverFrom
    split
    · exact (s.onlyHost_hostAct _).trans (ih _)
    · rfl

theorem State.onlyHost_deliver (s : State) : OnlyHost s s.deliver := s.onlyHost_deliverFrom _

@[simp] theorem State.deliver_ch (s : State) : s.deliver.ch = s.ch := s.onlyHost_deliver.get State.ch
@[simp] theorem State.deliver_phase (s : State) : s.deliver.phase = s.phase := s.onlyHost_deliver.get State.phase
@[simp] theorem State.deliver_tRun0 (s : State) : s.deliver.tRun0 = s.tRun0 := s.onlyHost_deliver.get State.tRun0
@[simp] theorem State.deliver_served (s : State) : s.deliver.served = s.served :=
  s.onlyHost_deliver.get State.served
@[simp] theorem State.deliver_overrunCount (s : State) : s.deliver.overrunCount = s.overrunCount :=
  s.onlyHost_deliver.get State.overrunCount
@[simp] theorem State.deliver_frameIndex (s : State) : s.deliver.frameIndex = s.frameIndex :=
  s.onlyHost_deliver.get State.frameIndex
@[simp] theorem State.deliver_sharedPinFault (s : State) : s.deliver.sharedPinFault = s.sharedPinFault :=
  s.onlyHost_deliver.get State.sharedPinFault
@[simp] theorem State.deliver_snapshot (s : State) : s.deliver.snapshot = s.snapshot :=
  s.onlyHost_deliver.get State.snapshot
@[simp] theorem State.deliver_batch (s : State) : s.deliver.batch = s.batch := s.onlyHost_deliver.get State.batch
@[simp] theorem State.deliver_conn (s : State) : s.deliver.conn = s.conn := s.onlyHost_deliver.get State.conn
@[simp] theorem State.deliver_responses (s : State) : s.deliver.responses = s.responses :=
  s.onlyHost_deliver.get State.responses
@[simp] theorem State.deliver_records (s : State) : s.deliver.records = s.records :=
  s.onlyHost_deliver.get State.records
@[simp] theorem State.deliver_trace (s : State) : s.deliver.trace = s.trace := s.onlyHost_deliver.get State.trace
@[simp] theorem State.deliver_now (s : State) : s.deliver.now = s.now := s.onlyHost_deliver.get State.now
@[simp] theorem State.deliver_regsOk (s : State) : s.deliver.regsOk = s.regsOk := s.onlyHost_deliver.get State.regsOk
@[simp] theorem State.deliver_timerOk (s : State) : s.deliver.timerOk = s.timerOk :=
  s.onlyHost_deliver.get State.timerOk
@[simp] theorem State.deliver_endpointOk (s : State) : s.deliver.endpointOk = s.endpointOk :=
  s.onlyHost_deliver.get State.endpointOk
@[simp] theorem State.deliver_edgeTiming (s : State) : s.deliver.edgeTiming = s.edgeTiming :=
  s.onlyHost_deliver.get State.edgeTiming
@[simp] theorem State.deliver_delays (s : State) : s.deliver.delays = s.delays :=
  s.onlyHost_deliver.get State.delays
@[simp] theorem State.deliver_choices (s : State) : s.deliver.choices = s.choices :=
  s.onlyHost_deliver.get State.choices
@[simp] theorem State.deliver_resets (s : State) : s.deliver.resets = s.resets :=
  s.onlyHost_deliver.get State.resets

/-- What the host's inputs leave of themselves begins with an action that lies in the future. -/
theorem State.deliverFrom_head (s : State) (inputs : List (Nat × HostEvent)) {x : Nat × HostEvent}
    (h : (s.deliverFrom inputs).hostInputs.head? = some x) : s.now < x.1 := by
  induction inputs generalizing s with
  | nil => cases h
  | cons y ys ih =>
    unfold State.deliverFrom at h
    split at h
    · have := ih _ h
      rwa [(s.onlyHost_hostAct y.2).get State.now] at this
    · cases h
      omega

theorem State.deliver_stopDue (s : State) : s.deliver.stopDue = false := by
  unfold State.stopDue
  have : s.deliver.dueInputs = [] := by
    unfold State.dueInputs
    rw [s.deliver_now]
    cases h : s.deliver.hostInputs with
    | nil => rfl
    | cons x xs =>
      have := s.deliverFrom_head s.hostInputs (x := x) (by change s.deliver.hostInputs.head? = _; rw [h]; rfl)
      rw [List.takeWhile_cons_of_neg (by simpa using this)]
  rw [this]
  rfl

/-- The actions due come first, the later ones stay. -/
theorem State.deliverFrom_append (s : State) (due later : List (Nat × HostEvent)) (hdue : ∀ x ∈ due, x.1 ≤ s.now)
    (hlater : ∀ x, later.head? = some x → s.now < x.1) :
    s.deliverFrom (due ++ later) = { due.foldl (fun u x => u.hostAct x.2) s with hostInputs := later } := by
  induction due generalizing s with
  | nil =>
    cases later with
    | nil => rfl
    | cons x xs =>
      have := hlater x rfl
      simp only [List.nil_append, State.deliverFrom]
      rw [if_neg (by omega)]
      rfl
  | cons x xs ih =>
    have hn : (s.hostAct x.2).now = s.now := (s.onlyHost_hostAct x.2).get State.now
    simp only [List.cons_append, State.deliverFrom]
    rw [if_pos (hdue x List.mem_cons_self)]
    exact ih _ (fun y hy => by rw [hn]; exact hdue y (List.mem_cons_of_mem _ hy)) fun y hy => by rw [hn]; exact hlater y hy

theorem State.deliver_eq (s : State) :
    s.deliver = { s.dueInputs.foldl (fun u x => u.hostAct x.2) s with hostInputs := s.laterInputs } := by
  conv_lhs => rw [State.deliver, ← s.dueInputs_append_laterInputs]
  exact s.deliverFrom_append _ _ (fun x hx => State.le_now_of_mem_dueInputs hx)
    fun x hx => State.now_lt_of_head_laterInputs hx

/-- The host's inputs set the stop request exactly when a stop is among those due. -/
theorem State.foldl_hostAct_stop (due : List (Nat × HostEvent)) (s : State) :
    (due.foldl (fun u x => u.hostAct x.2) s).stopRequested =
      (s.stopRequested || due.any fun x => x.2 == .stop) := by
  induction due generalizing s with
  | nil => simp
  | cons x xs ih =>
    rw [List.foldl_cons, ih, List.any_cons, ← Bool.or_assoc]
    congr 1
    obtain ⟨t, e⟩ := x
    cases e with
    | connect k => unfold State.hostAct; simp only; split <;> simp
    | _ => simp [State.hostAct]

theorem State.deliver_stopRequested (s : State) : s.deliver.stopRequested = (s.stopRequested || s.stopDue) := by
  rw [s.deliver_eq]
  exact State.foldl_hostAct_stop _ _

/-! ## Connection ids -/

theorem map_id_receive (k : Nat) (data : List Byte) (cs : List Conn) :
    (cs.map (receive k data)).map Conn.id = cs.map Conn.id := by
  rw [List.map_map]
  refine List.map_congr_left fun c _ => ?_
  simp only [Function.comp_apply, receive]
  split <;> rfl

theorem State.hostAct_connsDistinct {s : State} (h : s.ConnsDistinct) (e : HostEvent) : (s.hostAct e).ConnsDistinct := by
  unfold State.ConnsDistinct at *
  cases e with
  | connect k =>
    unfold State.hostAct
    simp only
    split
    · exact h
    · rename_i hk
      simp only [State.known, State.accepted, Bool.not_eq_true, Bool.or_eq_false_iff, List.any_eq_false,
        beq_iff_eq] at hk
      simp only [← List.append_assoc]
      rw [List.map_append, List.nodup_append]
      refine ⟨h, by simp, fun a ha b hb => ?_⟩
      rw [List.map_append, List.mem_append] at ha
      simp only [List.map_cons, List.map_nil, List.mem_singleton] at hb
      subst hb
      rcases ha with ha | ha <;> obtain ⟨c, hc, rfl⟩ := List.mem_map.1 ha
      · exact hk.1 c hc
      · exact hk.2 c hc
  | bytes k data =>
    simp only [State.hostAct, ← List.map_append, map_id_receive]
    exact h
  | disconnect k =>
    simp only [State.hostAct, ← List.filter_append]
    exact h.sublist (List.filter_sublist.map _)
  | stop => exact h

theorem State.deliverFrom_connsDistinct {s : State} (h : s.ConnsDistinct) (inputs : List (Nat × HostEvent)) :
    (s.deliverFrom inputs).ConnsDistinct := by
  induction inputs generalizing s with
  | nil => exact h
  | cons x xs ih =>
    unfold State.deliverFrom
    split
    · exact ih (State.hostAct_connsDistinct h _)
    · exact h

theorem State.deliver_connsDistinct {s : State} (h : s.ConnsDistinct) : s.deliver.ConnsDistinct :=
  State.deliverFrom_connsDistinct h _

/-! ## Top of the loop -/

theorem loopTop_eq (s : State) :
    loopTop s = { s.landStop with phase := if s.landStop.stopRequested then .shutdown else .wait } := by
  unfold loopTop
  split <;> rfl

/-! ## The poll -/

/-- The connections open for a poll: at most one pending connection is accepted. -/
theorem poll_eq (s : State) :
    poll s = { s.deliver with
      pending := s.deliver.pending.drop 1
      batch := some ((s.deliver.conns ++ s.deliver.pending.take 1).map fun c => (c.id, (splitLines c.buffer).1))
      conns := (s.deliver.conns ++ s.deliver.pending.take 1).map fun c =>
        { c with buffer := (splitLines c.buffer).2 } } := by
  unfold poll acceptOne takeLines
  generalize s.deliver = s
  cases h : s.pending with
  | nil => simp [h]
  | cons c cs => simp

/-! ## Fetching a line -/

/-- Only the taken line, its connection and the draw that chose it differ. -/
def LineTaken (s t : State) : Prop := t = { s with batch := t.batch, conn := t.conn, choices := t.choices }

theorem fetchLine_line {s s' : State} {batch : List (Nat × List Line)} {content : Line}
    (h : fetchLine s batch = .line content s') :
    LineTaken s s' ∧ ∃ (i k : Nat) (rest : List Line), (live batch)[i]? = some (k, content :: rest) ∧
      s'.conn = k ∧ s'.batch = some ((live batch).set i (k, rest)) := by
  unfold fetchLine at h
  split at h
  · rename_i k c rest hget
    cases h
    exact ⟨rfl, _, _, _, hget, rfl, rfl⟩
  · cases h

theorem fetchLine_not_unpolled {s : State} {batch : List (Nat × List Line)} : fetchLine s batch ≠ .unpolled := by
  unfold fetchLine
  split <;> simp

theorem live_nonempty {batch : List (Nat × List Line)} {q : Nat × List Line} (h : q ∈ live batch) : q.2 ≠ [] := by
  simpa [live] using (List.mem_filter.1 h).2

/-- With lines left a line is taken, whatever the choice. -/
theorem fetchLine_of_live {s : State} {batch : List (Nat × List Line)} (h : live batch ≠ []) :
    ∃ content s', fetchLine s batch = .line content s' := by
  have hlt : (chooseIndex (live batch).length s.choices).1 < (live batch).length := by
    have hpos := List.length_pos_of_ne_nil h
    unfold chooseIndex
    split
    · exact hpos
    · exact Nat.mod_lt _ hpos
  unfold fetchLine
  rw [List.getElem?_eq_getElem hlt]
  have hne := live_nonempty (List.getElem_mem hlt)
  generalize (live batch)[(chooseIndex (live batch).length s.choices).1] = q at hne ⊢
  obtain ⟨k, ls⟩ := q
  cases ls with
  | nil => exact absurd rfl hne
  | cons l ls => exact ⟨_, _, rfl⟩

/-- A given choice is the connection taken. -/
theorem chooseIndex_of_given {n i : Nat} {d : Draws} {is : List Nat} (hn : 2 ≤ n) (hi : i < n) (h : d.given = i :: is) :
    (chooseIndex n d).1 = i := by
  unfold chooseIndex
  rw [if_neg (by omega)]
  simp [Draws.next, h, Nat.mod_eq_of_lt hi]

theorem fetch_line {s s' : State} {content : Line} (h : fetch s = .line content s') :
    LineTaken s s' ∧ ∃ (batch : List (Nat × List Line)) (i k : Nat) (rest : List Line),
      s.batch = some batch ∧ (live batch)[i]? = some (k, content :: rest) ∧
      s'.conn = k ∧ s'.batch = some ((live batch).set i (k, rest)) := by
  unfold fetch at h
  split at h
  · cases h
  · rename_i batch hb
    obtain ⟨h1, i, k, rest, h2⟩ := fetchLine_line h
    exact ⟨h1, batch, i, k, rest, hb, h2⟩

theorem fetch_unpolled {s : State} (h : fetch s = .unpolled) : s.batch = none := by
  unfold fetch at h
  split at h
  · assumption
  · exact absurd h fetchLine_not_unpolled

/-! ## The shutdown -/

/-- Only the pins, the time and the channel table differ. -/
def OnlyPinsAndTable (s t : State) : Prop :=
  t = { s with ch := t.ch, trace := t.trace, now := t.now, delays := t.delays }

theorem OnlyPinsAndTable.trans {s t u : State} (h : OnlyPinsAndTable s t) (h' : OnlyPinsAndTable t u) :
    OnlyPinsAndTable s u := by
  unfold OnlyPinsAndTable at *
  rw [h', h]

theorem shutDisable_onlyPinsAndTable (s : State) (c : Fin 8) : OnlyPinsAndTable s (shutDisable s c) := by
  unfold shutDisable
  split <;> rfl

theorem shutRelease_onlyPinsAndTable (s : State) (c : Fin 8) : OnlyPinsAndTable s (shutRelease s c) := by
  unfold shutRelease
  split <;> rfl

theorem shutRelease_ch (s : State) (c : Fin 8) : (shutRelease s c).ch = s.ch := by
  unfold shutRelease
  split <;> rfl

theorem shutDisable_ch (s : State) (c : Fin 8) :
    (shutDisable s c).ch = s.ch.set c { s.ch[c] with enabled := false } := by
  unfold shutDisable
  split <;> rfl

/-- The first pass of the shutdown over a row of distinct ids: the slots it leaves, its events, and the rest kept. -/
theorem shutDisable_fold (cs : List (Fin 8)) (hnd : cs.Nodup) (s : State) :
    OnlyPinsAndTable s (cs.foldl shutDisable s) ∧
      (∀ c : Fin 8, (cs.foldl shutDisable s).ch[c] =
        if c ∈ cs then { s.ch[c] with enabled := false } else s.ch[c]) ∧
      s.now ≤ (cs.foldl shutDisable s).now ∧
      ∃ es, (cs.foldl shutDisable s).trace = s.trace ++ es ∧ EventsBetween s.now (cs.foldl shutDisable s).now es ∧
        es.map PinEvent.deed =
          ((cs.filter fun c => s.ch[c].configured).map fun c => (s.ch[c].pin.toNat, PinAct.low)) := by
  induction cs generalizing s with
  | nil => exact ⟨rfl, fun c => by simp, le_rfl, [], by simp [EventsBetween.nil]⟩
  | cons d ds ih =>
    have hd := List.nodup_cons.1 hnd
    obtain ⟨h1, h2, h3, es, h4, h5, h6⟩ := ih hd.2 (shutDisable s d)
    have hne : ∀ c ∈ ds, (shutDisable s d).ch[c] = s.ch[c] := fun c hc => by
      have : c ≠ d := fun e => hd.1 (e ▸ hc)
      rw [shutDisable_ch]
      exact State.setCh_ch_of_ne s _ this
    have hmap : ((ds.filter fun c => (shutDisable s d).ch[c].configured).map fun c =>
          ((shutDisable s d).ch[c].pin.toNat, PinAct.low)) =
        ((ds.filter fun c => s.ch[c].configured).map fun c => (s.ch[c].pin.toNat, PinAct.low)) := by
      rw [List.filter_congr (q := fun c : Fin 8 => s.ch[c].configured) fun c hc => by rw [hne c hc]]
      exact List.map_congr_left fun c hc => by rw [hne c (List.mem_filter.1 hc).1]
    rw [hmap] at h6
    rw [List.foldl_cons]
    refine ⟨(shutDisable_onlyPinsAndTable s d).trans h1, fun c => ?_, ?_, ?_⟩
    · rw [h2 c]
      by_cases hcd : c = d
      · subst hcd
        rw [if_neg hd.1, if_pos List.mem_cons_self, shutDisable_ch]
        exact s.setCh_getElem_self c _
      · have hc : (shutDisable s d).ch[c] = s.ch[c] := by
          rw [shutDisable_ch]
          exact State.setCh_ch_of_ne s _ hcd
        rw [hc]
        simp [hcd]
    · refine le_trans ?_ h3
      unfold shutDisable
      split
      · exact s.now_le_passTime
      · exact le_rfl
    · cases hconf : s.ch[d].configured
      · have hs : shutDisable s d = s.setCh d { s.ch[d] with enabled := false } := by
          unfold shutDisable; rw [hconf]; rfl
        rw [hs] at h4 h5 ⊢
        refine ⟨es, h4, h5, ?_⟩
        rw [List.filter_cons_of_neg (p := fun c : Fin 8 => s.ch[c].configured) (by rw [hconf]; exact Bool.false_ne_true)]
        exact h6
      · have hs : shutDisable s d =
            (s.setCh d { s.ch[d] with enabled := false }).emit s.ch[d].pin .low := by
          unfold shutDisable; rw [hconf]; rfl
        rw [hs] at h3 h4 h5 ⊢
        refine ⟨⟨s.passTime.now, s.ch[d].pin.toNat, .low⟩ :: es, ?_, ?_, ?_⟩
        · rw [h4]
          simp [-Fin.getElem_fin, State.emit, State.passTime]
        · exact EventsBetween.cons s.now_le_passTime le_rfl h5 h3
        · rw [List.filter_cons_of_pos (p := fun c : Fin 8 => s.ch[c].configured) hconf, List.map_cons, h6]
          rfl

/-- The second pass of the shutdown. -/
theorem shutRelease_fold (cs : List (Fin 8)) (s : State) :
    OnlyPins s (cs.foldl shutRelease s) ∧ s.now ≤ (cs.foldl shutRelease s).now ∧
      ∃ es, (cs.foldl shutRelease s).trace = s.trace ++ es ∧ EventsBetween s.now (cs.foldl shutRelease s).now es ∧
        es.map PinEvent.deed =
          ((cs.filter fun c => s.ch[c].configured).map fun c => (s.ch[c].pin.toNat, PinAct.input)) := by
  induction cs generalizing s with
  | nil => exact ⟨rfl, le_rfl, [], by simp [EventsBetween.nil]⟩
  | cons d ds ih =>
    obtain ⟨h1, h3, es, h4, h5, h6⟩ := ih (shutRelease s d)
    rw [shutRelease_ch] at h6
    rw [List.foldl_cons]
    cases hconf : s.ch[d].configured
    · have hs : shutRelease s d = s := by unfold shutRelease; rw [hconf]; rfl
      rw [hs] at h1 h3 h4 h5 ⊢
      refine ⟨h1, h3, es, h4, h5, ?_⟩
      rw [List.filter_cons_of_neg (p := fun c : Fin 8 => s.ch[c].configured) (by rw [hconf]; exact Bool.false_ne_true)]
      exact h6
    · have hs : shutRelease s d = s.emit s.ch[d].pin .input := by unfold shutRelease; rw [hconf]; rfl
      rw [hs] at h1 h3 h4 h5 ⊢
      refine ⟨(s.onlyPins_emit _ _).trans h1, s.now_le_passTime.trans h3,
        ⟨s.passTime.now, s.ch[d].pin.toNat, .input⟩ :: es, ?_, ?_, ?_⟩
      · rw [h4]
        simp [-Fin.getElem_fin]
      · exact EventsBetween.cons s.now_le_passTime le_rfl h5 h3
      · rw [List.filter_cons_of_pos (p := fun c : Fin 8 => s.ch[c].configured) hconf, List.map_cons, h6]
        rfl

/-- The whole shutdown: the slots it leaves, its events, and what it keeps. -/
theorem shutdown_spec (s : State) :
    (∀ c : Fin 8, (shutdown s).ch[c] = { s.ch[c] with enabled := false }) ∧
      s.now ≤ (shutdown s).now ∧
      (∃ es, (shutdown s).trace = s.trace ++ es ∧ EventsBetween s.now (shutdown s).now es ∧
        es.map PinEvent.deed =
          ((channelIds.filter fun c => s.ch[c].configured).map fun c => (s.ch[c].pin.toNat, PinAct.low)) ++
          ((channelIds.filter fun c => s.ch[c].configured).map fun c => (s.ch[c].pin.toNat, PinAct.input))) ∧
      shutdown s = { s with
        ch := (shutdown s).ch, trace := (shutdown s).trace, now := (shutdown s).now, delays := (shutdown s).delays,
        conns := [], pending := [], batch := none, phase := .halted } := by
  obtain ⟨a1, a2, a3, es, a4, a5, a6⟩ := shutDisable_fold channelIds channelIds_nodup s
  obtain ⟨b1, b3, fs, b4, b5, b6⟩ := shutRelease_fold channelIds (channelIds.foldl shutDisable s)
  unfold shutdown
  generalize channelIds.foldl shutDisable s = u at *
  have hch : ∀ c : Fin 8, u.ch[c] = { s.ch[c] with enabled := false } := fun c => by
    rw [a2 c, if_pos (mem_channelIds c)]
  rw [List.filter_congr (q := fun c : Fin 8 => s.ch[c].configured) fun c _ => by rw [hch c],
    List.map_congr_left (g := fun c : Fin 8 => (s.ch[c].pin.toNat, PinAct.input)) fun c _ => by rw [hch c]] at b6
  generalize channelIds.foldl shutRelease u = v at *
  refine ⟨fun c => ?_, a3.trans b3, ⟨es ++ fs, ?_, a5.append b5 a3 b3, ?_⟩, ?_⟩
  · rw [← hch c, b1]
  · rw [← List.append_assoc, ← a4, ← b4]
  · rw [List.map_append, a6, b6]
  · rw [b1, a1]

end Sys2Proof.Machine
end

