-- ==== Sys2Proof/Laws/PerInstr.lean ====
section
/-! SUPPORT. The family `OneLine`: the canonical spelling of every command holds no newline, so that its first newline is its
terminator (30_encoding.md R51, R61). -/

namespace Sys2Proof.Laws.OneLine

/-- No byte of the canonical spelling is a newline. -/
def Statement (i : Instr) : Prop := newline ∉ encodeLine i

theorem newline_ne_space : newline ≠ space := by decide

theorem setup (c p : Int) : Statement (.setup c p) := by
  simp only [Statement, encodeLine, List.mem_append, List.mem_cons, not_or, newline_not_mem_dec, newline_ne_space,
    not_false_eq_true, and_true, true_and]
  decide

theorem enable (c : Int) : Statement (.enable c) := by
  simp only [Statement, encodeLine, List.mem_append, List.mem_cons, not_or, newline_not_mem_dec, newline_ne_space,
    not_false_eq_true, and_true]
  decide

theorem disable (c : Int) : Statement (.disable c) := by
  simp only [Statement, encodeLine, List.mem_append, List.mem_cons, not_or, newline_not_mem_dec, newline_ne_space,
    not_false_eq_true, and_true]
  decide

theorem setRange (c a b : Int) : Statement (.setRange c a b) := by
  simp only [Statement, encodeLine, List.mem_append, List.mem_cons, not_or, newline_not_mem_dec, newline_ne_space,
    not_false_eq_true, and_true, true_and]
  decide

theorem setPulse (c v : Int) : Statement (.setPulse c v) := by
  simp only [Statement, encodeLine, List.mem_append, List.mem_cons, not_or, newline_not_mem_dec, newline_ne_space,
    not_false_eq_true, and_true, true_and]
  decide

theorem getRange (c : Int) : Statement (.getRange c) := by
  simp only [Statement, encodeLine, List.mem_append, List.mem_cons, not_or, newline_not_mem_dec, newline_ne_space,
    not_false_eq_true, and_true, true_and]
  decide

theorem getPulse (c : Int) : Statement (.getPulse c) := by
  simp only [Statement, encodeLine, List.mem_append, List.mem_cons, not_or, newline_not_mem_dec, newline_ne_space,
    not_false_eq_true, and_true, true_and]
  decide

theorem getState (c : Int) : Statement (.getState c) := by
  simp only [Statement, encodeLine, List.mem_append, List.mem_cons, not_or, newline_not_mem_dec, newline_ne_space,
    not_false_eq_true, and_true, true_and]
  decide

end Sys2Proof.Laws.OneLine
end

