-- ==== Sys2Proof/Laws/Step.lean ====
section
/-! SUPPORT. What one step can do, said once: `step_case` lists every case; the lemmas after it package runs of steps. -/

namespace Sys2Proof.Machine

/-- Every case of what the block does in one step, before a stop asserted meanwhile lands, with what is known in it. -/
inductive StepCase (s : State) : State → Prop
  | released (h : s.phase = .reset) : StepCase s { s with phase := .init }
  | initFailed (h : s.phase = .init) (hbad : s.regsOk = false ∨ s.timerOk = false ∨ s.endpointOk = false) :
      StepCase s { s with phase := .failed }
  | started (h : s.phase = .init) (hr : s.regsOk = true) (ht : s.timerOk = true) (he : s.endpointOk = true) :
      StepCase s (loopTop (startTimer s))
  | waited (h : s.phase = .wait) : StepCase s (frameWait s)
  | frameStarted (h : s.phase = .frame) (hs : s.snapshot = none) : StepCase s (frameStart s)
  | frameRun (h : s.phase = .frame) (snap : Vector SnapEntry 8) (hs : s.snapshot = some snap) :
      StepCase s (frameEdges snap s)
  | polled (h : s.phase = .control) (hb : s.batch = none) : StepCase s (poll s)
  | dropped (h : s.phase = .control) (content : Line) (u : State) (hf : fetch s = .line content u) : StepCase s u
  | answeredBad (h : s.phase = .control) (content : Line) (u : State) (hf : fetch s = .line content u)
      (kind : ErrorKind) : StepCase s (u.raiseError kind)
  | executed (h : s.phase = .control) (content : Line) (u t : State) (hf : fetch s = .line content u)
      (he : Effect u t) : StepCase s t
  | ended (h : s.phase = .control) : StepCase s (endControl s)
  | shut (h : s.phase = .shutdown) : StepCase s (shutdown s)
  | final (h : s.phase = .halted ∨ s.phase = .failed) : StepCase s s.passTime

theorem initialise_cases (s : State) :
    ((s.regsOk = false ∨ s.timerOk = false ∨ s.endpointOk = false) ∧ initialise s = { s with phase := .failed }) ∨
    (s.regsOk = true ∧ s.timerOk = true ∧ s.endpointOk = true ∧ initialise s = loopTop (startTimer s)) := by
  unfold initialise
  cases h1 : s.regsOk <;> cases h2 : s.timerOk <;> cases h3 : s.endpointOk <;> simp

/-- The block always goes on, by one of the cases. -/
theorem phaseStep_total (s : State) : ∃ t, phaseStep s = .next t ∧ StepCase s t := by
  unfold phaseStep
  split
  · exact ⟨_, rfl, .released (by assumption)⟩
  · rename_i h
    rcases initialise_cases s with ⟨hb, e⟩ | ⟨hr, ht, he, e⟩ <;> rw [e]
    · exact ⟨_, rfl, .initFailed h hb⟩
    · exact ⟨_, rfl, .started h hr ht he⟩
  · exact ⟨_, rfl, .waited (by assumption)⟩
  · rename_i h
    cases hs : s.snapshot with
    | none => exact ⟨frameStart s, by simp [frameStep, hs], .frameStarted h hs⟩
    | some snap => exact ⟨frameEdges snap s, by simp [frameStep, hs], .frameRun h snap hs⟩
  · rename_i h
    unfold controlStep
    split
    · rename_i hf
      exact ⟨_, rfl, .polled h (fetch_unpolled hf)⟩
    · rename_i content u hf
      unfold applyLine
      split
      · exact ⟨_, rfl, .dropped h content u hf⟩
      · exact ⟨_, rfl, .answeredBad h content u hf _⟩
      · rename_i i _
        obtain ⟨t, ht, he⟩ := exec_effect i u
        exact ⟨t, ht, .executed h content u t hf he⟩
    · exact ⟨_, rfl, .ended h⟩
  · exact ⟨_, rfl, .shut (by assumption)⟩
  · exact ⟨_, rfl, .final (.inl (by assumption))⟩
  · exact ⟨_, rfl, .final (.inr (by assumption))⟩

/-- What the block did, and then a stop asserted by that time, is the step. -/
theorem step_of_phaseStep {s t : State} (h : phaseStep s = .next t) : step s = .next t.landStop := by
  rw [step, h]
  rfl

/-- Every step answers a next state, by one of the cases. -/
theorem step_total (s : State) : ∃ t, step s = .next t.landStop ∧ StepCase s t := by
  obtain ⟨t, ht, hc⟩ := phaseStep_total s
  exact ⟨t, step_of_phaseStep ht, hc⟩

theorem step_case {s t : State} (h : step s = .next t) : ∃ u, t = u.landStop ∧ StepCase s u := by
  obtain ⟨u, hu, hc⟩ := step_total s
  rw [hu] at h
  cases h
  exact ⟨u, rfl, hc⟩

/-- A run of one step more goes on from the next state. -/
theorem run_succ_of_next (n : Nat) {s u : State} (h : step s = .next u) : core.run (n + 1) s = core.run n u := by
  have hc : core.step s = .next u := h
  simp only [Host.Core.run, hc]

/-- What every step keeps, every run of steps keeps. -/
theorem run_keeps {P : State → Prop} (hstep : ∀ s t, P s → step s = .next t → P t) (n : Nat) {s t : State} (hs : P s)
    (h : core.run n s = .next t) : P t := by
  induction n generalizing s with
  | zero => cases h; exact hs
  | succ n ih =>
    obtain ⟨_, hu, -⟩ := step_total s
    rw [run_succ_of_next n hu] at h
    exact ih (hstep s _ hs hu) h

end Sys2Proof.Machine
end

