-- ==== Sys2Proof/Tests/Slice0.lean ====
section
/-! SUPPORT. The model's own tests. Expected results come from the spec: its encodings (30_encoding.md R51 to R64), its
worked examples and its vectors (95_test_vectors.md); a theorem's docstring names the vector. The last part shows, for every
statement with hypotheses, a state and operands that meet them. -/

namespace Sys2Proof.Tests

open Sys2Proof.Machine

/-! ## Helpers -/

/-- A channel slot. -/
def slot (configured enabled : Bool) (pin : Nat) (lo hi pulse : Int) : Channel :=
  ⟨configured, BitVec.ofNat 5 pin, enabled, BitVec.ofInt 16 lo, BitVec.ofInt 16 hi, BitVec.ofInt 16 pulse⟩

/-- A control phase that has polled, with connection 0 open, at time 20000, every open duration 0. -/
def ready : State :=
  { State.reset with
    phase := .control, now := 20000, conns := [⟨0, []⟩], batch := some [(0, [])], delays := ⟨[0, 0, 0, 0], 0⟩ }

/-- Channel 0 set up on pin 17, disabled, at the defaults. -/
def ch0 : State := ready.setCh 0 (slot true false 17 1000 2000 1500)

/-- The next state; the same one where there is none. -/
def after (s : State) : State :=
  match step s with
  | .next t => t
  | _ => s

/-- The state after the step that applies one line of connection 0. -/
def line (s : State) (content : List Byte) : State := after { s with batch := some [(0, [content])] }

/-! ## Ill-formed commands are refused by the check (20_memory.md R38, R39, 41_range_pulse.md R72) -/

theorem test_wf_setup_channel :
    (Instr.setup 8 5).wellFormed = false ∧ (Instr.setup (-1) 5).wellFormed = false := by decide
theorem test_wf_setup_pin :
    (Instr.setup 0 28).wellFormed = false ∧ (Instr.setup 0 (-1)).wellFormed = false := by decide
theorem test_wf_enable : (Instr.enable 8).wellFormed = false := by decide
theorem test_wf_disable : (Instr.disable (-1)).wellFormed = false := by decide
theorem test_wf_setRange_channel : (Instr.setRange 9 1000 2000).wellFormed = false := by decide
theorem test_wf_setRange_raw : (Instr.setRange 0 1500 1500).wellFormed = false := by decide
theorem test_wf_setRange_clamped :
    (Instr.setRange 0 100 500).wellFormed = false ∧ (Instr.setRange 0 2500 3000).wellFormed = false := by decide
theorem test_wf_setPulse : (Instr.setPulse 8 1500).wellFormed = false := by decide
theorem test_wf_getRange : (Instr.getRange (-1)).wellFormed = false := by decide
theorem test_wf_getPulse : (Instr.getPulse 8).wellFormed = false := by decide
theorem test_wf_getState : (Instr.getState 8).wellFormed = false := by decide
theorem test_wf_accepts :
    (Instr.setup 7 27).wellFormed = true ∧ (Instr.setup 0 0).wellFormed = true ∧
      (Instr.setRange 0 100 501).wellFormed = true ∧ (Instr.setRange 0 2499 3000).wellFormed = true := by decide

/-! ## Decoding, each form from its bytes (30_encoding.md R58; the bytes of 95_test_vectors.md) -/

/-- `SETUP 0 GPIO 17` (R64). -/
theorem test_decode_setup :
    decode [0x53, 0x45, 0x54, 0x55, 0x50, 0x20, 0x30, 0x20, 0x47, 0x50, 0x49, 0x4F, 0x20, 0x31, 0x37, 0x0A] = .ok
        (.setup 0 17, []) := by
  decide

/-- `ENABLE 0`. -/
theorem test_decode_enable :
    decode [0x45, 0x4E, 0x41, 0x42, 0x4C, 0x45, 0x20, 0x30, 0x0A] = .ok (.enable 0, []) := by
  decide

/-- `DISABLE 1` (P3). -/
theorem test_decode_disable :
    decode [0x44, 0x49, 0x53, 0x41, 0x42, 0x4C, 0x45, 0x20, 0x31, 0x0A] = .ok (.disable 1, []) := by
  decide

/-- `SET 1 RANGE 400 2600` (P2). -/
theorem test_decode_setRange :
    decode [0x53, 0x45, 0x54, 0x20, 0x31, 0x20, 0x52, 0x41, 0x4E, 0x47, 0x45, 0x20, 0x34, 0x30, 0x30, 0x20, 0x32,
        0x36, 0x30, 0x30, 0x0A] = .ok (.setRange 1 400 2600, []) := by
  decide

/-- `SET 0 PULSE 1200`. -/
theorem test_decode_setPulse :
    decode [0x53, 0x45, 0x54, 0x20, 0x30, 0x20, 0x50, 0x55, 0x4C, 0x53, 0x45, 0x20, 0x31, 0x32, 0x30, 0x30, 0x0A]
        = .ok (.setPulse 0 1200, []) := by
  decide

/-- `GET 1 RANGE` (P2). -/
theorem test_decode_getRange :
    decode [0x47, 0x45, 0x54, 0x20, 0x31, 0x20, 0x52, 0x41, 0x4E, 0x47, 0x45, 0x0A] = .ok (.getRange 1, []) := by
  decide

/-- `GET 0 PULSE`. -/
theorem test_decode_getPulse :
    decode [0x47, 0x45, 0x54, 0x20, 0x30, 0x20, 0x50, 0x55, 0x4C, 0x53, 0x45, 0x0A] = .ok (.getPulse 0, []) := by
  decide

/-- `GET 0 STATE`. -/
theorem test_decode_getState :
    decode [0x47, 0x45, 0x54, 0x20, 0x30, 0x20, 0x53, 0x54, 0x41, 0x54, 0x45, 0x0A] = .ok (.getState 0, []) := by
  decide

/-- No newline yet (R51). -/
theorem test_decode_noNewline :
    decode [0x47, 0x45, 0x54, 0x20, 0x30, 0x20, 0x53, 0x54, 0x41, 0x54, 0x45] = .error .noNewline := by
  decide

/-- The bytes after the first newline are left (R51). -/
theorem test_decode_rest :
    decode [0x47, 0x45, 0x54, 0x20, 0x30, 0x20, 0x53, 0x54, 0x41, 0x54, 0x45, 0x0A, 0x47, 0x45] = .ok (.getState
        0, [0x47, 0x45]) := by
  decide

/-- The text `GET 0 STATE` as one number, first byte lowest (log 18). -/
theorem test_decodeTableWord : decodeTableWord 96 0xA4554415453203020544547 = some (.getState 0) := by decide

/-- E1, E2: case, one carriage return, tabs and runs of spaces. -/
theorem test_line_E1_E2 :
    decodeLine [0x73, 0x65, 0x74, 0x75, 0x70, 0x20, 0x30, 0x20, 0x67, 0x70, 0x69, 0x6F, 0x20, 0x31, 0x37, 0x0D]
          = .command (.setup 0 17) ∧
      decodeLine [0x20, 0x20, 0x53, 0x45, 0x54, 0x09, 0x30, 0x20, 0x20, 0x50, 0x55, 0x4C, 0x53, 0x45, 0x20, 0x31,
          0x32, 0x30, 0x30, 0x20, 0x20] = .command (.setPulse 0 1200) := by
  decide

/-- E3 to E5: blank lines. -/
theorem test_line_E3_E5 :
    decodeLine [] = .blank ∧
      decodeLine [0x20, 0x20, 0x20] = .blank ∧
      decodeLine [0x0D] = .blank := by
  decide

/-- E6, E20, E21. -/
theorem test_line_unknown :
    decodeLine [0x46, 0x4F, 0x4F, 0x20, 0x31] = .bad .unknownCommand ∧
      decodeLine [0x53, 0x45, 0x54, 0x55, 0x50, 0x58, 0x20, 0x30, 0x20, 0x47, 0x50, 0x49, 0x4F, 0x20, 0x31] = .bad
          .unknownCommand ∧
      decodeLine [0x45, 0x4E, 0x41, 0x42, 0x4C, 0x20, 0x30] = .bad .unknownCommand := by
  decide

/-- E7 to E10: missing and extra tokens, a wrong sub-keyword. -/
theorem test_line_tokens :
    decodeLine [0x53, 0x45, 0x54, 0x55, 0x50] = .bad .invalidCommand ∧
      decodeLine [0x53, 0x45, 0x54, 0x55, 0x50, 0x20, 0x30, 0x20, 0x47, 0x50, 0x49, 0x4F] = .bad .invalidCommand ∧
      decodeLine [0x53, 0x45, 0x54, 0x55, 0x50, 0x20, 0x30, 0x20, 0x50, 0x49, 0x4E, 0x20, 0x31, 0x37] = .bad
          .invalidCommand ∧
      decodeLine [0x45, 0x4E, 0x41, 0x42, 0x4C, 0x45, 0x20, 0x30, 0x20, 0x31] = .bad .invalidCommand := by
  decide

/-- E11 to E14. -/
theorem test_line_numerals :
    decodeLine [0x45, 0x4E, 0x41, 0x42, 0x4C, 0x45, 0x20, 0x78] = .bad .invalidCommand ∧
      decodeLine [0x53, 0x45, 0x54, 0x20, 0x30, 0x20, 0x50, 0x55, 0x4C, 0x53, 0x45, 0x20, 0x2B, 0x31, 0x32, 0x30,
          0x30] = .bad .invalidCommand ∧
      decodeLine [0x53, 0x45, 0x54, 0x20, 0x30, 0x20, 0x50, 0x55, 0x4C, 0x53, 0x45, 0x20, 0x31, 0x2E, 0x35] = .bad
          .invalidCommand ∧
      decodeLine [0x53, 0x45, 0x54, 0x20, 0x30, 0x20, 0x50, 0x55, 0x4C, 0x53, 0x45, 0x20, 0x30, 0x78, 0x31, 0x30]
          = .bad .invalidCommand := by
  decide

/-- E15 to E19. -/
theorem test_line_forms :
    decodeLine [0x53, 0x45, 0x54, 0x20, 0x30, 0x20, 0x52, 0x41, 0x4E, 0x47, 0x45, 0x20, 0x31, 0x30, 0x30, 0x30]
          = .bad .invalidCommand ∧
      decodeLine [0x53, 0x45, 0x54, 0x20, 0x30, 0x20, 0x50, 0x55, 0x4C, 0x53, 0x45, 0x20, 0x31, 0x30, 0x30, 0x30,
          0x20, 0x32, 0x30, 0x30, 0x30] = .bad .invalidCommand ∧
      decodeLine [0x53, 0x45, 0x54, 0x20, 0x30, 0x20, 0x53, 0x54, 0x41, 0x54, 0x45, 0x20, 0x35] = .bad
          .invalidCommand ∧
      decodeLine [0x47, 0x45, 0x54, 0x20, 0x30, 0x20, 0x46, 0x4F, 0x4F] = .bad .invalidCommand ∧
      decodeLine [0x47, 0x45, 0x54, 0x20, 0x30] = .bad .invalidCommand := by
  decide

/-- E22, E23, E24, SR16: leading zeros, minus zero, exact large values. -/
theorem test_line_values :
    decodeLine [0x47, 0x45, 0x54, 0x20, 0x30, 0x30, 0x37, 0x20, 0x50, 0x55, 0x4C, 0x53, 0x45] = .command
          (.getPulse 7) ∧
      decodeLine [0x53, 0x45, 0x54, 0x20, 0x30, 0x20, 0x50, 0x55, 0x4C, 0x53, 0x45, 0x20, 0x2D, 0x30] = .command
          (.setPulse 0 0) ∧
      decodeLine [0x47, 0x45, 0x54, 0x20, 0x39, 0x39, 0x39, 0x39, 0x39, 0x39, 0x39, 0x39, 0x39, 0x39, 0x39, 0x39,
          0x39, 0x39, 0x39, 0x39, 0x39, 0x39, 0x39, 0x39, 0x20, 0x50, 0x55, 0x4C, 0x53, 0x45] = .command
          (.getPulse 99999999999999999999) ∧
      decodeLine [0x53, 0x45, 0x54, 0x20, 0x30, 0x20, 0x52, 0x41, 0x4E, 0x47, 0x45, 0x20, 0x2D, 0x33, 0x32, 0x37,
          0x36, 0x39, 0x20, 0x34, 0x30, 0x30, 0x30, 0x30] = .command (.setRange 0 (-32769) 40000) := by
  decide

/-- E25, E26: only one carriage return is removed; mixed case. -/
theorem test_line_E25_E26 :
    decodeLine [0x53, 0x45, 0x54, 0x55, 0x50, 0x20, 0x30, 0x20, 0x47, 0x50, 0x49, 0x4F, 0x20, 0x31, 0x37, 0x0D,
          0x0D] = .bad .invalidCommand ∧
      decodeLine [0x47, 0x65, 0x74, 0x20, 0x30, 0x20, 0x53, 0x74, 0x61, 0x74, 0x65] = .command (.getState 0) := by
  decide

/-- The response texts of 95_test_vectors.md, section 2.1. -/
theorem test_response_bytes :
    okText ++ [newline] = [0x4F, 0x4B, 0x0A] ∧
      stateText (slot true false 17 1000 2000 1500) ++ [newline] = [0x47, 0x50, 0x49, 0x4F, 0x20, 0x31, 0x37,
          0x20, 0x45, 0x4E, 0x41, 0x42, 0x4C, 0x45, 0x20, 0x30, 0x0A] ∧
      stateText (slot true true 17 1000 2000 1500) ++ [newline] = [0x47, 0x50, 0x49, 0x4F, 0x20, 0x31, 0x37, 0x20,
          0x45, 0x4E, 0x41, 0x42, 0x4C, 0x45, 0x20, 0x31, 0x0A] ∧
      pulseText (slot true false 17 1000 2000 1200) ++ [newline] = [0x50, 0x55, 0x4C, 0x53, 0x45, 0x20, 0x31,
          0x32, 0x30, 0x30, 0x0A] := by
  decide

/-! ## Executing commands -/

/-- The state after a command. -/
def run (i : Instr) (s : State) : State :=
  match exec i s with
  | .next t => t
  | _ => s

/-- One channel, the pin trace, the responses and the records. -/
def view (c : Fin 8) (t : State) : Channel × List PinEvent × List (Nat × List Byte) × List (Nat × ResultRecord) :=
  (t.ch[c], t.trace, t.responses, t.records)

/-- The response `OK` on connection 0, as bytes. -/
def okLine : List (Nat × List Byte) := [(0, [0x4F, 0x4B, 0x0A])]

/-- An error line on connection 0; its bytes are those of `test_error_bytes`. -/
def errorLine (kind : ErrorKind) : List (Nat × List Byte) := [(0, errorText kind ++ [newline])]

/-- P2 and P3: the bytes of two error lines. -/
theorem test_error_bytes :
    errorLine .invalidRange = [(0, [0x45, 0x52, 0x52, 0x4F, 0x52, 0x20, 0x49, 0x6E, 0x76, 0x61, 0x6C, 0x69, 0x64,
        0x20, 0x72, 0x61, 0x6E, 0x67, 0x65, 0x3A, 0x20, 0x6D, 0x69, 0x6E, 0x20, 0x6D, 0x75, 0x73, 0x74, 0x20,
        0x62, 0x65, 0x20, 0x6C, 0x65, 0x73, 0x73, 0x20, 0x74, 0x68, 0x61, 0x6E, 0x20, 0x6D, 0x61, 0x78, 0x0A])] ∧
      errorLine .notConfigured = [(0, [0x45, 0x52, 0x52, 0x4F, 0x52, 0x20, 0x43, 0x68, 0x61, 0x6E, 0x6E, 0x65,
          0x6C, 0x20, 0x6E, 0x6F, 0x74, 0x20, 0x63, 0x6F, 0x6E, 0x66, 0x69, 0x67, 0x75, 0x72, 0x65, 0x64, 0x0A])]
          := by
  decide

/-- CF8: a set-up channel moves to another pin and falls back to the defaults; nothing happens to the old pin. -/
theorem test_setup_again :
    view 0 (run (.setup 0 18) (ready.setCh 0 (slot true true 17 600 2400 2200))) =
      (slot true false 18 1000 2000 1500, [⟨20000, 18, .output⟩, ⟨20000, 18, .low⟩], okLine, [(0, ⟨0, false,
          false⟩)]) := by
  decide

/-- CF4: pin 28 is refused and nothing is written. -/
theorem test_setup_badPin :
    view 0 (run (.setup 0 28) ready) =
      (Channel.reset, [], errorLine .invalidPin, [(0, ⟨5, false, false⟩)]) := by
  decide

/-- CF6: pin 0 can be enabled; no pin event. -/
theorem test_enable_pin0 :
    view 0 (run (.enable 0) (ready.setCh 0 (slot true false 0 1000 2000 1500))) =
      (slot true true 0 1000 2000 1500, [], okLine, [(0, ⟨0, false, false⟩)]) := by
  decide

/-- CF10. -/
theorem test_enable_unconfigured :
    view 1 (run (.enable 1) ready) =
      (Channel.reset, [], errorLine .notConfigured, [(0, ⟨4, false, false⟩)]) := by
  decide

/-- CF13: the pin is forced low. -/
theorem test_disable :
    view 0 (run (.disable 0) (ready.setCh 0 (slot true true 17 1000 2000 1500))) =
      (slot true false 17 1000 2000 1500, [⟨20000, 17, .low⟩], okLine, [(0, ⟨0, false, false⟩)]) := by
  decide

/-- CF14: no pin event. -/
theorem test_disable_unconfigured :
    view 3 (run (.disable 3) ready) =
      (Channel.reset, [], okLine, [(0, ⟨0, false, false⟩)]) := by
  decide

/-- SR3: both flags. -/
theorem test_setRange :
    view 0 (run (.setRange 0 400 1200) ch0) =
      (slot true false 17 500 1200 1200, [], okLine, [(0, ⟨0, true, true⟩)]) := by
  decide

/-- SR11: the clamped bounds are not ordered. -/
theorem test_setRange_clampedEmpty :
    view 0 (run (.setRange 0 100 500) ch0) =
      (slot true false 17 1000 2000 1500, [], errorLine .invalidRange, [(0, ⟨6, false, false⟩)]) := by
  decide

/-- SP7: a negative value is clamped up to the minimum. -/
theorem test_setPulse :
    view 0 (run (.setPulse 0 (-5)) ch0) =
      (slot true false 17 1000 2000 1000, [], okLine, [(0, ⟨0, false, true⟩)]) := by
  decide

/-- SP12. -/
theorem test_setPulse_unconfigured :
    view 1 (run (.setPulse 1 1500) ch0) =
      (Channel.reset, [], errorLine .notConfigured, [(0, ⟨4, false, false⟩)]) := by
  decide

/-- P2: the answer shows what was stored. -/
theorem test_getRange :
    view 1 (run (.getRange 1) (ready.setCh 1 (slot true false 22 800 1200 1200))) =
      (slot true false 22 800 1200 1200, [], [(0, [0x52, 0x41, 0x4E, 0x47, 0x45, 0x20, 0x38, 0x30, 0x30, 0x20,
          0x31, 0x32, 0x30, 0x30, 0x0A])], [(0, ⟨0, false, false⟩)]) := by
  decide

/-- Q5. -/
theorem test_getRange_badChannel :
    view 0 (run (.getRange (-1)) ready) =
      (Channel.reset, [], errorLine .invalidChannel, [(0, ⟨3, false, false⟩)]) := by
  decide

/-- E22. -/
theorem test_getPulse :
    view 7 (run (.getPulse 7) ch0) =
      (Channel.reset, [], [(0, [0x50, 0x55, 0x4C, 0x53, 0x45, 0x20, 0x31, 0x35, 0x30, 0x30, 0x0A])], [(0, ⟨0,
          false, false⟩)]) := by
  decide

/-- E24: an exact value, no wrap. -/
theorem test_getPulse_badChannel :
    view 0 (run (.getPulse 99999999999999999999) ch0) =
      (slot true false 17 1000 2000 1500, [], errorLine .invalidChannel, [(0, ⟨3, false, false⟩)]) := by
  decide

/-- Q6. -/
theorem test_getState :
    view 0 (run (.getState 0) (ready.setCh 0 (slot true true 17 1000 2000 1500))) =
      (slot true true 17 1000 2000 1500, [], [(0, [0x47, 0x50, 0x49, 0x4F, 0x20, 0x31, 0x37, 0x20, 0x45, 0x4E,
          0x41, 0x42, 0x4C, 0x45, 0x20, 0x31, 0x0A])], [(0, ⟨0, false, false⟩)]) := by
  decide

/-- Q3. -/
theorem test_getState_unconfigured :
    view 0 (run (.getState 0) ready) =
      (Channel.reset, [], [(0, [0x47, 0x50, 0x49, 0x4F, 0x20, 0x30, 0x20, 0x45, 0x4E, 0x41, 0x42, 0x4C, 0x45,
          0x20, 0x30, 0x0A])], [(0, ⟨0, false, false⟩)]) := by
  decide

/-- X1: channel before pin. -/
theorem test_precedence :
    view 0 (run (.setup 9 99) ch0) =
      (slot true false 17 1000 2000 1500, [], errorLine .invalidChannel, [(0, ⟨3, false, false⟩)]) := by
  decide

/-- E26 through a whole step, from the bytes of the line to the bytes of the answer. -/
theorem test_step_line :
    view 0 (line ch0 [0x47, 0x65, 0x74, 0x20, 0x30, 0x20, 0x53, 0x74, 0x61, 0x74, 0x65]) = (slot true false 17
        1000 2000 1500, [], [(0, [0x47, 0x50, 0x49, 0x4F, 0x20, 0x31, 0x37, 0x20, 0x45, 0x4E, 0x41, 0x42, 0x4C,
        0x45, 0x20, 0x30, 0x0A])], [(0, ⟨0, false, false⟩)]) := by
  decide

/-- E6 through a whole step. -/
theorem test_step_unknown :
    view 0 (line ch0 [0x46, 0x4F, 0x4F, 0x20, 0x31]) = (slot true false 17 1000 2000 1500, [], errorLine
        .unknownCommand, [(0, ⟨2, false, false⟩)]) := by
  decide

/-- E4: a line without a token has no answer. -/
theorem test_step_blank : view 0 (line ch0 [0x20, 0x20, 0x20]) = (slot true false 17 1000 2000 1500, [], [], []) := by decide

/-! ## Frames (95_test_vectors.md, section 2.6) -/

/-- A frame that starts now with channels on given pins. -/
def framing (chs : List (Fin 8 × Channel)) : State :=
  chs.foldl (fun s x => s.setCh x.1 x.2) { State.reset with phase := .frame, now := 40000, served := 2, frameIndex := 2 }

/-- The state after both steps of a frame. -/
def framed (chs : List (Fin 8 × Channel)) : State := after (after (framing chs))

/-- F2: two channels, pulses 1000 and 1800. -/
theorem test_frame_F2 :
    (framed [(0, slot true true 17 1000 2000 1000), (1, slot true true 18 1000 2000 1800)]).trace =
      [⟨40000, 17, .high⟩, ⟨40000, 18, .high⟩, ⟨41000, 17, .low⟩, ⟨41800, 18, .low⟩] := by
  decide

/-- F3: ties keep the order of the channel ids. -/
theorem test_frame_F3 :
    (framed [(0, slot true true 5 1000 2000 1500), (1, slot true true 6 1000 2000 1500),
      (2, slot true true 7 1000 2000 1000)]).trace =
      [⟨40000, 5, .high⟩, ⟨40000, 6, .high⟩, ⟨40000, 7, .high⟩, ⟨41000, 7, .low⟩, ⟨41500, 5, .low⟩,
        ⟨41500, 6, .low⟩] := by
  decide

/-- F4: a disabled channel with the smallest pulse moves no baseline. -/
theorem test_frame_F4 :
    (framed [(0, slot true true 5 500 2500 2000), (1, slot true false 6 500 2500 500),
      (2, slot true true 7 500 2500 1200)]).trace =
      [⟨40000, 5, .high⟩, ⟨40000, 7, .high⟩, ⟨41200, 7, .low⟩, ⟨42000, 5, .low⟩] := by
  decide

/-- F5: the order of eight enabled channels, and the end of the longest frame. -/
theorem test_frame_F5 :
    frameOrder (snapTable (framing [(0, slot true true 10 500 2500 2500), (1, slot true true 11 500 2500 500),
      (2, slot true true 12 500 2500 1500), (3, slot true true 13 500 2500 1500),
      (4, slot true true 14 500 2500 1000), (5, slot true true 15 500 2500 2000),
      (6, slot true true 16 500 2500 700), (7, slot true true 17 500 2500 1200)]).ch) = [1, 6, 4, 7, 2, 3, 5, 0] := by
  decide

/-- F6: a shared pin sets the fault bit; the level falls at the shorter pulse. -/
theorem test_frame_F6 :
    (framed [(0, slot true true 5 1000 2000 1000), (1, slot true true 5 1000 2000 1800)]).sharedPinFault = true ∧
      (framed [(0, slot true true 5 1000 2000 1000), (1, slot true true 5 1000 2000 1800)]).trace =
      [⟨40000, 5, .high⟩, ⟨40000, 5, .high⟩, ⟨41000, 5, .low⟩, ⟨41800, 5, .low⟩] := by
  decide

/-- F14: under `lower_bound` no pulse is shorter than commanded; here every draw is 3. -/
theorem test_frame_F14 :
    (frameEdges (snapTable (framing [(0, slot true true 17 1000 2000 1000), (1, slot true true 18 1000 2000 1800)]).ch)
      { framing [] with edgeTiming := .lowerBound, delays := ⟨[3, 3, 3, 3], 0⟩ }).trace =
      [⟨40003, 17, .high⟩, ⟨40006, 18, .high⟩, ⟨41009, 17, .low⟩, ⟨41812, 18, .low⟩] := by
  decide

/-- A wait entered at `now` after frame 1. -/
def waiting (now : Nat) : State := { State.reset with phase := .wait, served := 1, frameIndex := 1, now := now }

/-- What a wait leaves: the frame's start, `served`, `overrun_count`. -/
def waited (now : Nat) : Nat × Nat × Nat :=
  ((after (waiting now)).now, (after (waiting now)).served, (after (waiting now)).overrunCount.toNat)

/-- F7 to F12. -/
theorem test_wait :
    waited 30000 = (40000, 2, 0) ∧ waited 40000 = (40000, 2, 0) ∧ waited 40001 = (40001, 2, 0) ∧
      waited 59999 = (59999, 2, 0) ∧ waited 60000 = (60000, 3, 1) ∧ waited 100000 = (100000, 5, 1) := by
  decide

/-- F13: the counter wraps. -/
theorem test_wait_wraps :
    (after { waiting 60000 with overrunCount := 4294967295 }).overrunCount = 0 := by
  decide

/-! ## The loop (95_test_vectors.md, sections 2.1 and 2.7) -/

/-- Pipelining: three lines are taken, the partial one stays. -/
theorem test_poll :
    ((after { ch0 with batch := none, conns := [⟨0, [0x47, 0x45, 0x54, 0x20, 0x30, 0x20, 0x50, 0x55, 0x4C, 0x53,
        0x45, 0x0A, 0x46, 0x4F, 0x4F, 0x0A, 0x47, 0x45, 0x54, 0x20, 0x30, 0x20, 0x52, 0x41, 0x4E, 0x47, 0x45,
        0x0A, 0x53, 0x45, 0x54, 0x20, 0x30, 0x20, 0x50, 0x55]⟩] }).batch, (after { ch0 with batch := none, conns
        := [⟨0, [0x47, 0x45, 0x54, 0x20, 0x30, 0x20, 0x50, 0x55, 0x4C, 0x53, 0x45, 0x0A, 0x46, 0x4F, 0x4F, 0x0A,
        0x47, 0x45, 0x54, 0x20, 0x30, 0x20, 0x52, 0x41, 0x4E, 0x47, 0x45, 0x0A, 0x53, 0x45, 0x54, 0x20, 0x30,
        0x20, 0x50, 0x55]⟩] }).conns) =
      (some [(0, [[0x47, 0x45, 0x54, 0x20, 0x30, 0x20, 0x50, 0x55, 0x4C, 0x53, 0x45], [0x46, 0x4F, 0x4F], [0x47,
          0x45, 0x54, 0x20, 0x30, 0x20, 0x52, 0x41, 0x4E, 0x47, 0x45]])], [⟨0, [0x53, 0x45, 0x54, 0x20, 0x30,
          0x20, 0x50, 0x55]⟩]) := by
  decide

/-- L2: with two connections, the next line is either one's first. -/
def twoConns (choices : List Nat) : State :=
  { ch0 with conns := [⟨0, []⟩, ⟨1, []⟩], batch := some [(0, [[0x53, 0x45, 0x54, 0x20, 0x30, 0x20, 0x50, 0x55,
      0x4C, 0x53, 0x45, 0x20, 0x31, 0x31, 0x30, 0x30], [0x47, 0x45, 0x54, 0x20, 0x30, 0x20, 0x50, 0x55, 0x4C,
      0x53, 0x45]]), (1, [[0x53, 0x45, 0x54, 0x20, 0x30, 0x20, 0x50, 0x55, 0x4C, 0x53, 0x45, 0x20, 0x31, 0x39,
      0x30, 0x30]])], choices := ⟨choices, 0⟩ }

theorem test_L2 :
    (after (twoConns [0])).ch[(0 : Fin 8)].pulseUs.toInt = 1100 ∧ (after (twoConns [0])).conn = 0 ∧
      (after (twoConns [1])).ch[(0 : Fin 8)].pulseUs.toInt = 1900 ∧ (after (twoConns [1])).conn = 1 := by
  decide

/-- L3: a stop asserted in the control phase is seen at its end, `d = 10000`. -/
theorem test_L3 :
    (after { ready with delays := ⟨[10000], 0⟩, hostInputs := [(25000, .stop)] }).phase = .shutdown ∧
      (after { ready with delays := ⟨[10000], 0⟩, hostInputs := [(25000, .stop)] }).now = 30000 := by
  decide

/-- R27: a stop asserted during a wait is in `stop_requested` when the frame starts, and the frame runs (L3, R101). -/
theorem test_stop_in_wait :
    (after { waiting 30000 with hostInputs := [(35000, .stop)] }).stopRequested = true ∧
      (after { waiting 30000 with hostInputs := [(35000, .stop)] }).phase = .frame ∧
      (after { waiting 30000 with hostInputs := [(40001, .stop)] }).stopRequested = false := by
  decide

/-- R116, R117: what the host did before a reset does not survive it, what it does later does. -/
theorem test_reset_forgets :
    (after (after ({ waiting 30000 with hostInputs := [(10000, .stop), (20000, .connect 1)] } : State).applyReset)).phase
        = .wait ∧
      ({ waiting 30000 with hostInputs := [(10000, .connect 1), (30001, .stop)] } : State).applyReset.hostInputs =
        [(30001, .stop)] := by
  decide

/-- A query of connection 0, answered at 20005, and the host's closing of that connection at a given time. -/
def closingAt (t : Nat) : State :=
  after { ch0 with
    batch := some [(0, [encodeLine (.getPulse 0)])], delays := ⟨[5], 0⟩, hostInputs := [(t, .disconnect 0)] }

/-- R99, R109: a response to a connection closed by then is dropped, and one handed over before is not; the poll alone
sees the connection closed. -/
theorem test_disconnect_drops_response :
    (closingAt 20005).responses = [] ∧ (closingAt 20005).records = [(0, ⟨0, false, false⟩)] ∧
      (closingAt 20006).responses.length = 1 ∧ (closingAt 20005).conns = [⟨0, []⟩] := by
  decide

/-- L4: a stop before the first loop top. -/
theorem test_L4 : (after { State.reset with phase := .init, hostInputs := [(0, .stop)] }).phase = .shutdown := by decide

/-- IN1: the three fatal results. -/
theorem test_IN1 :
    (after { State.reset with phase := .init, regsOk := false }).phase = .failed ∧
      (after { State.reset with phase := .init, timerOk := false }).phase = .failed ∧
      (after { State.reset with phase := .init, endpointOk := false }).phase = .failed := by
  decide

/-- The start state of SD1. -/
def stopping : State :=
  (({ State.reset with phase := .shutdown, now := 70, delays := ⟨[0, 0, 0, 0, 0, 0], 0⟩ }.setCh 0
    (slot true true 17 1000 2000 1500)).setCh 3 (slot true false 4 1000 2000 1500)).setCh 5
    (slot true false 17 1000 2000 1500)

/-- SD1: the events of a shutdown. -/
theorem test_SD1 :
    (after stopping).trace =
      [⟨70, 17, .low⟩, ⟨70, 4, .low⟩, ⟨70, 17, .low⟩, ⟨70, 17, .input⟩, ⟨70, 4, .input⟩, ⟨70, 17, .input⟩] ∧
      (after stopping).ch[(0 : Fin 8)].enabled = false ∧ (after stopping).phase = .halted := by
  decide

/-! ## Witnesses: for every statement with hypotheses, states and operands that meet them -/

/-- Every step answers a next state, so `after` is it. -/
theorem step_after (s : State) : step s = .next (after s) := by
  obtain ⟨t, h, -⟩ := step_total s
  simp only [after, h]

/-- INV1 to INV7 of a channel, as a check. -/
def invCheck (c : Channel) : Bool :=
  decide (c.minUs.toInt < c.maxUs.toInt) && decide (500 ≤ c.minUs.toInt) && decide (c.maxUs.toInt ≤ 2500) &&
    decide (500 ≤ c.pulseUs.toInt ∧ c.pulseUs.toInt ≤ 2500) &&
    decide (c.minUs.toInt ≤ c.pulseUs.toInt ∧ c.pulseUs.toInt ≤ c.maxUs.toInt) &&
    decide (c.enabled = true → c.configured = true) && decide (c.pin.toNat ≤ 27)

theorem inv_of_check {c : Channel} (h : invCheck c = true) : c.Inv := by
  simp only [invCheck, Bool.and_eq_true, decide_eq_true_eq] at h
  obtain ⟨⟨⟨⟨⟨⟨h1, h2⟩, h3⟩, h4⟩, h5⟩, h6⟩, h7⟩ := h
  exact ⟨h1, h2, h3, h4, h5, h6, h7⟩

/-- A frame about to drive pins 17 and 27 with the shortest and the longest pulse, after both were set up. -/
def busy : State :=
  { (ready.setCh 0 (slot true true 17 500 501 500)).setCh 7 (slot true true 27 2499 2500 2500) with
    phase := .frame, now := 40000, served := 2, frameIndex := 2,
    trace := [⟨20000, 17, .output⟩, ⟨20000, 17, .low⟩, ⟨20000, 27, .output⟩, ⟨20000, 27, .low⟩] }

/-- The same, with its snapshot taken. -/
def running : State := { busy with snapshot := some (snapTable busy.ch) }

/-- The same, with channel 7 on channel 0's pin. -/
def sharing : State := busy.setCh 7 (slot true true 17 2499 2500 2500)

theorem busy_channelsSafe : busy.ChannelsSafe := by
  have h : ∀ c : Fin 8, invCheck busy.ch[c] = true := by decide
  exact fun c => inv_of_check (h c)

theorem running_snapshotLive : running.SnapshotLive := fun _ h => by cases h; exact ⟨rfl, rfl⟩

theorem busy_noPinHigh : busy.NoPinHigh := by
  intro p
  simp only [busy, tracedLevel, List.foldl_cons, List.foldl_nil, levelAfter]
  repeat' split
  all_goals simp

theorem running_snapLegal : SnapLegal (snapTable busy.ch) := by
  have h : ∀ c : Fin 8, (snapTable busy.ch)[c].enabled = true →
      500 ≤ (snapTable busy.ch)[c].pulseUs.toInt ∧ (snapTable busy.ch)[c].pulseUs.toInt ≤ 2500 := by decide
  exact h

/-- A state with one action before the reset and one after it. -/
theorem witness_ResetGivesResetValues :
    ({ ready with hostInputs := [(20000, .stop), (20001, .stop)] } : State).applyReset.hostInputs.head? =
      some (20001, .stop) := by
  decide

theorem witness_InitStartsTimerOrFails :
    ({ State.reset with phase := .init, endpointOk := false } : State).phase = .init ∧
      ({ State.reset with phase := .init, endpointOk := false } : State).endpointOk = false ∧
      ({ State.reset with phase := .init, now := 5 } : State).phase = .init ∧
      ({ State.reset with phase := .init, now := 5 } : State).regsOk = true ∧
      ({ State.reset with phase := .init, now := 5 } : State).timerOk = true ∧
      ({ State.reset with phase := .init, now := 5 } : State).endpointOk = true := by
  decide

theorem witness_HaltedAndFailedAreFinal :
    ({ ready with phase := .halted } : State).phase = .halted ∧
      ({ ready with phase := .failed } : State).phase = .failed := by
  decide

/-- Both edge timings; the second wait is entered one µs before the second expiry. -/
theorem witness_FrameWaitConsumesExpiries :
    (waiting 60000).phase = .wait ∧ (waiting 60000).edgeTiming = .exact ∧
      ({ waiting 59999 with edgeTiming := .lowerBound, delays := ⟨[1], 0⟩ } : State).phase = .wait ∧
      ({ waiting 59999 with edgeTiming := .lowerBound, delays := ⟨[1], 0⟩ } : State).edgeTiming = .lowerBound ∧
      ({ waiting 59999 with edgeTiming := .lowerBound, delays := ⟨[1], 0⟩ } : State).delays.given = [1] := by
  decide

/-- Every clause: a field that changes, and a set flag. -/
theorem witness_CountersChangeOnlyByTheirRules :
    (after { State.reset with phase := .init, now := 5, served := 1 }).tRun0 ≠ 0 ∧
      (after { State.reset with phase := .init, now := 5, served := 1 }).served ≠ 1 ∧
      (after (waiting 60000)).served ≠ 1 ∧ (after (waiting 60000)).overrunCount ≠ 0 ∧
      (after (waiting 60000)).frameIndex ≠ 1 ∧ ({ ready with stopRequested := true } : State).stopRequested = true ∧
      ({ ready with sharedPinFault := true } : State).sharedPinFault = true ∧
      sharing.sharedPinFault = false ∧ (after sharing).sharedPinFault = true := by
  decide

/-- Every phase takes a step. -/
theorem witness_PhasesFollowTheLoop :
    step State.reset = .next (after State.reset) ∧
      step { State.reset with phase := .init } = .next (after { State.reset with phase := .init }) ∧
      step (waiting 7) = .next (after (waiting 7)) ∧ step busy = .next (after busy) ∧
      step running = .next (after running) ∧ step ready = .next (after ready) ∧
      step stopping = .next (after stopping) ∧
      step { ready with phase := .halted } = .next (after { ready with phase := .halted }) ∧
      step { ready with phase := .failed } = .next (after { ready with phase := .failed }) :=
  ⟨step_after _, step_after _, step_after _, step_after _, step_after _, step_after _, step_after _, step_after _,
    step_after _⟩

theorem witness_FrameStartTakesSnapshot : busy.phase = .frame ∧ busy.snapshot = none := by decide

/-- The shortest and the longest legal pulse. -/
theorem witness_ExactFrameEmitsCommandedPulses :
    running.phase = .frame ∧ running.snapshot = some (snapTable busy.ch) ∧ running.edgeTiming = .exact ∧
      SnapLegal (snapTable busy.ch) :=
  ⟨rfl, rfl, rfl, running_snapLegal⟩

/-- Frames with enabled channels; `witness_IdleFrameEmitsNothing` has a snapshot with none. -/
theorem witness_LowerBoundFrameNeverCutsAPulse :
    ({ running with edgeTiming := .lowerBound } : State).phase = .frame ∧
      ({ running with edgeTiming := .lowerBound } : State).snapshot = some (snapTable busy.ch) ∧
      ({ running with edgeTiming := .lowerBound } : State).edgeTiming = .lowerBound ∧ SnapLegal (snapTable busy.ch) :=
  ⟨rfl, rfl, rfl, running_snapLegal⟩

theorem witness_IdleFrameEmitsNothing :
    ({ busy with snapshot := some (snapTable ready.ch) } : State).phase = .frame ∧
      ({ busy with snapshot := some (snapTable ready.ch) } : State).edgeTiming = .exact ∧
      ∀ c : Fin 8, (snapTable ready.ch)[c].enabled = false := by
  decide

theorem witness_FrameReadsOnlyItsSnapshot :
    running.phase = .frame ∧ running.snapshot = some (snapTable busy.ch) := ⟨rfl, rfl⟩

/-- Channel 0 is the shorter of two enabled channels on pin 17. -/
theorem witness_SharedPinFallsAtShortestPulse :
    ({ sharing with snapshot := some (snapTable sharing.ch) } : State).phase = .frame ∧
      ({ sharing with snapshot := some (snapTable sharing.ch) } : State).edgeTiming = .exact ∧
      (∀ c : Fin 8, (snapTable sharing.ch)[c].enabled = true →
        500 ≤ (snapTable sharing.ch)[c].pulseUs.toInt ∧ (snapTable sharing.ch)[c].pulseUs.toInt ≤ 2500) ∧
      (snapTable sharing.ch)[(0 : Fin 8)].enabled = true ∧
      ∀ d : Fin 8, (snapTable sharing.ch)[d].enabled = true →
        (snapTable sharing.ch)[d].pin = (snapTable sharing.ch)[(0 : Fin 8)].pin →
        width (snapTable sharing.ch) 0 ≤ width (snapTable sharing.ch) d := by
  decide

theorem witness_UnsharedPinIsHighForItsPulse :
    busy.phase = .frame ∧ busy.snapshot = none ∧ busy.edgeTiming = .exact ∧ busy.ChannelsSafe ∧
      busy.ch[(7 : Fin 8)].enabled = true ∧ ¬(after (after busy)).Faulted :=
  ⟨rfl, rfl, rfl, busy_channelsSafe, by decide, show ¬(after (after busy)).sharedPinFault = true by decide⟩

theorem witness_CommandsVisibleFromNextFrame :
    ready.phase = .control ∧ fetch ready = .drained ∧ step ready = .next (after ready) ∧
      (after ready).phase = .wait ∧ step (after ready) = .next (after (after ready)) ∧
      step (after (after ready)) = .next (after (after (after ready))) :=
  ⟨rfl, by decide, step_after _, by decide, step_after _, step_after _⟩

/-- One action is due exactly now, one is one µs away; an id in use and one that is not; a step that is no poll. -/
theorem witness_HostInputsTakeEffectInOrder :
    ({ ready with hostInputs := [(20000, .connect 3)] ++ [(20001, .stop)] } : State).hostInputs =
        [(20000, .connect 3)] ++ [(20001, .stop)] ∧
      (∀ x ∈ [((20000 : Nat), HostEvent.connect 3)], x.1 ≤ ready.now) ∧
      (∀ x, [((20001 : Nat), HostEvent.stop)].head? = some x → ready.now < x.1) ∧
      0 ∈ (ready.conns ++ ready.pending).map Conn.id ∧ 3 ∉ (ready.conns ++ ready.pending).map Conn.id ∧
      step ready = .next (after ready) ∧ ready.batch ≠ none := by
  refine ⟨rfl, by decide, fun x h => ?_, by decide, by decide, step_after _, by decide⟩
  cases h
  decide

theorem witness_PollTakesCompleteLines :
    ({ ready with batch := none, pending := [⟨3, [newline]⟩] } : State).phase = .control ∧
      ({ ready with batch := none, pending := [⟨3, [newline]⟩] } : State).batch = none := by
  decide

/-- No line left; lines left; and a choice of each of two connections. -/
theorem witness_AnyConnectionInItsOwnOrder :
    ready.phase = .control ∧ ready.batch = some [(0, [])] ∧ live [(0, ([] : List Line))] = [] ∧
      (twoConns [1]).phase = .control ∧
      ((twoConns [1]).batch.map fun b => (live b).length) = some 2 ∧
      (twoConns [1]).choices.given = [1] ∧ (twoConns [0]).choices.given = [0] := by
  decide

/-- A command, an illegal line and a line without a token, each about to be applied. -/
theorem witness_StepRunsDecodedLine :
    (∃ s', fetch { ch0 with batch := some [(0, [encodeLine (.getState 0)])] } = .line (encodeLine (.getState 0)) s') ∧
      decodeLine (encodeLine (.getState 0)) = .command (.getState 0) ∧
      (∃ s', fetch { ch0 with batch := some [(0, [[0x58]])] } = .line [0x58] s') ∧
      decodeLine [0x58] = .bad .unknownCommand ∧
      (∃ s', fetch { ch0 with batch := some [(0, [[]])] } = .line [] s') ∧ decodeLine [] = .blank :=
  ⟨⟨_, rfl⟩, by decide, ⟨_, rfl⟩, by decide, ⟨_, rfl⟩, by decide⟩

theorem witness_PlacedCommandRunsNext : decodeTableWord 96 0x0A4554415453203020544547 = some (.getState 0) := by decide

/-- No line is left, a draw of 7 is given, and a stop is due. -/
theorem witness_ControlPhaseEndsAfterItsDraw :
    ({ ready with delays := ⟨[7], 0⟩, hostInputs := [(20000, .stop)] } : State).phase = .control ∧
      fetch { ready with delays := ⟨[7], 0⟩, hostInputs := [(20000, .stop)] } = .drained ∧
      (∃ x ∈ [((20000 : Nat), HostEvent.stop)], x.2 = .stop) ∧
      ∀ x ∈ [((20000 : Nat), HostEvent.stop)], x.1 ≤ 20000 :=
  ⟨rfl, rfl, by decide, by decide⟩

theorem witness_ShutdownReleasesConfiguredPins : stopping.phase = .shutdown := rfl

/-- `SETUP`: channels 0 and 7, pins 0 and 27, and each operand just outside. -/
theorem witness_SetupConfiguresChannel :
    (0 : Int) ≤ 27 ∧ (27 : Int) ≤ 27 ∧ (0 : Int) ≤ 0 ∧ ((8 : Int) < 0 ∨ (7 : Int) < 8) ∧
      ((28 : Int) < 0 ∨ (27 : Int) < 28) ∧ ((-1 : Int) < 0 ∨ (27 : Int) < -1) := by
  decide

/-- A configured and an unconfigured channel. -/
theorem witness_EnableSetsEnabled :
    ch0.ch[(0 : Fin 8)].configured = true ∧ ch0.ch[(1 : Fin 8)].configured = false ∧
      ((8 : Int) < 0 ∨ (7 : Int) < 8) := by
  decide

theorem witness_DisableForcesPinLow :
    ch0.ch[(0 : Fin 8)].configured = true ∧ ch0.ch[(1 : Fin 8)].configured = false ∧
      ((-1 : Int) < 0 ∨ (7 : Int) < -1) := by
  decide

/-- SR12, the narrowest range that straddles 500, SR9, SR11 and SR13. -/
theorem witness_SetRangeClampsAndReclamps :
    (100 : Int) < 501 ∧ (500 : Int) = max 100 500 ∧ (501 : Int) = min 501 2500 ∧ (500 : Int) < 501 ∧
      (1500 : Int) = ch0.ch[(0 : Fin 8)].pulseUs.toInt ∧ (501 : Int) = max 500 (min 501 1500) ∧
      ((1500 : Int) ≤ 1500 ∨ (1500 : Int) ≤ 500 ∨ (2500 : Int) ≤ 1500) ∧
      ((500 : Int) ≤ 100 ∨ (500 : Int) ≤ 500 ∨ (2500 : Int) ≤ 100) ∧
      ((3000 : Int) ≤ 2500 ∨ (3000 : Int) ≤ 500 ∨ (2500 : Int) ≤ 2500) ∧ ((9 : Int) < 0 ∨ (7 : Int) < 9) := by
  decide

/-- SP4 (just below the minimum), SP2 (at it) and SP12. -/
theorem witness_SetPulseClampsTwice :
    ch0.ch[(0 : Fin 8)].configured = true ∧
      (1000 : Int) = (if (999 : Int) < ch0.ch[(0 : Fin 8)].minUs.toInt then ch0.ch[(0 : Fin 8)].minUs.toInt
        else if ch0.ch[(0 : Fin 8)].maxUs.toInt < 999 then ch0.ch[(0 : Fin 8)].maxUs.toInt else 999) ∧
      (1000 : Int) = (if (1000 : Int) < ch0.ch[(0 : Fin 8)].minUs.toInt then ch0.ch[(0 : Fin 8)].minUs.toInt
        else if ch0.ch[(0 : Fin 8)].maxUs.toInt < 1000 then ch0.ch[(0 : Fin 8)].maxUs.toInt else 1000) ∧
      (1000 : Int) = max 500 (min 2500 1000) ∧ ch0.ch[(1 : Fin 8)].configured = false ∧
      ((8 : Int) < 0 ∨ (7 : Int) < 8) := by
  decide

theorem witness_GetRangeAnswersRange : ((-1 : Int) < 0 ∨ (7 : Int) < -1) ∧ ((8 : Int) < 0 ∨ (7 : Int) < 8) := by decide
theorem witness_GetPulseAnswersPulse : ((-1 : Int) < 0 ∨ (7 : Int) < -1) ∧ ((8 : Int) < 0 ∨ (7 : Int) < 8) := by decide
theorem witness_GetStateAnswersPinAndEnable : ((-1 : Int) < 0 ∨ (7 : Int) < -1) ∧ ((8 : Int) < 0 ∨ (7 : Int) < 8) := by
  decide

/-- A refused command and its code. -/
theorem witness_RefusedCommandWritesNothing :
    exec (.setup 8 0) ch0 = .next (ch0.raiseError .invalidChannel) ∧ errorCode .invalidChannel ≠ 0 :=
  ⟨rfl, by decide⟩

theorem witness_CommandTouchesOnlyItsChannel :
    exec (.enable 0) ch0 = .next (run (.enable 0) ch0) ∧ (((1 : Fin 8).val : Nat) : Int) ≠ (Instr.enable 0).channel :=
  ⟨rfl, by decide⟩

/-- Each clause: an unknown verb, a syntax error, then each operand error at a boundary. -/
theorem witness_ErrorsInOrderOfPrecedence :
    (∀ kw ∈ [kwSetup, kwEnable, kwDisable, kwSet, kwGet], isKeyword [0x58] kw = false) ∧
      (∃ kw ∈ [kwSetup, kwEnable, kwDisable, kwSet, kwGet], isKeyword kwGet kw = true) ∧
      decodeTokens kwGet [] = .error .invalidCommand ∧
      ((Instr.setup 8 99).channel < 0 ∨ 7 < (Instr.setup 8 99).channel) ∧ ch0.ch[(1 : Fin 8)].configured = false ∧
      ((28 : Int) < 0 ∨ (27 : Int) < 28) ∧ ((500 : Int) ≤ 100 ∨ (500 : Int) ≤ 500 ∨ (2500 : Int) ≤ 100) := by
  decide

theorem witness_WellFormedCommandsPassOperandChecks :
    (Instr.setup 7 27).wellFormed = true ∧ (Instr.setup 7 28).wellFormed = false := by decide

theorem witness_LegalRangeReadsBack : (500 : Int) ≤ 500 ∧ (500 : Int) < 2500 ∧ (2500 : Int) ≤ 2500 := by decide

theorem witness_StoredPulseLiesInBothRanges : (busy.ch[(0 : Fin 8)]).Inv ∧ busy.ch[(0 : Fin 8)].configured = true :=
  ⟨busy_channelsSafe 0, by decide⟩

theorem witness_DisableTwiceIsIdempotent : ch0.ch[(0 : Fin 8)].configured = true := by decide

/-- One content that ends in no carriage return, and one of separators only. -/
theorem witness_CarriageReturnAndBlankLines :
    ([0x41] : Line).getLast? ≠ some carriageReturn ∧ (∀ b ∈ ([0x20, 0x09] : Line), isSeparator b = true) := by decide

/-- The first and the last byte that folds, the bytes beside them, and a keyword in lower case. -/
theorem witness_KeywordsFoldLowerCaseOnly :
    (0x61 ≤ (0x61#8).toNat ∧ (0x61#8).toNat ≤ 0x7A) ∧ (0x61 ≤ (0x7A#8).toNat ∧ (0x7A#8).toNat ≤ 0x7A) ∧
      ((0x60#8).toNat < 0x61 ∨ 0x7A < (0x60#8).toNat) ∧ ((0x7B#8).toNat < 0x61 ∨ 0x7A < (0x7B#8).toNat) ∧
      isKeyword [0x67, 0x65, 0x74] kwGet = true := by
  decide

theorem witness_TokensAreMaximalRuns :
    (∀ b ∈ ([0x20] : List Byte), isSeparator b = true) ∧
      (∀ x ∈ [(([0x47, 0x45, 0x54] : List Byte), ([0x20, 0x09] : List Byte))],
        x.1 ≠ [] ∧ (∀ b ∈ x.1, isSeparator b = false) ∧ x.2 ≠ [] ∧ ∀ b ∈ x.2, isSeparator b = true) ∧
      ∀ b ∈ ([0x30] : List Byte), isSeparator b = false := by
  decide

/-- Pin 17's latest mode and level events are followed by none of their kind; pin 0 has no event. -/
theorem witness_PinViewIsLatestEvent :
    busy.trace = [] ++ ⟨20000, 17, .output⟩ :: busy.trace.drop 1 ∧
      (∀ f ∈ busy.trace.drop 1, f.pin = 17 → f.act = .high ∨ f.act = .low) ∧
      busy.trace = busy.trace.take 1 ++ ⟨20000, 17, .low⟩ :: busy.trace.drop 2 ∧
      (∀ f ∈ busy.trace.drop 2, f.pin = 17 → f.act = .output ∨ f.act = .input) ∧
      (∀ f ∈ busy.trace, f.pin = 0 → f.act = .high ∨ f.act = .low) ∧
      (∀ f ∈ busy.trace, f.pin = 0 → f.act = .output ∨ f.act = .input) := by
  decide

/-- A frame that emits events from a safe state. -/
theorem witness_TraceGrowsByLawfulEvents :
    step running = .next (after running) ∧ running.ChannelsSafe ∧ running.SnapshotLive :=
  ⟨step_after _, busy_channelsSafe, running_snapshotLive⟩

theorem witness_OnlySetUpPinsAreTouched :
    running.ChannelsSafe ∧ running.SnapshotLive ∧ step running = .next (after running) :=
  ⟨busy_channelsSafe, running_snapshotLive, step_after _⟩

theorem witness_TableChangesOnlyByCommands :
    step stopping = .next (after stopping) ∧ stopping.phase ≠ .control ∧ stopping.ch[(0 : Fin 8)].configured = true :=
  ⟨step_after _, by decide, by decide⟩

theorem witness_StepKeepsChannelsSafe : busy.ChannelsSafe ∧ step busy = .next (after busy) :=
  ⟨busy_channelsSafe, step_after _⟩

theorem witness_StepKeepsSnapshotLive : running.SnapshotLive ∧ step running = .next (after running) :=
  ⟨running_snapshotLive, step_after _⟩

theorem witness_StepKeepsTraceOrdered : running.TraceOrdered ∧ step running = .next (after running) :=
  ⟨⟨by decide, by decide⟩, step_after _⟩

theorem witness_StepKeepsNoPinLastDrivenHigh : running.NoPinHigh ∧ step running = .next (after running) :=
  ⟨busy_noPinHigh, step_after _⟩

theorem witness_StepKeepsConfiguredPinsDriven :
    running.ConfiguredPinsDriven ∧ step running = .next (after running) := by
  refine ⟨fun _ => ?_, step_after _⟩
  have h : ∀ c : Fin 8, running.ch[c].configured = true →
      tracedMode running.trace running.ch[c].pin.toNat = some .output ∧
        tracedLevel running.trace running.ch[c].pin.toNat = some .low := by decide
  exact h

theorem witness_StepKeepsTimerConsistent :
    (waiting 60000).TimerConsistent ∧ (waiting 60000).NoFrameBeforeLoop ∧
      step (waiting 60000) = .next (after (waiting 60000)) :=
  ⟨fun _ => by decide, fun h => absurd h (by decide), step_after _⟩

theorem witness_StepKeepsConnectionsDistinct :
    (twoConns [0]).ConnsDistinct ∧ step (twoConns [0]) = .next (after (twoConns [0])) :=
  ⟨show ((((twoConns [0]).conns ++ (twoConns [0]).pending).map Conn.id).Nodup) by decide, step_after _⟩

/-- The reset state, and a run of one step. -/
theorem witness_PulsesNeverLeaveTheEnvelope :
    State.reset.HasResetValues ∧ core.run 1 State.reset = .next (releaseReset State.reset) := by
  refine ⟨?_, rfl⟩
  have h : ∀ c : Fin 8, State.reset.ch[c] = Channel.reset := by decide
  constructor <;> first
    | (intro c; rw [h c]; decide)
    | exact fun _ => ⟨rfl, rfl⟩
    | exact ⟨rfl, rfl, rfl⟩
    | rfl

end Sys2Proof.Tests
end

section
/-! What one step may write, phase by phase: the case a step takes in each phase, and the items it leaves alone. -/

namespace Sys2Proof.Machine

variable {s t : State}

/-! ## The case of each phase -/

theorem StepCase.of_init (h : StepCase s t) (hp : s.phase = .init) :
    t = { s with phase := .failed } ∨ t = loopTop (startTimer s) := by
  cases h with
  | initFailed => exact .inl rfl
  | started => exact .inr rfl
  | _ => simp_all

theorem StepCase.of_wait (h : StepCase s t) (hp : s.phase = .wait) : t = frameWait s := by
  cases h with
  | waited => rfl
  | _ => simp_all

theorem StepCase.of_frame (h : StepCase s t) (hp : s.phase = .frame) :
    (s.snapshot = none ∧ t = frameStart s) ∨ ∃ snap, s.snapshot = some snap ∧ t = frameEdges snap s := by
  cases h with
  | frameStarted _ hs => exact .inl ⟨hs, rfl⟩
  | frameRun _ snap hs => exact .inr ⟨snap, hs, rfl⟩
  | _ => simp_all

/-- A control phase polls, applies the line it has taken, or ends. -/
theorem StepCase.of_control (h : StepCase s t) (hp : s.phase = .control) :
    t = poll s ∨ (∃ u, LineTaken s u ∧ (t = u ∨ Effect u t)) ∨ t = endControl s := by
  cases h with
  | polled => exact .inl rfl
  | dropped _ _ _ hf => exact .inr (.inl ⟨_, (fetch_line hf).1, .inl rfl⟩)
  | answeredBad _ _ u hf kind => exact .inr (.inl ⟨u, (fetch_line hf).1, .inr (.refused kind)⟩)
  | executed _ _ u _ hf he => exact .inr (.inl ⟨u, (fetch_line hf).1, .inr he⟩)
  | ended => exact .inr (.inr rfl)
  | _ => simp_all

theorem StepCase.of_shutdown (h : StepCase s t) (hp : s.phase = .shutdown) : t = shutdown s := by
  cases h with
  | shut => rfl
  | _ => simp_all

theorem StepCase.of_reset (h : StepCase s t) (hp : s.phase = .reset) : t = { s with phase := .init } := by
  cases h with
  | released => rfl
  | _ => simp_all

theorem StepCase.of_final (h : StepCase s t) (hp : s.phase = .halted ∨ s.phase = .failed) : t = s.passTime := by
  cases h with
  | final => rfl
  | _ => simp_all

/-! ## What an operation leaves alone -/

/-- The wait writes the time, the expiries consumed, the two frame counters, the snapshot and the phase. -/
theorem frameWait_eq (s : State) :
    frameWait s = { s with
      now := (frameWait s).now, delays := (frameWait s).delays, served := (frameWait s).served,
      overrunCount := (frameWait s).overrunCount, frameIndex := (frameWait s).frameIndex,
      snapshot := none, phase := .frame } := by
  have h := State.onlyPins_lateness { s with now := s.startMin }
  unfold frameWait State.consumeExpiries
  rw [h]
  simp

/-- An applied line writes the table, the ports and the time, and takes itself out of the batch. -/
def OnlyLine (s t : State) : Prop :=
  t = { s with
    ch := t.ch, batch := t.batch, conn := t.conn, responses := t.responses, records := t.records,
    trace := t.trace, now := t.now, delays := t.delays, choices := t.choices }

theorem Effect.onlyLine (h : Effect s t) : OnlyLine s t := by
  cases h with
  | disabled c =>
    rcases (s.setCh c { s.ch[c] with enabled := false }).forceLow_cases c with e | ⟨-, e⟩ <;> rw [e] <;> rfl
  | _ => rfl

theorem LineTaken.onlyLine {u : State} (h : LineTaken s u) (ht : t = u ∨ Effect u t) : OnlyLine s t := by
  rcases ht with rfl | he
  · unfold OnlyLine; rw [h]
  · unfold OnlyLine; rw [he.onlyLine, h]

/-! ## What a step leaves alone -/

/-- The items that a step of each phase may write; it keeps every other one. -/
def PhaseWrites (s t : State) : Prop :=
  match s.phase with
  | .reset => t = { s with phase := t.phase }
  | .init => t = { s with
      phase := t.phase, tRun0 := t.tRun0, served := t.served, stopRequested := t.stopRequested }
  | .wait => t = { s with
      phase := t.phase, now := t.now, delays := t.delays, served := t.served, overrunCount := t.overrunCount,
      frameIndex := t.frameIndex, snapshot := t.snapshot }
  | .frame => t = { s with
      phase := t.phase, trace := t.trace, now := t.now, delays := t.delays, snapshot := t.snapshot,
      sharedPinFault := t.sharedPinFault, batch := t.batch }
  | .control => t = { s with
      phase := t.phase, stopRequested := t.stopRequested, conns := t.conns, pending := t.pending,
      hostInputs := t.hostInputs, batch := t.batch, conn := t.conn, ch := t.ch, responses := t.responses,
      records := t.records, trace := t.trace, now := t.now, delays := t.delays, choices := t.choices }
  | .shutdown => t = { s with
      phase := t.phase, ch := t.ch, trace := t.trace, now := t.now, delays := t.delays, conns := t.conns,
      pending := t.pending, batch := t.batch }
  | .halted => t = { s with now := t.now, delays := t.delays }
  | .failed => t = { s with now := t.now, delays := t.delays }

theorem StepCase.phaseWrites (h : StepCase s t) : PhaseWrites s t := by
  unfold PhaseWrites
  split
  case h_1 hp => rw [h.of_reset hp]
  case h_2 hp =>
    rcases h.of_init hp with rfl | rfl
    · rfl
    · rw [loopTop_eq]; rfl
  case h_3 hp => rw [h.of_wait hp, frameWait_eq]
  case h_4 hp =>
    rcases h.of_frame hp with ⟨-, rfl⟩ | ⟨snap, -, rfl⟩
    · rfl
    · rw [frameEdges_eq]
  case h_5 hp =>
    rcases h.of_control hp with rfl | ⟨u, hu, ht⟩ | rfl
    · rw [poll_eq, s.onlyHost_deliver]
    · rw [hu.onlyLine ht]
    · rw [endControl, loopTop_eq]; rfl
  case h_6 hp =>
    obtain ⟨-, -, -, e⟩ := shutdown_spec s
    rw [h.of_shutdown hp, e]
  case h_7 hp => rw [h.of_final (.inl hp)]; rfl
  case h_8 hp => rw [h.of_final (.inr hp)]; rfl

theorem StepCase.parametersKept (h : StepCase s t) :
    t.edgeTiming = s.edgeTiming ∧ t.regsOk = s.regsOk ∧ t.timerOk = s.timerOk ∧ t.endpointOk = s.endpointOk ∧
      t.resets = s.resets := by
  have hw := h.phaseWrites
  unfold PhaseWrites at hw
  split at hw <;> rw [hw] <;> exact ⟨rfl, rfl, rfl, rfl, rfl⟩

theorem StepCase.timerKept (h : StepCase s t) (hi : s.phase ≠ .init) (hw : s.phase ≠ .wait) :
    t.tRun0 = s.tRun0 ∧ t.served = s.served ∧ t.overrunCount = s.overrunCount ∧ t.frameIndex = s.frameIndex := by
  have e := h.phaseWrites
  unfold PhaseWrites at e
  split at e
  case h_2 hp => exact absurd hp hi
  case h_3 hp => exact absurd hp hw
  all_goals
    rw [e]
    exact ⟨rfl, rfl, rfl, rfl⟩

theorem StepCase.sharedPinFault_kept (h : StepCase s t) (hf : s.phase ≠ .frame) :
    t.sharedPinFault = s.sharedPinFault := by
  have e := h.phaseWrites
  unfold PhaseWrites at e
  split at e
  case h_4 hp => exact absurd hp hf
  all_goals rw [e]

theorem StepCase.snapshot_kept (h : StepCase s t) (hw : s.phase ≠ .wait) (hf : s.phase ≠ .frame) :
    t.snapshot = s.snapshot := by
  have e := h.phaseWrites
  unfold PhaseWrites at e
  split at e
  case h_3 hp => exact absurd hp hw
  case h_4 hp => exact absurd hp hf
  all_goals rw [e]

theorem StepCase.answersKept (h : StepCase s t) (hc : s.phase ≠ .control) :
    t.responses = s.responses ∧ t.records = s.records := by
  have e := h.phaseWrites
  unfold PhaseWrites at e
  split at e
  case h_5 hp => exact absurd hp hc
  all_goals
    rw [e]
    exact ⟨rfl, rfl⟩

theorem StepCase.ch_kept (h : StepCase s t) (hc : s.phase ≠ .control) (hs : s.phase ≠ .shutdown) : t.ch = s.ch := by
  have e := h.phaseWrites
  unfold PhaseWrites at e
  split at e
  case h_5 hp => exact absurd hp hc
  case h_6 hp => exact absurd hp hs
  all_goals rw [e]

theorem StepCase.stopSide_kept (h : StepCase s t) (hi : s.phase ≠ .init) (hc : s.phase ≠ .control) :
    t.stopRequested = s.stopRequested ∧ t.hostInputs = s.hostInputs := by
  have e := h.phaseWrites
  unfold PhaseWrites at e
  split at e
  case h_2 hp => exact absurd hp hi
  case h_5 hp => exact absurd hp hc
  all_goals
    rw [e]
    exact ⟨rfl, rfl⟩

end Sys2Proof.Machine
end

section
/-! The channel table: what can be written to one slot, and that every such write keeps INV1 to INV7
(10_state.md R20, R22). -/

namespace Sys2Proof.Machine

variable {s t : State}

/-- Everything that is ever written to a slot that held `old`. -/
inductive SlotWrite (old : Channel) : Channel → Prop
  | setup (q : PinWord) (hq : q.toNat ≤ 27) : SlotWrite old (setupChannel q)
  | enabled (h : old.configured = true) : SlotWrite old { old with enabled := true }
  | disabled : SlotWrite old { old with enabled := false }
  | ranged (lo hi : Int) (h0 : 500 ≤ lo) (h : lo < hi) (h1 : hi ≤ 2500) : SlotWrite old (rangedChannel old lo hi)
  | pulsed (v : Int) : SlotWrite old { old with pulseUs := toField (clampedPulse old v) }

/-! ## Writes to a slot -/

theorem Channel.reset_inv : Channel.reset.Inv where
  inv1 := by decide
  inv2 := by decide
  inv3 := by decide
  inv4 := by decide
  inv5 := by decide
  inv6 := nofun
  inv7 := by decide

/-- `SETUP` leaves the reset values but for the pin and `configured` (40_channel_config.md R65). -/
theorem setupChannel_inv {q : PinWord} (hq : q.toNat ≤ 27) : (setupChannel q).Inv where
  inv1 := Channel.reset_inv.inv1
  inv2 := Channel.reset_inv.inv2
  inv3 := Channel.reset_inv.inv3
  inv4 := Channel.reset_inv.inv4
  inv5 := Channel.reset_inv.inv5
  inv6 := nofun
  inv7 := hq

/-- A new range holds the pulse it moves into it (41_range_pulse.md R72). -/
theorem Channel.Inv.ranged {ch : Channel} (h : ch.Inv) {lo hi : Int} (h0 : 500 ≤ lo) (hlt : lo < hi) (h1 : hi ≤ 2500) :
    (rangedChannel ch lo hi).Inv := by
  have hp := reclampedPulse_eq (old := ch.pulseUs.toInt) h0 hlt.le h1
  have hmin : (rangedChannel ch lo hi).minUs.toInt = lo := toInt_toField h0 (by omega)
  have hmax : (rangedChannel ch lo hi).maxUs.toInt = hi := toInt_toField (by omega) h1
  have hpulse : (rangedChannel ch lo hi).pulseUs.toInt = max lo (min hi ch.pulseUs.toInt) := by
    rw [← hp]; exact toInt_toField (by omega) (by omega)
  constructor
  case inv6 => exact h.inv6
  case inv7 => exact h.inv7
  all_goals omega

/-- Any pulse in the channel's range will do. -/
theorem Channel.Inv.withPulse {ch : Channel} (h : ch.Inv) {p : MicroWord}
    (hp : ch.minUs.toInt ≤ p.toInt ∧ p.toInt ≤ ch.maxUs.toInt) : ({ ch with pulseUs := p } : Channel).Inv :=
  ⟨h.inv1, h.inv2, h.inv3, ⟨h.inv2.trans hp.1, hp.2.trans h.inv3⟩, hp, h.inv6, h.inv7⟩

/-- `SET PULSE` stores a pulse in the channel's range (41_range_pulse.md R74). -/
theorem Channel.Inv.clampedPulse_mem {ch : Channel} (h : ch.Inv) (v : Int) :
    ch.minUs.toInt ≤ (toField (clampedPulse ch v)).toInt ∧ (toField (clampedPulse ch v)).toInt ≤ ch.maxUs.toInt := by
  obtain ⟨hlt, hmin, hmax, -, -, -, -⟩ := h
  have hp : clampedPulse ch v = max ch.minUs.toInt (min ch.maxUs.toInt v) := by
    rw [clampedPulse, absoluteClamp_eq, clamp_of_le hlt.le]; omega
  rw [toInt_toField (by omega) (by omega)]
  omega

theorem SlotWrite.inv {old new : Channel} (hw : SlotWrite old new) (h : old.Inv) : new.Inv := by
  cases hw with
  | setup q hq => exact setupChannel_inv hq
  | enabled hc => exact ⟨h.inv1, h.inv2, h.inv3, h.inv4, h.inv5, fun _ => hc, h.inv7⟩
  | disabled => exact ⟨h.inv1, h.inv2, h.inv3, h.inv4, h.inv5, nofun, h.inv7⟩
  | ranged lo hi h0 hlt h1 => exact h.ranged h0 hlt h1
  | pulsed v => exact h.withPulse (h.clampedPulse_mem v)

theorem SlotWrite.configured {old new : Channel} (hw : SlotWrite old new) (h : old.configured = true) :
    new.configured = true := by
  cases hw with
  | setup => rfl
  | _ => exact h

/-! ## Writes to the table -/

theorem Effect.ch (h : Effect s t) :
    t.ch = s.ch ∨ ∃ (c : Fin 8) (v : Channel), t.ch = s.ch.set c v ∧ SlotWrite s.ch[c] v := by
  cases h with
  | refused | queried => exact .inl rfl
  | setup c q hq => exact .inr ⟨c, _, rfl, .setup q hq⟩
  | enabled c hc => exact .inr ⟨c, _, rfl, .enabled hc⟩
  | disabled c =>
    refine .inr ⟨c, _, ?_, .disabled⟩
    rcases (s.setCh c { s.ch[c] with enabled := false }).forceLow_cases c with e | ⟨-, e⟩ <;> rw [e] <;> rfl
  | ranged c lo hi h0 hlt h1 => exact .inr ⟨c, _, rfl, .ranged lo hi h0 hlt h1⟩
  | pulsed c v => exact .inr ⟨c, _, rfl, .pulsed v⟩

theorem Effect.slot (h : Effect s t) (d : Fin 8) : t.ch[d] = s.ch[d] ∨ SlotWrite s.ch[d] t.ch[d] := by
  rcases h.ch with e | ⟨c, v, e, hw⟩
  · exact .inl (by rw [e])
  · rw [e]
    by_cases hd : d = c
    · subst hd
      exact .inr ((s.setCh_getElem_self d v).symm ▸ hw)
    · exact .inl (s.setCh_getElem_ne c d v hd)

theorem LineTaken.ch {u : State} (h : LineTaken s u) : u.ch = s.ch := by rw [h]

theorem endControl_ch (s : State) : (endControl s).ch = s.ch := by rw [endControl, loopTop_eq]; rfl

theorem poll_ch (s : State) : (poll s).ch = s.ch := by rw [poll_eq]; exact s.deliver_ch

theorem StepCase.slot_of_shutdown (h : StepCase s t) (hs : s.phase = .shutdown) (c : Fin 8) :
    t.ch[c] = { s.ch[c] with enabled := false } := by
  rw [h.of_shutdown hs]
  exact (shutdown_spec s).1 c

/-- A step keeps a slot or makes one of the writes to it. -/
theorem StepCase.slot (h : StepCase s t) (c : Fin 8) : t.ch[c] = s.ch[c] ∨ SlotWrite s.ch[c] t.ch[c] := by
  by_cases hs : s.phase = .shutdown
  · rw [h.slot_of_shutdown hs c]
    exact .inr .disabled
  by_cases hc : s.phase = .control
  · rcases h.of_control hc with rfl | ⟨u, hu, rfl | he⟩ | rfl
    · rw [poll_ch]; exact .inl rfl
    · rw [hu.ch]; exact .inl rfl
    · rw [← hu.ch]; exact he.slot c
    · rw [endControl_ch]; exact .inl rfl
  · rw [h.ch_kept hc hs]; exact .inl rfl

theorem StepCase.channelsSafe (h : StepCase s t) (hs : s.ChannelsSafe) : t.ChannelsSafe := fun c => by
  rcases h.slot c with e | hw
  · exact e ▸ hs c
  · exact hw.inv (hs c)

/-- Settles O50: every write to a slot keeps the seven invariants, and a step makes no other change to the table. -/
theorem stepKeepsChannelsSafe : Obligations.StepKeepsChannelsSafe := by
  intro s t hs h
  obtain ⟨u, rfl, hc⟩ := step_case h
  exact hc.channelsSafe hs

/-- Settles O49: outside CONTROL and SHUTDOWN the table stands, and no write to a slot clears `configured`. -/
theorem tableChangesOnlyByCommands : Obligations.TableChangesOnlyByCommands := by
  intro s t h
  obtain ⟨u, rfl, hc⟩ := step_case h
  refine ⟨fun hp => ?_, fun c hconf => ?_⟩
  · obtain ⟨hresp, hrec⟩ := hc.answersKept hp
    refine ⟨hresp, hrec, fun c => ?_⟩
    by_cases hs : s.phase = .shutdown
    · exact .inr ⟨hs, hc.slot_of_shutdown hs c⟩
    · exact .inl (congrArg (·[c]) (hc.ch_kept hp hs))
  · rcases hc.slot c with e | hw
    · exact (congrArg Channel.configured e).trans hconf
    · exact hw.configured hconf

end Sys2Proof.Machine
end

section
/-! The pin trace: what a step appends to it, when, and for which reason (10_state.md R33, 46_control_loop.md R97). -/

namespace Sys2Proof.Machine

variable {s t u : State} {P : PinEvent → Prop}

/-! ## Traces that grow -/

/-- The trace of `t` is that of `s` and events between the two times, each of which meets `P`. -/
def TraceGrows (P : PinEvent → Prop) (s t : State) : Prop :=
  s.now ≤ t.now ∧ ∃ es, t.trace = s.trace ++ es ∧ EventsBetween s.now t.now es ∧ ∀ e ∈ es, P e

theorem TraceGrows.of_quiet (htrace : t.trace = s.trace) (hnow : s.now ≤ t.now) : TraceGrows P s t :=
  ⟨hnow, [], by rw [htrace, List.append_nil], EventsBetween.nil _ _, by simp⟩

theorem TraceGrows.trans (h : TraceGrows P s t) (h' : TraceGrows P t u) : TraceGrows P s u := by
  obtain ⟨hn, es, ht, hb, hP⟩ := h
  obtain ⟨hn', fs, ht', hb', hP'⟩ := h'
  refine ⟨hn.trans hn', es ++ fs, by rw [ht', ht, List.append_assoc], hb.append hb' hn hn', fun e he => ?_⟩
  exact (List.mem_append.1 he).elim (hP e) (hP' e)

theorem TraceGrows.imp {Q : PinEvent → Prop} (h : TraceGrows P s t) (hPQ : ∀ e, P e → Q e) : TraceGrows Q s t := by
  obtain ⟨hn, es, ht, hb, hP⟩ := h
  exact ⟨hn, es, ht, hb, fun e he => hPQ e (hP e he)⟩

theorem State.traceGrows_emit (s : State) {pin : PinWord} {act : PinAct}
    (h : ∀ time, P ⟨time, pin.toNat, act⟩) : TraceGrows P s (s.emit pin act) :=
  ⟨s.now_le_passTime, _, rfl, by simp [EventsBetween, s.now_le_passTime], by simpa using h _⟩

/-- Events whose deeds are those of a row of channels: each is the deed of one of them. -/
theorem exists_of_map_deed {es : List PinEvent} {cs : List (Fin 8)} {f : Fin 8 → Nat × PinAct}
    (h : es.map PinEvent.deed = cs.map f) {e : PinEvent} (he : e ∈ es) : ∃ c ∈ cs, f c = (e.pin, e.act) :=
  List.mem_map.1 (h ▸ List.mem_map_of_mem he)

/-! ## Why a pin event comes -/

/-- A configured channel holds the pin. -/
def HeldPin (ch : Vector Channel 8) (p : Nat) : Prop := ∃ c : Fin 8, ch[c].configured = true ∧ ch[c].pin.toNat = p

/-- Why an event comes in a step from `s` that leaves the table `ch`: an edge of an enabled channel of the snapshot, a
command on a channel it leaves configured, or the shutdown of a configured channel. -/
inductive EventCause (s : State) (ch : Vector Channel 8) (e : PinEvent) : Prop
  | edge (hp : s.phase = .frame) (snap : Vector SnapEntry 8) (hs : s.snapshot = some snap) (c : Fin 8)
      (hen : snap[c].enabled = true) (hpin : snap[c].pin.toNat = e.pin) (hact : e.act = .high ∨ e.act = .low)
  | command (hp : s.phase = .control) (hpin : HeldPin ch e.pin) (hact : e.act = .output ∨ e.act = .low)
  | shut (hp : s.phase = .shutdown) (hpin : HeldPin ch e.pin) (hact : e.act = .low ∨ e.act = .input)

/-! ### Frames -/

/-- An event is an edge of an enabled channel. -/
def EdgeOf (snap : Vector SnapEntry 8) (e : PinEvent) : Prop :=
  ∃ c : Fin 8, snap[c].enabled = true ∧ snap[c].pin.toNat = e.pin ∧ (e.act = .high ∨ e.act = .low)

/-- Deeds of the enabled channels of a row, all of one action: the events are edges. -/
theorem edgeOf_of_map_deed {snap : Vector SnapEntry 8} {cs : List (Fin 8)} {act : PinAct} {es : List PinEvent}
    (hact : act = .high ∨ act = .low)
    (h : es.map PinEvent.deed = (cs.filter fun c => snap[c].enabled).map fun c => (snap[c].pin.toNat, act)) :
    ∀ e ∈ es, EdgeOf snap e := by
  intro e he
  obtain ⟨c, hc, hd⟩ := exists_of_map_deed h he
  obtain ⟨hpin, rfl⟩ := Prod.mk.inj hd
  exact ⟨c, (List.mem_filter.1 hc).2, hpin, hact⟩

theorem risePhase_traceGrows (snap : Vector SnapEntry 8) (s : State) :
    TraceGrows (EdgeOf snap) s (risePhase snap s) := by
  unfold risePhase
  split
  · exact .of_quiet s.lateness_trace s.now_le_lateness
  · obtain ⟨es, ht, hd, hb, hn, -⟩ := highEdges_events snap channelIds s
    exact ⟨hn, es, ht, hb, edgeOf_of_map_deed (.inl rfl) hd⟩

theorem frameEdges_traceGrows (snap : Vector SnapEntry 8) (s : State) :
    TraceGrows (EdgeOf snap) s (frameEdges snap s) := by
  obtain ⟨es, ht, hd, hb, hn⟩ := lowEdges_events snap (frameOrder snap) 0 (risePhase snap s)
  have lows : TraceGrows (EdgeOf snap) (risePhase snap s) (lowEdges snap (frameOrder snap) 0 (risePhase snap s)) :=
    ⟨hn, es, ht, hb, edgeOf_of_map_deed (.inr rfl) hd⟩
  unfold frameEdges
  exact ((risePhase_traceGrows snap s).trans lows).trans (.of_quiet rfl le_rfl)

/-! ### Commands -/

/-- An event is a command's, on a pin the table `ch` holds. -/
def CommandEvent (ch : Vector Channel 8) (e : PinEvent) : Prop :=
  HeldPin ch e.pin ∧ (e.act = .output ∨ e.act = .low)

theorem State.traceGrows_succeed (s : State) (text : List Byte) (rc pc : Bool) :
    TraceGrows P s (s.succeed text rc pc) :=
  .of_quiet rfl s.now_le_passTime

/-- A configured slot's pin is held once the slot is written. -/
theorem heldPin_setCh (s : State) (c : Fin 8) {v : Channel} (h : v.configured = true) :
    HeldPin (s.setCh c v).ch v.pin.toNat :=
  ⟨c, by rw [State.setCh_getElem_self]; exact h, by rw [State.setCh_getElem_self]⟩

theorem Effect.traceGrows (h : Effect s t) : TraceGrows (CommandEvent t.ch) s t := by
  cases h with
  | setup c q hq =>
    have held : HeldPin (s.setCh c (setupChannel q)).ch q.toNat := heldPin_setCh s c rfl
    exact (((s.setCh c (setupChannel q)).traceGrows_emit fun _ => ⟨held, .inl rfl⟩).trans
      (State.traceGrows_emit _ fun _ => ⟨held, .inr rfl⟩)).trans (State.traceGrows_succeed _ _ _ _)
  | disabled c =>
    rcases (s.setCh c { s.ch[c] with enabled := false }).forceLow_cases c with e | ⟨hconf, e⟩
    · rw [e]
      exact .of_quiet rfl s.now_le_passTime
    · rw [e]
      refine ((s.setCh c _).traceGrows_emit fun _ => ⟨?_, .inr rfl⟩).trans (State.traceGrows_succeed _ _ _ _)
      exact ⟨c, hconf, rfl⟩
  | _ => exact .of_quiet rfl s.now_le_passTime

/-! ### The whole step -/

theorem State.now_lt_of_avail_eq_zero {s : State} (h : s.avail s.now = 0) :
    s.now < s.tRun0 + (s.served + 1) * Config.framePeriodUs := by
  unfold State.avail Config.framePeriodUs at *
  omega

theorem State.now_le_startMin (s : State) : s.now ≤ s.startMin := by
  unfold State.startMin
  split
  · exact le_rfl
  · exact (State.now_lt_of_avail_eq_zero (by omega)).le

theorem frameWait_now_le (s : State) : s.startMin ≤ (frameWait s).now :=
  State.now_le_lateness { s with now := s.startMin }

theorem LineTaken.traceGrows (h : LineTaken s u) : TraceGrows P s u :=
  .of_quiet (by rw [h]) (by rw [h])

theorem poll_traceGrows (s : State) : TraceGrows P s (poll s) := by
  rw [poll_eq]
  exact .of_quiet s.deliver_trace s.deliver_now.ge

theorem endControl_traceGrows (s : State) : TraceGrows P s (endControl s) := by
  rw [endControl, loopTop_eq]
  exact .of_quiet rfl s.now_le_passTime

theorem shutdown_traceGrows (s : State) :
    TraceGrows (fun e => HeldPin s.ch e.pin ∧ (e.act = .low ∨ e.act = .input)) s (shutdown s) := by
  obtain ⟨-, hn, ⟨es, ht, hb, hd⟩, -⟩ := shutdown_spec s
  refine ⟨hn, es, ht, hb, fun e he => ?_⟩
  have hmem : e.deed ∈ es.map PinEvent.deed := List.mem_map_of_mem he
  rw [hd, List.mem_append, List.mem_map, List.mem_map] at hmem
  rcases hmem with ⟨c, hc, hd⟩ | ⟨c, hc, hd⟩ <;> obtain ⟨hpin, hact⟩ := Prod.mk.inj hd
  · exact ⟨⟨c, (List.mem_filter.1 hc).2, hpin⟩, .inl hact.symm⟩
  · exact ⟨⟨c, (List.mem_filter.1 hc).2, hpin⟩, .inr hact.symm⟩

theorem HeldPin.of_shutdown {p : Nat} (h : HeldPin s.ch p)
    (ht : ∀ c : Fin 8, t.ch[c] = { s.ch[c] with enabled := false }) : HeldPin t.ch p := by
  obtain ⟨c, hc, hp⟩ := h
  exact ⟨c, by rw [ht c]; exact hc, by rw [ht c]; exact hp⟩

theorem StepCase.traceGrows (h : StepCase s t) : TraceGrows (EventCause s t.ch) s t := by
  cases hp : s.phase with
  | reset => rw [h.of_reset hp]; exact .of_quiet rfl le_rfl
  | init =>
    rcases h.of_init hp with rfl | rfl
    · exact .of_quiet rfl le_rfl
    · rw [loopTop_eq]; exact .of_quiet rfl le_rfl
  | wait =>
    rw [h.of_wait hp]
    exact .of_quiet (by rw [frameWait_eq]) (s.now_le_startMin.trans (frameWait_now_le s))
  | frame =>
    rcases h.of_frame hp with ⟨-, rfl⟩ | ⟨snap, hs, rfl⟩
    · exact .of_quiet rfl le_rfl
    · exact (frameEdges_traceGrows snap s).imp fun e ⟨c, hen, hpin, hact⟩ => .edge hp snap hs c hen hpin hact
  | control =>
    rcases h.of_control hp with rfl | ⟨u, hu, rfl | he⟩ | rfl
    · exact poll_traceGrows s
    · exact hu.traceGrows
    · exact hu.traceGrows.trans (he.traceGrows.imp fun e ⟨hpin, hact⟩ => .command hp hpin hact)
    · exact endControl_traceGrows s
  | shutdown =>
    have hch := h.slot_of_shutdown hp
    have hg := shutdown_traceGrows s
    rw [← h.of_shutdown hp] at hg
    exact hg.imp fun e ⟨hpin, hact⟩ => .shut hp (hpin.of_shutdown hch) hact
  | halted => rw [h.of_final (.inl hp)]; exact .of_quiet rfl s.now_le_passTime
  | failed => rw [h.of_final (.inr hp)]; exact .of_quiet rfl s.now_le_passTime

theorem step_traceGrows (h : step s = .next t) : TraceGrows (EventCause s t.ch) s t := by
  obtain ⟨u, rfl, hc⟩ := step_case h
  exact hc.traceGrows

/-- From a safe state with a live snapshot every event is for a pin that a channel left configured holds. -/
theorem EventCause.heldPin {e : PinEvent} (h : EventCause s t.ch e) (hstep : step s = .next t) (hs : s.ChannelsSafe)
    (hl : s.SnapshotLive) : HeldPin t.ch e.pin := by
  cases h with
  | edge hp snap hsnap c hen hpin =>
    obtain ⟨u, rfl, hc⟩ := step_case hstep
    have hch : u.ch = s.ch := hc.ch_kept (by simp [hp]) (by simp [hp])
    obtain ⟨-, rfl⟩ := hl snap hsnap
    rw [snapTable_getElem] at hen hpin
    rw [State.landStop_ch, hch]
    exact ⟨c, (hs c).inv6 hen, hpin⟩
  | command _ hpin => exact hpin
  | shut _ hpin => exact hpin

/-! ## The statements about the trace -/

/-- Settles O48: the cause of an event names the channel that holds its pin. -/
theorem onlySetUpPinsAreTouched : Obligations.OnlySetUpPinsAreTouched := by
  intro s t hs hl h
  obtain ⟨-, es, ht, -, hcause⟩ := step_traceGrows h
  exact ⟨es, ht, fun e he => (hcause e he).heldPin h hs hl⟩

theorem EventCause.phase_of_act {ch : Vector Channel 8} {e : PinEvent} (h : EventCause s ch e) :
    (e.act = .high → s.phase = .frame) ∧
      (e.act = .low → s.phase = .frame ∨ s.phase = .control ∨ s.phase = .shutdown) ∧
      (e.act = .output → s.phase = .control) ∧ (e.act = .input → s.phase = .shutdown) := by
  cases h with
  | edge hp _ _ _ _ _ hact => rcases hact with ha | ha <;> simp [ha, hp]
  | command hp _ hact => rcases hact with ha | ha <;> simp [ha, hp]
  | shut hp _ hact => rcases hact with ha | ha <;> simp [ha, hp]

/-- Settles O47: by the cause of each event; a held pin is at most 27 because the table after the step is safe. -/
theorem traceGrowsByLawfulEvents : Obligations.TraceGrowsByLawfulEvents := by
  intro s t h
  obtain ⟨hn, es, ht, hb, hcause⟩ := step_traceGrows h
  refine ⟨hn, es, ht, hb, fun e he => ?_⟩
  obtain ⟨hhigh, hlow, hout, hin⟩ := (hcause e he).phase_of_act
  refine ⟨hhigh, hlow, hout, hin, fun hs hl => ?_⟩
  obtain ⟨c, -, hpin⟩ := (hcause e he).heldPin h hs hl
  exact hpin ▸ (stepKeepsChannelsSafe s t hs h c).inv7

theorem TraceGrows.traceOrdered (h : TraceGrows P s t) (hs : s.TraceOrdered) : t.TraceOrdered := by
  obtain ⟨hn, es, ht, ⟨hsorted, hwithin⟩, -⟩ := h
  obtain ⟨hold, hpast⟩ := hs
  unfold State.TraceOrdered
  rw [ht]
  refine ⟨List.pairwise_append.2 ⟨hold, hsorted, fun e he f hf => (hpast e he).trans (hwithin f hf).1⟩, fun e he => ?_⟩
  rcases List.mem_append.1 he with he | he
  · exact (hpast e he).trans hn
  · exact (hwithin e he).2

/-- Settles O52: the events a step appends lie between its two times, in order. -/
theorem stepKeepsTraceOrdered : Obligations.StepKeepsTraceOrdered := fun _ _ hs h => (step_traceGrows h).traceOrdered hs

end Sys2Proof.Machine
end

section
/-! The loop: phases, the stop request, the frame timer and its counters, the snapshot (10_state.md R23 to R29). -/

namespace Sys2Proof.Machine

variable {s t u : State}

/-! ## Phases -/

theorem loopTop_landStop_stopRequested (s : State) :
    (loopTop s).landStop.stopRequested = s.landStop.stopRequested := by
  rw [loopTop_eq]
  exact (congrArg State.stopRequested s.landStop_landStop :)

/-- The top of the loop goes to the shutdown or to the wait, as the stop request says. -/
theorem loopTop_phase (s : State) :
    ((loopTop s).landStop.phase = .shutdown ∧ (loopTop s).landStop.stopRequested = true) ∨
      ((loopTop s).landStop.phase = .wait ∧ (loopTop s).landStop.stopRequested = false) := by
  rw [loopTop_landStop_stopRequested, loopTop_eq]
  cases h : s.landStop.stopRequested
  · exact .inr ⟨rfl, rfl⟩
  · exact .inl ⟨rfl, rfl⟩

theorem OnlyLine.phase (h : OnlyLine s t) : t.phase = s.phase := by rw [h]

theorem poll_phase (s : State) : (poll s).phase = s.phase := by rw [poll_eq]; exact s.deliver_phase

theorem shutdown_phase (s : State) : (shutdown s).phase = .halted := rfl

/-- Settles O7, phase by phase. -/
theorem phasesFollowTheLoop : Obligations.PhasesFollowTheLoop := by
  intro s t h
  obtain ⟨u, rfl, hc⟩ := step_case h
  split
  case h_1 hp => rw [hc.of_reset hp]; rfl
  case h_2 hp =>
    rcases hc.of_init hp with rfl | rfl
    · exact .inl rfl
    · exact .inr (loopTop_phase _)
  case h_3 hp => rw [hc.of_wait hp]; rfl
  case h_4 hp =>
    rcases hc.of_frame hp with ⟨hs, rfl⟩ | ⟨snap, hs, rfl⟩
    · exact .inl ⟨hs, hp⟩
    · exact .inr ⟨by simp [hs], rfl⟩
  case h_5 hp =>
    rcases hc.of_control hp with rfl | ⟨v, hv, hu⟩ | rfl
    · exact .inl ((poll_phase s).trans hp)
    · exact .inl ((hv.onlyLine hu).phase.trans hp)
    · exact .inr (loopTop_phase _)
  case h_6 hp => rw [hc.of_shutdown hp]; exact shutdown_phase s
  case h_7 hp => rw [hc.of_final (.inl hp)]; exact hp
  case h_8 hp => rw [hc.of_final (.inr hp)]; exact hp

/-! ## The stop request -/

theorem State.stopDue_congr (hinputs : t.hostInputs = s.hostInputs) (hnow : t.now = s.now) : t.stopDue = s.stopDue := by
  simp only [State.stopDue, State.dueInputs, hinputs, hnow]

/-- A stop that is due at the time a step ends. -/
theorem State.landStop_stopRequested_of_kept (hstop : t.stopRequested = s.stopRequested)
    (hinputs : t.hostInputs = s.hostInputs) :
    t.landStop.stopRequested = (s.stopRequested || ({ s with now := t.now } : State).stopDue) := by
  have hdue : t.stopDue = ({ s with now := t.now } : State).stopDue := State.stopDue_congr hinputs rfl
  rw [State.landStop_stopRequested, hstop, hdue]

/-- The poll takes the stop request from the host's list itself, and leaves none due. -/
theorem poll_landStop_stopRequested (s : State) : (poll s).landStop.stopRequested = (s.stopRequested || s.stopDue) := by
  have hdue : (poll s).stopDue = false := by
    rw [← s.deliver_stopDue, poll_eq]
    rfl
  rw [State.landStop_stopRequested, hdue, Bool.or_false, poll_eq]
  exact s.deliver_stopRequested

theorem poll_now (s : State) : (poll s).now = s.now := by rw [poll_eq]; exact s.deliver_now

theorem loopTop_now (s : State) : (loopTop s).now = s.now := by rw [loopTop_eq]; rfl

/-- In every phase the stop request is set by a stop that is due when the step ends, and by nothing else. -/
theorem StepCase.landStop_stopRequested (h : StepCase s t) :
    t.landStop.stopRequested = (s.stopRequested || ({ s with now := t.now } : State).stopDue) := by
  by_cases hi : s.phase = .init
  · rcases h.of_init hi with rfl | rfl
    · rfl
    · rw [loopTop_landStop_stopRequested, loopTop_now]
      rfl
  by_cases hp : s.phase = .control
  · rcases h.of_control hp with rfl | ⟨v, hv, ht⟩ | rfl
    · rw [poll_landStop_stopRequested, poll_now]
    · have hline := hv.onlyLine ht
      exact State.landStop_stopRequested_of_kept (by rw [hline]) (by rw [hline])
    · rw [endControl, loopTop_landStop_stopRequested, loopTop_now]
      rfl
  · obtain ⟨hstop, hinputs⟩ := h.stopSide_kept hi hp
    exact State.landStop_stopRequested_of_kept hstop hinputs

/-! ## The timer and its counters -/

/-- What a step does to the timer and its counters: INIT starts it, the wait consumes expiries, and nothing else writes
them (10_state.md R24 to R26, 45_frame_scheduler.md R81). -/
inductive TimerCase (s t : State) : Prop
  | kept (hi : s.phase = .init → t.phase = .failed) (htRun0 : t.tRun0 = s.tRun0) (hserved : t.served = s.served)
      (hover : t.overrunCount = s.overrunCount) (hframe : t.frameIndex = s.frameIndex)
  | started (hp : s.phase = .init) (htRun0 : t.tRun0 = t.now) (hserved : t.served = 0)
      (hover : t.overrunCount = s.overrunCount) (hframe : t.frameIndex = s.frameIndex)
  | waited (hp : s.phase = .wait) (htRun0 : t.tRun0 = s.tRun0) (hserved : t.served = s.served + s.avail t.now)
      (havail : 1 ≤ s.avail t.now)
      (hover : t.overrunCount = if 1 < s.avail t.now then s.overrunCount + 1 else s.overrunCount)
      (hframe : t.frameIndex = s.frameIndex + 1)

/-- The wait returns once an expiry is pending. -/
theorem State.one_le_avail_of_startMin_le {s : State} {now : Nat} (h : s.startMin ≤ now) : 1 ≤ s.avail now := by
  unfold State.startMin at h
  split at h
  · rename_i havail
    have hmono : s.avail s.now ≤ s.avail now :=
      Nat.sub_le_sub_right (Nat.div_le_div_right (Nat.sub_le_sub_right h _)) _
    exact havail.trans hmono
  · unfold State.avail Config.framePeriodUs at *
    omega

theorem frameWait_timer (hp : s.phase = .wait) : TimerCase s (frameWait s) := by
  refine .waited hp ?_ ?_ (State.one_le_avail_of_startMin_le (frameWait_now_le s)) ?_ ?_ <;>
    simp [frameWait, State.consumeExpiries, State.avail]

theorem StepCase.timer (h : StepCase s t) : TimerCase s t := by
  by_cases hw : s.phase = .wait
  · rw [h.of_wait hw]
    exact frameWait_timer hw
  by_cases hi : s.phase = .init
  · rcases h.of_init hi with rfl | rfl
    · exact .kept (fun _ => rfl) rfl rfl rfl rfl
    · rw [loopTop_eq]
      exact .started hi rfl rfl rfl rfl
  · obtain ⟨htRun0, hserved, hover, hframe⟩ := h.timerKept hi hw
    exact .kept (absurd · hi) htRun0 hserved hover hframe

theorem step_timer (h : step s = .next t) : TimerCase s t := by
  obtain ⟨u, rfl, hc⟩ := step_case h
  cases hc.timer with
  | kept hp h0 h1 h2 h3 => exact .kept hp h0 h1 h2 h3
  | started hp h0 h1 h2 h3 => exact .started hp h0 h1 h2 h3
  | waited hp h0 h1 ha h2 h3 => exact .waited hp h0 h1 ha h2 h3

theorem TimerCase.tRun0 (h : TimerCase s t) (hne : t.tRun0 ≠ s.tRun0) : s.phase = .init := by
  cases h with
  | started hp => exact hp
  | kept _ h0 => exact absurd h0 hne
  | waited _ h0 => exact absurd h0 hne

theorem TimerCase.served (h : TimerCase s t) (hne : t.served ≠ s.served) : s.phase = .init ∨ s.phase = .wait := by
  cases h with
  | started hp => exact .inl hp
  | waited hp => exact .inr hp
  | kept _ _ h1 => exact absurd h1 hne

theorem TimerCase.overrunCount (h : TimerCase s t) (hne : t.overrunCount ≠ s.overrunCount) :
    s.phase = .wait ∧ t.overrunCount = s.overrunCount + 1 ∧ s.served + 2 ≤ t.served := by
  cases h with
  | kept _ _ _ h2 => exact absurd h2 hne
  | started _ _ _ h2 => exact absurd h2 hne
  | waited hp _ h1 _ h2 =>
    split at h2
    · exact ⟨hp, h2, by omega⟩
    · exact absurd h2 hne

theorem TimerCase.frameIndex (h : TimerCase s t) (hne : t.frameIndex ≠ s.frameIndex) :
    s.phase = .wait ∧ t.frameIndex = s.frameIndex + 1 := by
  cases h with
  | kept _ _ _ _ h3 => exact absurd h3 hne
  | started _ _ _ _ h3 => exact absurd h3 hne
  | waited hp _ _ _ _ h3 => exact ⟨hp, h3⟩

/-! ## The shared-pin fault -/

theorem StepCase.sharedPinFault (h : StepCase s t) :
    t.sharedPinFault = s.sharedPinFault ∨
      (s.phase = .frame ∧ t.sharedPinFault = (s.sharedPinFault || sharesPin (snapTable s.ch))) := by
  by_cases hp : s.phase = .frame
  · rcases h.of_frame hp with ⟨-, rfl⟩ | ⟨snap, -, rfl⟩
    · exact .inr ⟨hp, rfl⟩
    · rw [frameEdges_eq]
      exact .inl rfl
  · exact .inl (h.sharedPinFault_kept hp)

theorem sharesPin_snapTable {ch : Vector Channel 8} (h : sharesPin (snapTable ch) = true) :
    ∃ c d : Fin 8, c ≠ d ∧ ch[c].enabled = true ∧ ch[d].enabled = true ∧ ch[c].pin = ch[d].pin := by
  obtain ⟨c, d, hne, hc, hd, hpin⟩ := (sharesPin_iff _).1 h
  simp only [snapTable_getElem] at hc hd hpin
  exact ⟨c, d, hne, hc, hd, hpin⟩

/-- Settles O6, item by item. -/
theorem countersChangeOnlyByTheirRules : Obligations.CountersChangeOnlyByTheirRules := by
  intro s t h
  have htimer := step_timer h
  obtain ⟨u, rfl, hc⟩ := step_case h
  refine ⟨htimer.tRun0, htimer.served, htimer.overrunCount, htimer.frameIndex, ?_, ?_, ?_, hc.parametersKept⟩
  · rw [hc.landStop_stopRequested, Bool.or_eq_true, State.stopDue_iff]
    rfl
  · intro hs
    rcases hc.sharedPinFault with e | ⟨-, e⟩
    · exact e.trans hs
    · exact e.trans (by rw [hs, Bool.true_or])
  · intro hs ht
    rcases hc.sharedPinFault with e | ⟨hp, e⟩
    · exact absurd (e.symm.trans ht) (by simp [hs])
    · refine ⟨hp, sharesPin_snapTable ?_⟩
      simpa [hs] using e.symm.trans ht

/-! ## The timer's consistency -/

/-- The phases before the first top of the loop. -/
def Phase.BeforeLoop (p : Phase) : Prop := p = .reset ∨ p = .init ∨ p = .failed

theorem State.timerConsistent_iff (s : State) : s.TimerConsistent ↔
    (¬s.phase.BeforeLoop → s.tRun0 + s.served * Config.framePeriodUs ≤ s.now ∧ s.frameIndex ≤ s.served) := by
  unfold State.TimerConsistent Phase.BeforeLoop
  cases s.phase <;> simp

/-- Only an INIT that succeeds goes from before the loop into it. -/
theorem step_beforeLoop_iff (h : step s = .next t) (hi : s.phase = .init → t.phase = .failed) :
    t.phase.BeforeLoop ↔ s.phase.BeforeLoop := by
  have hf := phasesFollowTheLoop s t h
  unfold Phase.BeforeLoop
  split at hf
  case h_2 hp => simp [hp, hi hp]
  case h_4 hp => rcases hf with ⟨-, ht⟩ | ⟨-, ht⟩ <;> simp [hp, ht]
  case h_5 hp => rcases hf with ht | ⟨ht, -⟩ | ⟨ht, -⟩ <;> simp [hp, ht]
  all_goals
    rename_i hp
    simp [hp, hf]

/-- Every pending expiry that the wait consumes has passed. -/
theorem State.consumed_le {s : State} {now : Nat} (h : 1 ≤ s.avail now) :
    s.tRun0 + (s.served + s.avail now) * Config.framePeriodUs ≤ now := by
  have hdiv := Nat.div_mul_le_self (now - s.tRun0) Config.framePeriodUs
  unfold State.avail Config.framePeriodUs at *
  omega

/-- Settles O55, by what the step does to the timer: nothing, a start, or a wait that consumes what has passed. -/
theorem stepKeepsTimerConsistent : Obligations.StepKeepsTimerConsistent := by
  intro s t hs hf h
  rw [State.timerConsistent_iff] at hs ⊢
  cases step_timer h with
  | kept hi htRun0 hserved _ hframe =>
    have hb := step_beforeLoop_iff h hi
    refine ⟨fun ht => ?_, fun ht => hframe.trans (hf (hb.1 ht))⟩
    obtain ⟨hpassed, hidx⟩ := hs (mt hb.2 ht)
    rw [htRun0, hserved, hframe]
    exact ⟨hpassed.trans (step_traceGrows h).1, hidx⟩
  | started hp htRun0 hserved _ hframe =>
    have hzero : t.frameIndex = 0 := hframe.trans (hf (.inr (.inl hp)))
    exact ⟨fun _ => by simp [htRun0, hserved, hzero], fun _ => hzero⟩
  | waited hp htRun0 hserved havail _ hframe =>
    have hphase : t.phase = .frame := by
      have hf := phasesFollowTheLoop s t h
      rw [hp] at hf
      exact hf
    obtain ⟨-, hidx⟩ := hs (by simp [Phase.BeforeLoop, hp])
    refine ⟨fun _ => ⟨?_, by omega⟩, fun hb => absurd hb (by simp [hphase])⟩
    rw [htRun0, hserved]
    exact State.consumed_le havail

/-! ## The snapshot -/

theorem StepCase.snapshotLive (h : StepCase s t) (hs : s.SnapshotLive) : t.SnapshotLive := by
  by_cases hf : s.phase = .frame
  · rcases h.of_frame hf with ⟨-, rfl⟩ | ⟨snap, -, rfl⟩
    · exact fun snap hsnap => ⟨hf, (Option.some.inj hsnap).symm⟩
    · exact nofun
  by_cases hw : s.phase = .wait
  · rw [h.of_wait hw]
    exact nofun
  · intro snap hsnap
    rw [h.snapshot_kept hw hf] at hsnap
    exact absurd (hs snap hsnap).1 hf

/-- Settles O51: only the start of a frame takes a snapshot, and its end and the wait leave none. -/
theorem stepKeepsSnapshotLive : Obligations.StepKeepsSnapshotLive := by
  intro s t hs h
  obtain ⟨u, rfl, hc⟩ := step_case h
  exact hc.snapshotLive hs

end Sys2Proof.Machine
end

section
/-! The pin view, and the state after reset (10_state.md R21, R36). -/

namespace Sys2Proof.Machine

/-! ## The pin view -/

variable {p : Nat} {f : PinEvent}

theorem modeAfter_of_level (h : f.pin = p → f.act = .high ∨ f.act = .low) (m : Option PinMode) :
    modeAfter p m f = m := by
  unfold modeAfter
  split
  · rename_i hp
    rcases h hp with ha | ha <;> rw [ha]
  · rfl

theorem levelAfter_of_mode (h : f.pin = p → f.act = .output ∨ f.act = .input) (l : Option PinLevel) :
    levelAfter p l f = l := by
  unfold levelAfter
  split
  · rename_i hp
    rcases h hp with ha | ha <;> rw [ha]
  · rfl

/-- Events that leave a view as it was leave its fold as it was. -/
theorem foldl_eq_of_kept {α β : Type} {g : α → β → α} {l : List β} (h : ∀ b ∈ l, ∀ a, g a b = a) (a : α) :
    l.foldl g a = a :=
  (List.foldl_ext g (fun a _ => a) a fun a b hb => h b hb a).trans (List.foldl_fixed l)

/-- The mode is that of the latest event which is followed by level events only. -/
theorem tracedMode_of_latest {pre post : List PinEvent} {e : PinEvent}
    (h : ∀ f ∈ post, f.pin = p → f.act = .high ∨ f.act = .low) :
    tracedMode (pre ++ e :: post) p = modeAfter p (tracedMode pre p) e := by
  rw [tracedMode, List.foldl_append, List.foldl_cons]
  exact foldl_eq_of_kept (fun f hf m => modeAfter_of_level (h f hf) m) _

/-- The level is that of the latest event which is followed by mode events only. -/
theorem tracedLevel_of_latest {pre post : List PinEvent} {e : PinEvent}
    (h : ∀ f ∈ post, f.pin = p → f.act = .output ∨ f.act = .input) :
    tracedLevel (pre ++ e :: post) p = levelAfter p (tracedLevel pre p) e := by
  rw [tracedLevel, List.foldl_append, List.foldl_cons]
  exact foldl_eq_of_kept (fun f hf l => levelAfter_of_mode (h f hf) l) _

theorem tracedMode_eq_none {trace : List PinEvent} (h : ∀ f ∈ trace, f.pin = p → f.act = .high ∨ f.act = .low) :
    tracedMode trace p = none :=
  foldl_eq_of_kept (fun f hf m => modeAfter_of_level (h f hf) m) _

theorem tracedLevel_eq_none {trace : List PinEvent} (h : ∀ f ∈ trace, f.pin = p → f.act = .output ∨ f.act = .input) :
    tracedLevel trace p = none :=
  foldl_eq_of_kept (fun f hf l => levelAfter_of_mode (h f hf) l) _

/-- Settles O46: the later events leave the view as the latest one of its kind set it. -/
theorem pinViewIsLatestEvent : Obligations.PinViewIsLatestEvent := by
  intro s p
  refine ⟨fun pre e post ht hp => ⟨fun hpost => ?_, fun hpost => ?_⟩, fun h => ?_, fun h => ?_⟩
  · rw [State.pinMode, ht, tracedMode_of_latest hpost, modeAfter, if_pos hp]
    exact ⟨fun ha => by rw [ha]; rfl, fun ha => by rw [ha]; rfl⟩
  · rw [State.pinLevel, ht, tracedLevel_of_latest hpost, levelAfter, if_pos hp]
    exact ⟨fun ha => by rw [ha]; rfl, fun ha => by rw [ha]; rfl⟩
  · rw [State.pinMode, tracedMode_eq_none h]
    rfl
  · rw [State.pinLevel, tracedLevel_eq_none h]
    rfl

/-! ## Reset -/

theorem State.reset_slot (c : Fin 8) : State.reset.ch[c] = Channel.reset := Vector.getElem_replicate c.isLt

/-- Settles O2: every slot holds its reset value, the trace and the connections are empty, and no frame was counted. -/
theorem resetStateIsSafe : Obligations.ResetStateIsSafe := by
  refine ⟨fun c => ?_, nofun, ⟨List.Pairwise.nil, nofun⟩, nofun, fun _ c hconf => ?_, fun h => ?_, fun _ => rfl,
    List.nodup_nil⟩
  · rw [State.reset_slot]
    exact Channel.reset_inv
  · rw [State.reset_slot] at hconf
    exact absurd hconf (by decide)
  · exact absurd h (by decide)

end Sys2Proof.Machine
end

section
/-! The channel table between a command and a frame: which slot a command reaches, and which frame sees what it wrote
(20_memory.md R43, R47). -/

namespace Sys2Proof.Machine

variable {s t : State} {c : Fin 8}

/-! ## The slot a command reaches -/

theorem OtherChannelsKept.of_ch_eq (h : t.ch = s.ch) : OtherChannelsKept c s t := fun d _ => congrArg (·[d]) h

theorem OtherChannelsKept.of_set {v : Channel} (h : t.ch = s.ch.set c v) : OtherChannelsKept c s t := fun d hd =>
  (congrArg (·[d]) h).trans (s.setCh_ch_of_ne v hd)

/-- A command that names slot `c` writes that slot or none. -/
theorem exec_otherChannelsKept (i : Instr) (s : State) (hi : i.channel = c.val) :
    ∃ t, exec i s = .next t ∧ OtherChannelsKept c s t := by
  cases i with
  | setup _ p =>
    cases hi
    cases hp : pinOperand p with
    | none => exact ⟨_, exec_setup_badPin s c (pinOperand_eq_none hp), .of_ch_eq rfl⟩
    | some q => exact ⟨_, exec_setup_ok s c hp, .of_set rfl⟩
  | enable _ =>
    cases hi
    cases hc : s.ch[c].configured with
    | false => exact ⟨_, exec_enable_unconfigured hc, .of_ch_eq rfl⟩
    | true => exact ⟨_, exec_enable_ok hc, .of_set rfl⟩
  | disable _ =>
    cases hi
    cases hc : s.ch[c].configured with
    | false => exact ⟨_, exec_disable_unconfigured hc, .of_set rfl⟩
    | true => exact ⟨_, exec_disable_configured hc, .of_set rfl⟩
  | setRange _ a b =>
    cases hi
    cases hr : rangeOperand a b with
    | none => exact ⟨_, exec_setRange_bad s c (rangeOperand_eq_none hr), .of_ch_eq rfl⟩
    | some r => exact ⟨_, exec_setRange_ok s c hr, .of_set rfl⟩
  | setPulse _ v =>
    cases hi
    cases hc : s.ch[c].configured with
    | false => exact ⟨_, exec_setPulse_unconfigured v hc, .of_ch_eq rfl⟩
    | true => exact ⟨_, exec_setPulse_ok v hc, .of_set rfl⟩
  | getRange _ =>
    cases hi
    exact ⟨_, exec_getRange_ok s c, .of_ch_eq rfl⟩
  | getPulse _ =>
    cases hi
    exact ⟨_, exec_getPulse_ok s c, .of_ch_eq rfl⟩
  | getState _ =>
    cases hi
    exact ⟨_, exec_getState_ok s c, .of_ch_eq rfl⟩

/-- The frame of every command that names a slot. -/
theorem exec_commandFrame {i : Instr} (h : exec i s = .next t) (hi : i.channel = c.val) : CommandFrame c s t := by
  obtain ⟨u, hu, hkept⟩ := exec_otherChannelsKept i s hi
  have he := Effect.of_exec h
  rw [hu] at h
  cases h
  exact ⟨hkept, he.sequencerKept, he.hostSideKept⟩

/-- Settles O33: a channel operand out of range has the refusal's effect only, and one in range reaches its own slot. -/
theorem commandTouchesOnlyItsChannel : Obligations.CommandTouchesOnlyItsChannel := by
  intro i s t h
  cases hi : channelOperand i.channel with
  | none =>
    rw [exec_channelOut i s (channelOperand_eq_none hi)] at h
    cases h
    exact ⟨fun _ _ => rfl, SequencerKept.rfl' s, HostSideKept.rfl' s⟩
  | some c =>
    have hc := channelOperand_eq_some hi
    obtain ⟨hother, hseq, hhost⟩ := exec_commandFrame h hc
    exact ⟨fun d hd => hother d fun e => hd (e ▸ hc.symm), hseq, hhost⟩

/-! ## From the control phase to the next snapshot -/

theorem step_control_drained (hp : s.phase = .control) (hf : fetch s = .drained) :
    step s = .next (endControl s).landStop :=
  step_of_phaseStep (by simp only [phaseStep, hp, controlStep, hf])

theorem step_wait (hp : s.phase = .wait) : step s = .next (frameWait s).landStop :=
  step_of_phaseStep (by simp only [phaseStep, hp])

theorem step_frame_start (hp : s.phase = .frame) (hs : s.snapshot = none) : step s = .next (frameStart s).landStop :=
  step_of_phaseStep (by simp only [phaseStep, hp, frameStep, hs])

theorem frameWait_ch (s : State) : (frameWait s).ch = s.ch := by rw [frameWait_eq]

/-- Settles O16: neither the end of the control phase nor the wait writes the table, and the frame's start copies it. -/
theorem commandsVisibleFromNextFrame : Obligations.CommandsVisibleFromNextFrame := by
  intro s t u v hp hf hst hwait htu huv
  rw [step_control_drained hp hf] at hst
  cases hst
  rw [step_wait hwait] at htu
  cases htu
  rw [step_frame_start rfl rfl] at huv
  cases huv
  have hch : (frameWait (endControl s).landStop).ch = s.ch := (frameWait_ch _).trans (endControl_ch s)
  refine ⟨rfl, snapTable s.ch, congrArg (fun ch => some (snapTable ch)) hch, fun c => ?_⟩
  rw [snapTable_getElem]
  exact ⟨rfl, rfl, rfl⟩

end Sys2Proof.Machine
end

section
/-! Bytes, keywords and numerals: which bytes fold, which tokens are keywords or numerals, and what number a numeral
denotes (30_encoding.md R55, R56, R63). -/

namespace Sys2Proof

/-! ## Keywords -/

theorem foldByte_toNat_of_lower {b : Byte} (h1 : 0x61 ≤ b.toNat) (h2 : b.toNat ≤ 0x7A) :
    (foldByte b).toNat + 0x20 = b.toNat := by
  rw [foldByte, if_pos ⟨BitVec.le_def.2 h1, BitVec.le_def.2 h2⟩, BitVec.toNat_sub_of_le]
  · exact Nat.sub_add_cancel (Nat.le_trans (by decide) h1)
  · exact BitVec.le_def.2 (Nat.le_trans (by decide) h1)

theorem foldByte_of_not_lower {b : Byte} (h : b.toNat < 0x61 ∨ 0x7A < b.toNat) : foldByte b = b := by
  refine if_neg fun ⟨h1, h2⟩ => ?_
  have h1 : 0x61 ≤ b.toNat := BitVec.le_def.1 h1
  have h2 : b.toNat ≤ 0x7A := BitVec.le_def.1 h2
  omega

theorem isKeyword_iff {token keyword : List Byte} : isKeyword token keyword = true ↔ token.map foldByte = keyword :=
  beq_iff_eq

theorem isKeyword_iff_forall₂ {token keyword : List Byte} :
    isKeyword token keyword = true ↔ List.Forall₂ (fun b k => k = foldByte b) token keyword := by
  rw [isKeyword_iff, ← List.forall₂_eq_eq_eq, List.forall₂_map_left_iff]
  simp only [eq_comm]

/-- A token that matches one keyword matches no other. -/
theorem isKeyword_of_isKeyword {token keyword : List Byte} (h : isKeyword token keyword = true) (other : List Byte) :
    isKeyword token other = (keyword == other) := by
  rw [isKeyword, isKeyword_iff.1 h]

/-- Settles O59: a byte folds when it is in 0x61..0x7A, and a token matches byte for byte. -/
theorem keywordsFoldLowerCaseOnly : Obligations.KeywordsFoldLowerCaseOnly :=
  ⟨fun _ => ⟨foldByte_toNat_of_lower, foldByte_of_not_lower⟩, fun _ _ => isKeyword_iff_forall₂,
    fun _ _ h => (isKeyword_iff_forall₂.1 h).length_eq, rfl, rfl, rfl, rfl, rfl, rfl, rfl, rfl, rfl⟩

/-! ## Numerals -/

/-- The value of a row of digits is the library's base ten number, whose digits stand least significant first. -/
theorem digitsValue_eq_ofDigits (digits : List Byte) :
    digitsValue digits = Nat.ofDigits 10 (digits.reverse.map digitValue) := by
  induction digits using List.reverseRecOn with
  | nil => rfl
  | append_singleton ds b ih =>
    rw [digitsValue_append, ih, List.reverse_append, List.reverse_singleton, List.singleton_append, List.map_cons,
      Nat.ofDigits_cons, Nat.add_comm]

theorem unsignedNumeral_eq_some_iff {digits : List Byte} {m : Nat} :
    unsignedNumeral digits = some m ↔
      digits ≠ [] ∧ (∀ b ∈ digits, isDigit b = true) ∧ digitsValue digits = m := by
  cases digits with
  | nil => simp [unsignedNumeral]
  | cons b bs =>
    rw [unsignedNumeral, Option.ite_none_right_eq_some, List.all_eq_true, Option.some_inj]
    simp

/-- A numeral's sign is its first byte, since no digit is a minus sign. -/
theorem numeral_eq_some_iff {token : List Byte} {n : Int} :
    numeral token = some n ↔ ∃ digits m, unsignedNumeral digits = some m ∧
      ((token = digits ∧ n = (m : Int)) ∨ (token = minusSign :: digits ∧ n = -(m : Int))) := by
  constructor
  · intro h
    cases token with
    | nil => cases h
    | cons b bs =>
      rw [numeral] at h
      split at h
      · rename_i hb
        obtain ⟨m, hm, rfl⟩ := Option.map_eq_some_iff.1 h
        exact ⟨bs, m, hm, .inr ⟨by rw [hb], rfl⟩⟩
      · obtain ⟨m, hm, rfl⟩ := Option.map_eq_some_iff.1 h
        exact ⟨b :: bs, m, hm, .inl ⟨rfl, rfl⟩⟩
  · rintro ⟨digits, m, hm, ⟨rfl, rfl⟩ | ⟨rfl, rfl⟩⟩
    · obtain ⟨hne, hdigits, -⟩ := unsignedNumeral_eq_some_iff.1 hm
      obtain ⟨b, bs, rfl⟩ := List.exists_cons_of_ne_nil hne
      obtain ⟨-, -, -, hb⟩ := digit_ne (hdigits b List.mem_cons_self)
      rw [numeral, if_neg hb, hm]
      rfl
    · rw [numeral, if_pos rfl, hm]
      rfl

/-- Settles O60: the sign splits off, and the rest is a row of digits with its base ten value. -/
theorem numeralsAreSignedDigitRows : Obligations.NumeralsAreSignedDigitRows := by
  refine ⟨fun token n => ?_, by decide, by decide, by decide, by decide, by decide, by decide, by decide, by decide,
    by decide⟩
  rw [numeral_eq_some_iff]
  refine exists_congr fun digits => ?_
  simp only [unsignedNumeral_eq_some_iff, isDigit_iff, digitsValue_eq_ofDigits]
  constructor
  · rintro ⟨_, ⟨hne, hdigits, rfl⟩, h⟩
    exact ⟨hne, hdigits, h⟩
  · rintro ⟨hne, hdigits, h⟩
    exact ⟨_, ⟨hne, hdigits, rfl⟩, h⟩

theorem dec_of_pos {n : Int} (h : 0 < n) : ∃ b bs, dec n = b :: bs ∧ b ≠ 0x30 ∧ b ≠ minusSign := by
  obtain ⟨m, rfl⟩ := Int.eq_ofNat_of_zero_le h.le
  obtain ⟨hdigits, -, b, bs, hdec, hlead⟩ := decNat_spec m
  obtain ⟨-, -, -, hb⟩ := digit_ne (hdigits b (hdec ▸ List.mem_cons_self))
  exact ⟨b, bs, hdec, hlead (Int.natCast_pos.1 h), hb⟩

theorem dec_of_neg {n : Int} (h : n < 0) : ∃ b bs, dec n = minusSign :: b :: bs ∧ b ≠ 0x30 := by
  obtain ⟨m, rfl⟩ := Int.eq_negSucc_of_lt_zero h
  obtain ⟨-, -, b, bs, hdec, hlead⟩ := decNat_spec (m + 1)
  exact ⟨b, bs, congrArg (minusSign :: ·) hdec, hlead m.succ_pos⟩

/-- Settles O45, by the sign of the number. -/
theorem decimalTextDenotesItsNumber : Obligations.DecimalTextDenotesItsNumber := fun n =>
  ⟨numeral_dec n, fun h => h ▸ rfl, dec_of_pos, dec_of_neg⟩

end Sys2Proof
end

section
/-! Lines: how a content splits into tokens, and what its tokens and its trailing carriage return decide
(30_encoding.md R52, R53, R54). -/

namespace Sys2Proof

/-! ## Tokens -/

theorem isSeparator_iff (b : Byte) : isSeparator b = true ↔ b = 0x20 ∨ b = 0x09 := by
  rw [isSeparator, Bool.or_eq_true, beq_iff_eq, beq_iff_eq]
  rfl

/-- Runs with separators after each of them come off the front of a line, in order. -/
theorem tokens_rows {row : List (List Byte × List Byte)} (rest : List Byte)
    (h : ∀ x ∈ row, x.1 ≠ [] ∧ (∀ b ∈ x.1, isSeparator b = false) ∧ x.2 ≠ [] ∧ ∀ b ∈ x.2, isSeparator b = true) :
    tokens ((row.map fun x => x.1 ++ x.2).flatten ++ rest) = row.map (fun x => x.1) ++ tokens rest := by
  induction row with
  | nil => rfl
  | cons x row ih =>
    obtain ⟨⟨hne, hrun, hsne, hseps⟩, hrow⟩ := List.forall_mem_cons.1 h
    rw [List.map_cons, List.flatten_cons, List.append_assoc, tokens_cons_run _ hne hrun hsne hseps, ih hrow]
    rfl

/-- Settles O44: leading separators give nothing, each run in the row is a token, and so is a last run. -/
theorem tokensAreMaximalRuns : Obligations.TokensAreMaximalRuns := by
  refine ⟨isSeparator_iff, fun lead row last hlead hrow hlast => ?_⟩
  rw [List.append_assoc, tokens_append_separators _ hlead, tokens_rows _ hrow, tokens_run hlast]

theorem tokens_separators {seps : List Byte} (h : ∀ b ∈ seps, isSeparator b = true) : tokens seps = [] := by
  rw [← List.append_nil seps, tokens_append_separators [] h]
  rfl

/-! ## What a line is -/

/-- A line is blank without a token, and else what its tokens decode to. -/
theorem decodeLine_cases (content : Line) :
    (tokens (stripCR content) = [] ∧ decodeLine content = .blank) ∨
      ∃ verb rest, tokens (stripCR content) = verb :: rest ∧
        ((∃ i, decodeTokens verb rest = .ok i ∧ decodeLine content = .command i) ∨
          ∃ kind, decodeTokens verb rest = .error kind ∧ decodeLine content = .bad kind) := by
  unfold decodeLine
  split
  · rename_i ht
    exact .inl ⟨ht, rfl⟩
  · rename_i verb rest ht
    refine .inr ⟨verb, rest, ht, ?_⟩
    cases decodeTokens verb rest with
    | ok i => exact .inl ⟨i, rfl, rfl⟩
    | error kind => exact .inr ⟨kind, rfl, rfl⟩

theorem decodeLine_of_tokens_eq_nil {content : Line} (h : tokens (stripCR content) = []) :
    decodeLine content = .blank := by
  rw [decodeLine, h]

theorem decodeLine_eq_command_iff (content : Line) (i : Instr) : decodeLine content = .command i ↔
    ∃ verb rest, tokens (stripCR content) = verb :: rest ∧ decodeTokens verb rest = .ok i := by
  rcases decodeLine_cases content with ⟨ht, hd⟩ | ⟨verb, rest, ht, ⟨j, hj, hd⟩ | ⟨kind, hk, hd⟩⟩
  · simp [ht, hd]
  · simp [ht, hd, hj]
  · simp [ht, hd, hk]

theorem decodeLine_eq_bad_iff (content : Line) (kind : ErrorKind) : decodeLine content = .bad kind ↔
    ∃ verb rest, tokens (stripCR content) = verb :: rest ∧ decodeTokens verb rest = .error kind := by
  rcases decodeLine_cases content with ⟨ht, hd⟩ | ⟨verb, rest, ht, ⟨j, hj, hd⟩ | ⟨kind, hk, hd⟩⟩
  · simp [ht, hd]
  · simp [ht, hd, hj]
  · simp [ht, hd, hk]

/-- What a line is depends on what is left of it without its carriage return. -/
theorem decodeLine_congr {content other : Line} (h : stripCR content = stripCR other) :
    decodeLine content = decodeLine other := by
  rw [decodeLine, h, decodeLine]

theorem carriageReturn_not_mem_separators {seps : Line} (h : ∀ b ∈ seps, isSeparator b = true) :
    carriageReturn ∉ seps := fun hb => absurd (h _ hb) (by decide)

/-- Settles O43: what is left without the carriage return decides what a line is. -/
theorem carriageReturnAndBlankLines : Obligations.CarriageReturnAndBlankLines := by
  refine ⟨rfl, stripCR_append, fun _ => stripCR_of_getLast, fun content h => ⟨?_, ?_⟩, fun content h => ?_,
    decodeLine_eq_command_iff, decodeLine_eq_bad_iff⟩
  · refine decodeLine_of_tokens_eq_nil ?_
    rw [stripCR_of_not_mem (carriageReturn_not_mem_separators h), tokens_separators h]
  · refine decodeLine_of_tokens_eq_nil ?_
    rw [stripCR_append, tokens_separators h]
  · exact decodeLine_congr ((stripCR_append content).trans (stripCR_of_getLast h).symm)

end Sys2Proof
end

section
/-! Commands: which rows of tokens are which command, and the round trip through the canonical spelling
(30_encoding.md R58, R59, R61, R64). -/

namespace Sys2Proof

/-! ## The tokens after the verb -/

section Forms

variable {rest : List (List Byte)} {i : Instr}

theorem decodeSetup_eq_ok_iff : decodeSetup rest = .ok i ↔
    ∃ t1 t2 t3 c p, rest = [t1, t2, t3] ∧ isKeyword t2 kwGpio = true ∧ numeral t1 = some c ∧ numeral t3 = some p ∧
      i = .setup c p := by
  constructor
  · intro h
    unfold decodeSetup at h
    split at h
    · split at h
      · split at h <;> cases h
        exact ⟨_, _, _, _, _, rfl, ‹_›, ‹_›, ‹_›, rfl⟩
      · cases h
    · cases h
  · rintro ⟨t1, t2, t3, c, p, rfl, hk, hc, hp, rfl⟩
    simp only [decodeSetup, hk, hc, hp, if_true]

theorem decodeChannelOnly_eq_ok_iff {make : Int → Instr} : decodeChannelOnly make rest = .ok i ↔
    ∃ t1 c, rest = [t1] ∧ numeral t1 = some c ∧ i = make c := by
  constructor
  · intro h
    unfold decodeChannelOnly at h
    split at h
    · split at h <;> cases h
      exact ⟨_, _, rfl, ‹_›, rfl⟩
    · cases h
  · rintro ⟨t1, c, rfl, hc, rfl⟩
    simp only [decodeChannelOnly, hc]

theorem decodeSet_eq_ok_iff : decodeSet rest = .ok i ↔
    (∃ t1 t2 t3 t4 c a b, rest = [t1, t2, t3, t4] ∧ isKeyword t2 kwRange = true ∧ numeral t1 = some c ∧
      numeral t3 = some a ∧ numeral t4 = some b ∧ i = .setRange c a b) ∨
    (∃ t1 t2 t3 c v, rest = [t1, t2, t3] ∧ isKeyword t2 kwPulse = true ∧ numeral t1 = some c ∧ numeral t3 = some v ∧
      i = .setPulse c v) := by
  constructor
  · intro h
    unfold decodeSet at h
    split at h
    · split at h
      · split at h <;> cases h
        exact .inl ⟨_, _, _, _, _, _, _, rfl, ‹_›, ‹_›, ‹_›, ‹_›, rfl⟩
      · cases h
    · split at h
      · split at h <;> cases h
        exact .inr ⟨_, _, _, _, _, rfl, ‹_›, ‹_›, ‹_›, rfl⟩
      · cases h
    · cases h
  · rintro (⟨t1, t2, t3, t4, c, a, b, rfl, hk, hc, ha, hb, rfl⟩ | ⟨t1, t2, t3, c, v, rfl, hk, hc, hv, rfl⟩)
    · simp only [decodeSet, hk, hc, ha, hb, if_true]
    · simp only [decodeSet, hk, hc, hv, if_true]

theorem decodeGet_eq_ok_iff : decodeGet rest = .ok i ↔
    ∃ t1 t2 c, rest = [t1, t2] ∧
      ((isKeyword t2 kwRange = true ∧ numeral t1 = some c ∧ i = .getRange c) ∨
        (isKeyword t2 kwPulse = true ∧ numeral t1 = some c ∧ i = .getPulse c) ∨
        (isKeyword t2 kwState = true ∧ numeral t1 = some c ∧ i = .getState c)) := by
  constructor
  · intro h
    unfold decodeGet at h
    split at h
    · rename_i t1 t2
      split at h
      · rename_i c hc
        refine ⟨t1, t2, c, rfl, ?_⟩
        split_ifs at h with hr hp hs <;> cases h
        · exact .inl ⟨hr, hc, rfl⟩
        · exact .inr (.inl ⟨hp, hc, rfl⟩)
        · exact .inr (.inr ⟨hs, hc, rfl⟩)
      · cases h
    · cases h
  · rintro ⟨t1, t2, c, rfl, ⟨hk, hc, rfl⟩ | ⟨hk, hc, rfl⟩ | ⟨hk, hc, rfl⟩⟩ <;>
      simp only [decodeGet, hc, isKeyword_of_isKeyword hk] <;> rfl

/-! ## The verb -/

/-- A verb decodes as the keyword it matches, which folds to itself. -/
theorem decodeTokens_of_isKeyword {verb keyword : List Byte} (h : isKeyword verb keyword = true)
    (hk : keyword.map foldByte = keyword) (rest : List (List Byte)) :
    decodeTokens verb rest = decodeTokens keyword rest := by
  simp only [decodeTokens, isKeyword, isKeyword_iff.1 h, hk]

theorem decodeTokens_eq_ok_iff {verb : List Byte} : decodeTokens verb rest = .ok i ↔
    (isKeyword verb kwSetup = true ∧ decodeSetup rest = .ok i) ∨
    (isKeyword verb kwEnable = true ∧ decodeChannelOnly .enable rest = .ok i) ∨
    (isKeyword verb kwDisable = true ∧ decodeChannelOnly .disable rest = .ok i) ∨
    (isKeyword verb kwSet = true ∧ decodeSet rest = .ok i) ∨
    (isKeyword verb kwGet = true ∧ decodeGet rest = .ok i) := by
  constructor
  · intro h
    unfold decodeTokens at h
    split_ifs at h with hsetup henable hdisable hset hget
    · exact .inl ⟨hsetup, h⟩
    · exact .inr (.inl ⟨henable, h⟩)
    · exact .inr (.inr (.inl ⟨hdisable, h⟩))
    · exact .inr (.inr (.inr (.inl ⟨hset, h⟩)))
    · exact .inr (.inr (.inr (.inr ⟨hget, h⟩)))
  · rintro (⟨hk, h⟩ | ⟨hk, h⟩ | ⟨hk, h⟩ | ⟨hk, h⟩ | ⟨hk, h⟩) <;>
      exact (decodeTokens_of_isKeyword hk rfl rest).trans h

end Forms

/-- Settles O40: the verb picks the format, and the format the command. -/
theorem decodeMapsTheEightForms : Obligations.DecodeMapsTheEightForms := by
  intro verb rest i
  rw [decodeTokens_eq_ok_iff, decodeSetup_eq_ok_iff, decodeChannelOnly_eq_ok_iff, decodeChannelOnly_eq_ok_iff,
    decodeSet_eq_ok_iff, decodeGet_eq_ok_iff]
  -- Of the formats' commands, only one is built by the constructor of `i`.
  cases i <;> simp

/-! ## The round trip -/

/-- The canonical tokens of a command are a row that decodes to it. -/
theorem decodeTokens_canonicalTokens (i : Instr) :
    ∃ verb rest, canonicalTokens i = verb :: rest ∧ decodeTokens verb rest = .ok i := by
  have form := decodeMapsTheEightForms
  cases i with
  | setup c p => exact ⟨_, _, rfl, (form _ _ _).2 ⟨rfl, _, _, _, rfl, rfl, numeral_dec c, numeral_dec p⟩⟩
  | enable c => exact ⟨_, _, rfl, (form _ _ _).2 ⟨rfl, _, rfl, numeral_dec c⟩⟩
  | disable c => exact ⟨_, _, rfl, (form _ _ _).2 ⟨rfl, _, rfl, numeral_dec c⟩⟩
  | setRange c a b =>
    exact ⟨_, _, rfl, (form _ _ _).2 ⟨rfl, _, _, _, _, rfl, rfl, numeral_dec c, numeral_dec a, numeral_dec b⟩⟩
  | setPulse c v => exact ⟨_, _, rfl, (form _ _ _).2 ⟨rfl, _, _, _, rfl, rfl, numeral_dec c, numeral_dec v⟩⟩
  | getRange c => exact ⟨_, _, rfl, (form _ _ _).2 ⟨rfl, _, _, rfl, rfl, numeral_dec c⟩⟩
  | getPulse c => exact ⟨_, _, rfl, (form _ _ _).2 ⟨rfl, _, _, rfl, rfl, numeral_dec c⟩⟩
  | getState c => exact ⟨_, _, rfl, (form _ _ _).2 ⟨rfl, _, _, rfl, rfl, numeral_dec c⟩⟩

theorem decodeLine_encodeLine (i : Instr) : decodeLine (encodeLine i) = .command i := by
  rw [decodeLine_eq_command_iff, stripCR_of_not_mem (carriageReturn_not_mem_encodeLine i), tokens_encodeLine]
  exact decodeTokens_canonicalTokens i

theorem newline_not_mem_encodeLine (i : Instr) : newline ∉ encodeLine i := by
  cases i with
  | setup c p => exact Laws.OneLine.setup c p
  | enable c => exact Laws.OneLine.enable c
  | disable c => exact Laws.OneLine.disable c
  | setRange c a b => exact Laws.OneLine.setRange c a b
  | setPulse c v => exact Laws.OneLine.setPulse c v
  | getRange c => exact Laws.OneLine.getRange c
  | getPulse c => exact Laws.OneLine.getPulse c
  | getState c => exact Laws.OneLine.getState c

/-- A line that is a command decodes to it, and the bytes after its newline are left. -/
theorem decode_line {content : Line} {i : Instr} (hn : newline ∉ content) (hc : decodeLine content = .command i)
    (bytes : List Byte) : decode (content ++ newline :: bytes) = .ok (i, bytes) := by
  simp only [decode, splitLine_append_newline hn, hc]

/-- Settles O42: the canonical spelling is one line, and its tokens are a row of the command's own form. -/
theorem decodeInvertsEncode : Obligations.DecodeInvertsEncode := by
  intro i bytes
  rw [encode, List.append_assoc, List.singleton_append]
  exact decode_line (newline_not_mem_encodeLine i) (decodeLine_encodeLine i) bytes

/-- Settles O41: three of the words are canonical spellings, and the fourth is one in lower case. -/
theorem specWordsDecode : Obligations.SpecWordsDecode :=
  ⟨decodeInvertsEncode (.setup 0 17) [], by decide, decodeInvertsEncode (.setPulse 0 1200) [],
    decodeInvertsEncode (.getState 0) [], rfl⟩

end Sys2Proof
end

section
/-! The pins of configured channels: every step but the shutdown leaves them in output mode and low (40_channel_config.md
R65, R66, R69, 45_frame_scheduler.md R86). -/

namespace Sys2Proof.Machine

variable {s t u : State} {p : Nat} {trace es : List PinEvent}

/-! ## A pin in output mode and low -/

/-- A trace has last put the pin in output mode and driven it low. -/
def DrivenLow (trace : List PinEvent) (p : Nat) : Prop :=
  tracedMode trace p = some .output ∧ tracedLevel trace p = some .low

/-- The pin view after more events is the view before them, folded on (10_state.md R36). -/
theorem tracedMode_append (trace es : List PinEvent) (p : Nat) :
    tracedMode (trace ++ es) p = es.foldl (modeAfter p) (tracedMode trace p) := List.foldl_append

theorem tracedLevel_append (trace es : List PinEvent) (p : Nat) :
    tracedLevel (trace ++ es) p = es.foldl (levelAfter p) (tracedLevel trace p) := List.foldl_append

/-- A value that no element of a list moves is where a fold from it ends. -/
theorem foldl_eq_of_fixed {α β : Type} {g : α → β → α} {l : List β} {a : α} (h : ∀ b ∈ l, g a b = a) :
    l.foldl g a = a :=
  List.foldlRecOn l g (motive := (· = a)) rfl fun _ hx b hb => hx ▸ h b hb

theorem modeAfter_output {e : PinEvent} (h : e.act ≠ .input) : modeAfter p (some .output) e = some .output := by
  unfold modeAfter
  cases ha : e.act with
  | input => exact absurd ha h
  | _ => exact ite_self _

theorem levelAfter_low {e : PinEvent} (h : e.act ≠ .high) : levelAfter p (some .low) e = some .low := by
  unfold levelAfter
  cases ha : e.act with
  | high => exact absurd ha h
  | _ => exact ite_self _

/-- Events that only set output mode or drive low, as those of commands, keep every pin that is so. -/
theorem DrivenLow.append (h : DrivenLow trace p) (hes : ∀ e ∈ es, e.act = .output ∨ e.act = .low) :
    DrivenLow (trace ++ es) p := by
  obtain ⟨hm, hl⟩ := h
  constructor
  · rw [tracedMode_append, hm]
    exact foldl_eq_of_fixed fun e he => modeAfter_output (by rcases hes e he with ha | ha <;> simp [ha])
  · rw [tracedLevel_append, hl]
    exact foldl_eq_of_fixed fun e he => levelAfter_low (by rcases hes e he with ha | ha <;> simp [ha])

theorem tracedLevel_append_low (trace : List PinEvent) (time p : Nat) :
    tracedLevel (trace ++ [⟨time, p, .low⟩]) p = some .low := by
  rw [tracedLevel_append, List.foldl_cons, List.foldl_nil, levelAfter, if_pos rfl]

/-- The two events of `SETUP` (40_channel_config.md R65). -/
theorem drivenLow_append_output_low (trace : List PinEvent) (t1 t2 p : Nat) :
    DrivenLow (trace ++ [⟨t1, p, .output⟩] ++ [⟨t2, p, .low⟩]) p := by
  refine ⟨?_, tracedLevel_append_low _ _ _⟩
  rw [tracedMode_of_latest (by simp), modeAfter_of_level (by simp), tracedMode_of_latest (by simp), modeAfter, if_pos rfl]

/-! ## A frame -/

theorem tracedMode_frameEdges (snap : Vector SnapEntry 8) (s : State) (p : Nat) :
    tracedMode (frameEdges snap s).trace p = tracedMode s.trace p := by
  obtain ⟨-, es, ht, -, hedge⟩ := frameEdges_traceGrows snap s
  rw [ht, tracedMode_append]
  refine foldl_eq_of_kept (fun e he m => ?_) _
  obtain ⟨-, -, -, hact⟩ := hedge e he
  exact modeAfter_of_level (fun _ => hact) m

theorem tracedLevel_frameEdges_of_untouched (snap : Vector SnapEntry 8) (s : State)
    (h : ∀ c : Fin 8, snap[c].enabled = true → snap[c].pin.toNat ≠ p) :
    tracedLevel (frameEdges snap s).trace p = tracedLevel s.trace p := by
  obtain ⟨-, es, ht, -, hedge⟩ := frameEdges_traceGrows snap s
  rw [ht, tracedLevel_append]
  refine foldl_eq_of_kept (fun e he l => ?_) _
  obtain ⟨c, hen, hpin, -⟩ := hedge e he
  exact levelAfter_of_mode (fun hp => absurd (hpin.trans hp) (h c hen)) l

/-- The low edges come last and reach the pin of every enabled channel (45_frame_scheduler.md R86). -/
theorem tracedLevel_frameEdges_of_enabled {snap : Vector SnapEntry 8} (s : State) {c : Fin 8}
    (hen : snap[c].enabled = true) : tracedLevel (frameEdges snap s).trace snap[c].pin.toNat = some .low := by
  obtain ⟨es, ht, hd, -⟩ := lowEdges_events snap (frameOrder snap) 0 (risePhase snap s)
  have hlow : ∀ e ∈ es, e.act = .low := fun e he => by
    obtain ⟨d, -, hde⟩ := exists_of_map_deed hd he
    exact (Prod.mk.inj hde).2.symm
  obtain ⟨e, he, hdeed⟩ : ∃ e ∈ es, e.deed = (snap[c].pin.toNat, PinAct.low) :=
    List.mem_map.1 (hd ▸ List.mem_map_of_mem ((mem_enabledOrder snap c).2 hen))
  obtain ⟨hpin, hact⟩ := Prod.mk.inj hdeed
  obtain ⟨pre, post, rfl⟩ := List.append_of_mem he
  change tracedLevel (lowEdges snap (frameOrder snap) 0 (risePhase snap s)).trace _ = _
  rw [ht, tracedLevel_append, List.foldl_append, List.foldl_cons, levelAfter, if_pos hpin, hact]
  exact foldl_eq_of_fixed fun f hf => levelAfter_low (by simp [hlow f (by simp [hf])])

theorem DrivenLow.frameEdges (h : DrivenLow s.trace p) (snap : Vector SnapEntry 8) :
    DrivenLow (frameEdges snap s).trace p := by
  obtain ⟨hm, hl⟩ := h
  refine ⟨(tracedMode_frameEdges snap s p).trans hm, ?_⟩
  by_cases hp : ∃ c : Fin 8, snap[c].enabled = true ∧ snap[c].pin.toNat = p
  · obtain ⟨c, hen, rfl⟩ := hp
    exact tracedLevel_frameEdges_of_enabled s hen
  · exact (tracedLevel_frameEdges_of_untouched snap s fun c hen hc => hp ⟨c, hen, hc⟩).trans hl

/-! ## A command -/

/-- A pin held after a write to a slot was held before, or is the one the new slot holds. -/
theorem HeldPin.of_setCh {c : Fin 8} {v : Channel} (h : HeldPin (s.setCh c v).ch p) :
    HeldPin s.ch p ∨ (v.configured = true ∧ v.pin.toNat = p) := by
  obtain ⟨d, hd⟩ := h
  by_cases hdc : d = c
  · subst hdc
    rw [State.setCh_getElem_self] at hd
    exact .inr hd
  · rw [State.setCh_getElem_ne s c d v hdc] at hd
    exact .inl ⟨d, hd⟩

/-- A write that leaves a slot's pin and `configured` brings no new pin. -/
theorem HeldPin.of_setCh_samePin {c : Fin 8} {v : Channel} (h : HeldPin (s.setCh c v).ch p)
    (hconf : v.configured = s.ch[c].configured) (hpin : v.pin = s.ch[c].pin) : HeldPin s.ch p := by
  rcases h.of_setCh with h | ⟨hv, hp⟩
  · exact h
  · exact ⟨c, hconf ▸ hv, hpin ▸ hp⟩

/-- A command leaves a pin held that was held before, or one that it has just driven (40_channel_config.md R65). -/
theorem Effect.heldPin (h : Effect s t) (hp : HeldPin t.ch p) : HeldPin s.ch p ∨ DrivenLow t.trace p := by
  cases h with
  | refused | queried => exact .inl hp
  | setup c q hq =>
    rcases HeldPin.of_setCh (s := s) (c := c) (v := setupChannel q) hp with hp | ⟨-, rfl⟩
    · exact .inl hp
    · exact .inr (drivenLow_append_output_low s.trace _ _ q.toNat)
  | enabled c => exact .inl (HeldPin.of_setCh_samePin (s := s) (c := c) hp rfl rfl)
  | disabled c =>
    refine .inl (HeldPin.of_setCh_samePin (s := s) (c := c) (v := { s.ch[c] with enabled := false }) ?_ rfl rfl)
    rcases (s.setCh c { s.ch[c] with enabled := false }).forceLow_cases c with e | ⟨-, e⟩ <;> rw [e] at hp <;> exact hp
  | ranged c => exact .inl (HeldPin.of_setCh_samePin (s := s) (c := c) hp rfl rfl)
  | pulsed c => exact .inl (HeldPin.of_setCh_samePin (s := s) (c := c) hp rfl rfl)

/-! ## Every step -/

/-- Every pin that a configured channel holds is in output mode and low. -/
def State.HeldPinsDriven (s : State) : Prop := ∀ p, HeldPin s.ch p → DrivenLow s.trace p

theorem State.configuredPinsDriven_iff (s : State) :
    s.ConfiguredPinsDriven ↔ (s.phase ≠ .halted → s.HeldPinsDriven) :=
  forall_congr' fun _ => ⟨fun h _ ⟨c, hc, hp⟩ => hp ▸ h c hc, fun h c hc => h _ ⟨c, hc, rfl⟩⟩

theorem State.HeldPinsDriven.of_kept (hs : s.HeldPinsDriven) (hch : t.ch = s.ch) (htrace : t.trace = s.trace) :
    t.HeldPinsDriven := by
  unfold State.HeldPinsDriven
  rw [hch, htrace]
  exact hs

theorem Effect.heldPinsDriven (h : Effect s t) (hs : s.HeldPinsDriven) : t.HeldPinsDriven := by
  intro p hp
  rcases h.heldPin hp with hold | hnew
  · obtain ⟨-, es, htrace, -, hcommand⟩ := h.traceGrows
    rw [htrace]
    exact (hs p hold).append fun e he => (hcommand e he).2
  · exact hnew

theorem StepCase.trace_kept (h : StepCase s t) (hf : s.phase ≠ .frame) (hc : s.phase ≠ .control)
    (hs : s.phase ≠ .shutdown) : t.trace = s.trace := by
  have e := h.phaseWrites
  unfold PhaseWrites at e
  split at e
  case h_4 hp => exact absurd hp hf
  case h_5 hp => exact absurd hp hc
  case h_6 hp => exact absurd hp hs
  all_goals rw [e]

theorem StepCase.heldPinsDriven (h : StepCase s t) (hshut : s.phase ≠ .shutdown) (hs : s.HeldPinsDriven) :
    t.HeldPinsDriven := by
  by_cases hf : s.phase = .frame
  · rcases h.of_frame hf with ⟨-, rfl⟩ | ⟨snap, -, rfl⟩
    · exact hs
    · intro p hp
      rw [frameEdges_eq] at hp
      exact (hs p hp).frameEdges snap
  by_cases hc : s.phase = .control
  · rcases h.of_control hc with rfl | ⟨u, hu, ht⟩ | rfl
    · exact hs.of_kept (poll_ch s) (by rw [poll_eq]; exact s.deliver_trace)
    · have hus : u.HeldPinsDriven := hs.of_kept hu.ch (by rw [hu])
      rcases ht with rfl | he
      · exact hus
      · exact he.heldPinsDriven hus
    · exact hs.of_kept (endControl_ch s) (by rw [endControl, loopTop_eq]; rfl)
  · exact hs.of_kept (h.ch_kept hc hshut) (h.trace_kept hf hc hshut)

/-- After the shutdown and in HALTED the block stays in HALTED. -/
theorem StepCase.phase_halted (h : StepCase s t) (hp : s.phase = .shutdown ∨ s.phase = .halted) : t.phase = .halted := by
  rcases hp with hp | hp
  · rw [h.of_shutdown hp]
    rfl
  · rw [h.of_final (.inl hp)]
    exact hp

/-- Settles O54: commands send OUTPUT and LOW only, a frame ends each pin it raises with LOW, and the shutdown, which
releases the pins, halts the block. -/
theorem stepKeepsConfiguredPinsDriven : Obligations.StepKeepsConfiguredPinsDriven := by
  intro s t hs h
  obtain ⟨u, rfl, hc⟩ := step_case h
  rw [State.configuredPinsDriven_iff] at hs ⊢
  intro hrun
  have hshut : s.phase ≠ .shutdown := fun hp => hrun (hc.phase_halted (.inl hp))
  have hhalt : s.phase ≠ .halted := fun hp => hrun (hc.phase_halted (.inr hp))
  exact hc.heldPinsDriven hshut (hs hhalt)

end Sys2Proof.Machine
end

section
/-! `SETUP`, `ENABLE` and `DISABLE`: the slot each leaves, its pin events, its answer and its errors (40_channel_config.md
R65, R68, R69). -/

namespace Sys2Proof.Machine

/-- Settles O24: the slot is `setupChannel`, and the two events come one after the other. -/
theorem setupConfiguresChannel : Obligations.SetupConfiguresChannel := by
  refine ⟨fun s c p h0 h1 => ?_, fun s c p hc => ?_, fun s c p hp => ?_⟩
  · obtain ⟨q, hq, hqp⟩ := pinOperand_of_legal h0 h1
    have hexec := exec_setup_ok s c hq
    have hslot : (s.setCh c (setupChannel q)).ch[c] = setupChannel q := s.setCh_getElem_self c _
    have hpin : ((setupChannel q).pin.toNat : Int) = p := by
      change (q.toNat : Int) = p
      omega
    refine ⟨_, s.passTime.now, _, hexec, congrArg Channel.configured hslot, ?_, congrArg Channel.enabled hslot,
      congrArg (·.minUs.toInt) hslot, congrArg (·.maxUs.toInt) hslot, congrArg (·.pulseUs.toInt) hslot, ?_,
      s.now_le_passTime, State.now_le_passTime _, State.now_le_passTime _, ⟨rfl, rfl⟩, exec_commandFrame hexec rfl⟩
    · exact (congrArg (fun ch : Channel => (ch.pin.toNat : Int)) hslot).trans hpin
    · rw [← hqp]
      exact List.append_assoc _ _ _
  · exact ⟨_, exec_channelOut _ s hc, refusedWith_raiseError s _⟩
  · exact ⟨_, exec_setup_badPin s c hp, refusedWith_raiseError s _⟩

/-- Settles O25: the only write is to `enabled` of the channel's slot. -/
theorem enableSetsEnabled : Obligations.EnableSetsEnabled := by
  refine ⟨fun s c hconf => ?_, fun s c hc => ?_, fun s c hconf => ?_⟩
  · have hexec := exec_enable_ok hconf
    exact ⟨_, hexec, s.setCh_getElem_self c _, ⟨rfl, s.now_le_passTime⟩, ⟨rfl, rfl⟩, exec_commandFrame hexec rfl⟩
  · exact ⟨_, exec_channelOut _ s hc, refusedWith_raiseError s _⟩
  · exact ⟨_, exec_enable_unconfigured hconf, refusedWith_raiseError s _⟩

/-- Settles O26: a configured channel's pin gets the one LOW of `forceLow`, an unconfigured one's gets nothing. -/
theorem disableForcesPinLow : Obligations.DisableForcesPinLow := by
  refine ⟨fun s c hconf => ?_, fun s c hconf => ?_, fun s c hc => ?_⟩
  · have hexec := exec_disable_configured hconf
    exact ⟨_, s.passTime.now, hexec, s.setCh_getElem_self c _, rfl, s.now_le_passTime, State.now_le_passTime _,
      ⟨rfl, rfl⟩, exec_commandFrame hexec rfl⟩
  · have hexec := exec_disable_unconfigured hconf
    exact ⟨_, hexec, s.setCh_getElem_self c _, ⟨rfl, s.now_le_passTime⟩, ⟨rfl, rfl⟩, exec_commandFrame hexec rfl⟩
  · exact ⟨_, exec_channelOut _ s hc, refusedWith_raiseError s _⟩

theorem State.pinLevel_of_append_low {s : State} {trace : List PinEvent} {time p : Nat}
    (h : s.trace = trace ++ [⟨time, p, .low⟩]) : s.pinLevel p = .low := by
  rw [State.pinLevel, h, tracedLevel_append_low]
  rfl

/-- Settles O39: the first `DISABLE` leaves the channel configured on its pin with `enabled` already cleared, so what O26
says of the second one is that it writes nothing new. -/
theorem disableTwiceIsIdempotent : Obligations.DisableTwiceIsIdempotent := by
  intro s c hconf
  obtain ⟨t, t1, ht, hslot, htrace, -⟩ := disableForcesPinLow.1 s c hconf
  have hconf' : t.ch[c].configured = true := (congrArg Channel.configured hslot).trans hconf
  obtain ⟨u, t2, hu, huslot, hutrace, -, -, hanswered, hother, -⟩ := disableForcesPinLow.1 t c hconf'
  have hpin : t.ch[c].pin = s.ch[c].pin := by rw [hslot]
  rw [hpin] at hutrace
  have hsame : u.ch[c] = t.ch[c] := by rw [huslot, hslot]
  have hall : ∀ d : Fin 8, u.ch[d] = t.ch[d] := fun d => by
    by_cases hd : d = c
    · rw [hd, hsame]
    · exact hother d hd
  exact ⟨t, u, ht, hu, Vector.ext fun i hi => hall ⟨i, hi⟩, hanswered, State.pinLevel_of_append_low htrace,
    State.pinLevel_of_append_low hutrace⟩

end Sys2Proof.Machine
end

section
/-! `SET RANGE` and `SET PULSE`: the bounds and the pulse each stores, its flags and its errors, and that no run ever
stores or plays anything outside 500..2500 (41_range_pulse.md R72 to R76). -/

namespace Sys2Proof.Machine

variable {s : State}

/-! ## What the two commands store -/

theorem rangeClampedFlag_eq (a b lo hi : Int) : rangeClampedFlag a b lo hi = decide (lo ≠ a ∨ hi ≠ b) := by
  rw [Bool.eq_iff_iff]
  simp [rangeClampedFlag]

theorem pulseChangedFlag_eq (reference stored : Int) :
    pulseChangedFlag reference stored = decide (stored ≠ reference) := by
  rw [Bool.eq_iff_iff]
  simp [pulseChangedFlag]

/-- The bounds and the pulse of `rangedChannel`, as numbers (41_range_pulse.md R72). -/
theorem rangedChannel_toInt (ch : Channel) {lo hi : Int} (h0 : 500 ≤ lo) (hlt : lo < hi) (h1 : hi ≤ 2500) :
    (rangedChannel ch lo hi).minUs.toInt = lo ∧ (rangedChannel ch lo hi).maxUs.toInt = hi ∧
      (rangedChannel ch lo hi).pulseUs.toInt = max lo (min hi ch.pulseUs.toInt) := by
  refine ⟨toInt_toField h0 (by omega), toInt_toField (by omega) h1, ?_⟩
  rw [← reclampedPulse_eq h0 hlt.le h1]
  have hp := reclampedPulse_eq (old := ch.pulseUs.toInt) h0 hlt.le h1
  exact toInt_toField (by omega) (by omega)

/-- The second clamp makes the pulse legal whatever the stored range is (41_range_pulse.md R71, R74). -/
theorem toInt_toField_clampedPulse (ch : Channel) (v : Int) :
    (toField (clampedPulse ch v)).toInt = clampedPulse ch v := by
  have hp : clampedPulse ch v = max 500 (min 2500 (clamp v ch.minUs.toInt ch.maxUs.toInt)) := absoluteClamp_eq _
  exact toInt_toField (by omega) (by omega)

/-! ## The two commands -/

/-- Settles O27: the slot is `rangedChannel`, and the refused ranges are those that `rangeOperand` answers none for. -/
theorem setRangeClampsAndReclamps : Obligations.SetRangeClampsAndReclamps := by
  refine ⟨fun s c a b lo hi old new hab hlo hhi hlt hold hnew => ?_, fun s c a b hc => ?_, fun s c a b hbad => ?_⟩
  · subst hlo hhi hold
    have hexec := exec_setRange_ok s c (rangeOperand_of_legal hab hlt)
    rw [reclampedPulse_eq (by omega) hlt.le (by omega), ← hnew, rangeClampedFlag_eq, pulseChangedFlag_eq] at hexec
    obtain ⟨hmin, hmax, hpulse⟩ := rangedChannel_toInt s.ch[c] (by omega) hlt (by omega)
    have hslot := s.setCh_getElem_self c (rangedChannel s.ch[c] (max a 500) (min b 2500))
    exact ⟨_, hexec, (congrArg (·.minUs.toInt) hslot).trans hmin, (congrArg (·.maxUs.toInt) hslot).trans hmax,
      (congrArg (·.pulseUs.toInt) hslot).trans (hpulse.trans hnew.symm), (congrArg Channel.configured hslot).trans rfl,
      (congrArg Channel.pin hslot).trans rfl, (congrArg Channel.enabled hslot).trans rfl,
      ⟨rfl, s.now_le_passTime⟩, ⟨rfl, rfl⟩, exec_commandFrame hexec rfl⟩
  · exact ⟨_, exec_channelOut _ s hc, refusedWith_raiseError s _⟩
  · exact ⟨_, exec_setRange_bad s c hbad, refusedWith_raiseError s _⟩

/-- Settles O28: the only write is to `pulseUs` of the slot, and the field holds `clampedPulse` as a number. -/
theorem setPulseClampsTwice : Obligations.SetPulseClampsTwice := by
  refine ⟨fun s c v r1 r hconf hr1 hr => ?_, fun s c v hc => ?_, fun s c v hconf => ?_⟩
  · have hr : clampedPulse s.ch[c] v = r := by
      subst hr1 hr
      exact absoluteClamp_eq _
    have hexec := exec_setPulse_ok v hconf
    rw [pulseChangedFlag_eq] at hexec
    have hslot := s.setCh_getElem_self c { s.ch[c] with pulseUs := toField (clampedPulse s.ch[c] v) }
    have hpulse := (toInt_toField_clampedPulse s.ch[c] v).trans hr
    rw [hr] at hexec hslot hpulse
    exact ⟨_, hexec, (congrArg (·.pulseUs.toInt) hslot).trans hpulse, (congrArg Channel.configured hslot).trans hconf,
      (congrArg Channel.pin hslot).trans rfl, (congrArg Channel.enabled hslot).trans rfl,
      (congrArg Channel.minUs hslot).trans rfl, (congrArg Channel.maxUs hslot).trans rfl,
      ⟨rfl, s.now_le_passTime⟩, ⟨rfl, rfl⟩, exec_commandFrame hexec rfl⟩
  · exact ⟨_, exec_channelOut _ s hc, refusedWith_raiseError s _⟩
  · exact ⟨_, exec_setPulse_unconfigured v hconf, refusedWith_raiseError s _⟩

/-- Settles O37: neither clamp moves a legal bound, so by O27 the slot holds `a` and `b`, which the query prints. -/
theorem legalRangeReadsBack : Obligations.LegalRangeReadsBack := by
  intro s c a b h0 hab h1
  obtain ⟨t, ht, hmin, hmax, -, -, -, -, -, hanswered, -⟩ :=
    setRangeClampsAndReclamps.1 s c a b a b _ _ hab (by omega) (by omega) hab rfl rfl
  rw [decide_eq_false (by simp : ¬(a ≠ a ∨ b ≠ b))] at hanswered
  have htext : rangeText t.ch[c] = ascii ['R', 'A', 'N', 'G', 'E', ' '] ++ dec a ++ ascii [' '] ++ dec b := by
    rw [rangeText, hmin, hmax, List.append_assoc _ (ascii [' '])]
    rfl
  exact ⟨t, _, _, ht, hanswered, exec_getRange_ok t c, htext ▸ ⟨rfl, rfl⟩⟩

/-- Settles O38: by the invariants the stored range lies in the absolute one, so O28's second clamp moves nothing. -/
theorem storedPulseLiesInBothRanges : Obligations.StoredPulseLiesInBothRanges := by
  intro s c v hinv hconf
  obtain ⟨t, ht, hpulse, -⟩ := setPulseClampsTwice.1 s c v (clamp v s.ch[c].minUs.toInt s.ch[c].maxUs.toInt) _ hconf
    rfl rfl
  obtain ⟨hlt, hmin, hmax, -, -, -, -⟩ := hinv
  rw [clamp_of_le hlt.le] at hpulse
  exact ⟨t, ht, by omega, by omega, by omega⟩

/-! ## Every reached state -/

theorem State.HasResetValues.channelsSafe (h : s.HasResetValues) : s.ChannelsSafe := fun c => by
  have hmin := h.minUs c
  have hmax := h.maxUs c
  have hpulse := h.pulseUs c
  have hpin := h.pin c
  constructor
  case inv6 => exact fun hen => absurd (hen.symm.trans (h.enabled c)) (by decide)
  all_goals omega

theorem State.HasResetValues.snapshotLive (h : s.HasResetValues) : s.SnapshotLive := fun snap hsnap => by
  rw [h.snapshot] at hsnap
  cases hsnap

/-- Settles O57: every step keeps the table safe and a snapshot equal to it, so every run from reset does. -/
theorem pulsesNeverLeaveTheEnvelope : Obligations.PulsesNeverLeaveTheEnvelope := by
  intro s n t hs ht
  obtain ⟨hsafe, hlive⟩ : t.ChannelsSafe ∧ t.SnapshotLive :=
    run_keeps (P := fun s => s.ChannelsSafe ∧ s.SnapshotLive)
      (fun s t h hst => ⟨stepKeepsChannelsSafe s t h.1 hst, stepKeepsSnapshotLive s t h.2 hst⟩) n
      ⟨hs.channelsSafe, hs.snapshotLive⟩ ht
  refine ⟨fun c => ?_, fun snap hsnap c => ?_⟩
  · obtain ⟨hlt, hmin, hmax, hpulse, -, -, -⟩ := hsafe c
    exact ⟨by omega, by omega, hpulse⟩
  · obtain ⟨-, rfl⟩ := hlive snap hsnap
    rw [snapTable_getElem]
    exact (hsafe c).inv4

end Sys2Proof.Machine
end

section
/-! `GET RANGE`, `GET PULSE` and `GET STATE`: the text each answers, and that it writes nothing but its answer (42_query.md
R77, R78, R79). -/

namespace Sys2Proof.Machine

variable {s : State} {c : Fin 8}

/-! ## The three answers as text -/

theorem rangeText_eq (ch : Channel) :
    rangeText ch =
      ascii ['R', 'A', 'N', 'G', 'E', ' '] ++ dec ch.minUs.toInt ++ ascii [' '] ++ dec ch.maxUs.toInt := by
  rw [List.append_assoc _ (ascii [' '])]
  rfl

theorem pulseText_eq (ch : Channel) :
    pulseText ch = ascii ['P', 'U', 'L', 'S', 'E', ' '] ++ dec ch.pulseUs.toInt := rfl

theorem bitText_eq (b : Bool) : bitText b = ascii [if b then '1' else '0'] := by
  cases b <;> rfl

theorem stateText_eq (ch : Channel) :
    stateText ch = ascii ['G', 'P', 'I', 'O', ' '] ++ dec ch.pin.toNat ++
      ascii [' ', 'E', 'N', 'A', 'B', 'L', 'E', ' '] ++ ascii [if ch.enabled then '1' else '0'] := by
  rw [← bitText_eq, List.append_assoc _ (ascii [' ', 'E', 'N', 'A', 'B', 'L', 'E', ' '])]
  exact List.append_assoc _ (space :: kwEnable) _

/-! ## The three commands -/

/-- A command that only answers writes no channel and no pin. -/
theorem exec_onlyAnswers {i : Instr} {text : List Byte} (h : exec i s = .next (s.succeed text false false))
    (hi : i.channel = c.val) :
    ∃ t, exec i s = .next t ∧ t.ch = s.ch ∧ NoPinEvent s t ∧ Answered s t text ⟨0, false, false⟩ ∧ CommandFrame c s t :=
  ⟨_, h, rfl, ⟨rfl, s.now_le_passTime⟩, ⟨rfl, rfl⟩, exec_commandFrame h hi⟩

/-- Settles O29: the query is one answer with `rangeText`. -/
theorem getRangeAnswersRange : Obligations.GetRangeAnswersRange := by
  refine ⟨fun s c => ?_, fun s c hc => ?_⟩
  · rw [← rangeText_eq]
    exact exec_onlyAnswers (exec_getRange_ok s c) rfl
  · exact ⟨_, exec_channelOut _ s hc, refusedWith_raiseError s _⟩

/-- Settles O30: the query is one answer with `pulseText`. -/
theorem getPulseAnswersPulse : Obligations.GetPulseAnswersPulse := by
  refine ⟨fun s c => ?_, fun s c hc => ?_⟩
  · rw [← pulseText_eq]
    exact exec_onlyAnswers (exec_getPulse_ok s c) rfl
  · exact ⟨_, exec_channelOut _ s hc, refusedWith_raiseError s _⟩

/-- Settles O31: the query is one answer with `stateText`. -/
theorem getStateAnswersPinAndEnable : Obligations.GetStateAnswersPinAndEnable := by
  refine ⟨fun s c => ?_, fun s c hc => ?_⟩
  · rw [← stateText_eq]
    exact exec_onlyAnswers (exec_getState_ok s c) rfl
  · exact ⟨_, exec_channelOut _ s hc, refusedWith_raiseError s _⟩

end Sys2Proof.Machine
end

section
/-! What the pins were last driven to: a frame ends each pin it raises with LOW, and nothing else drives high
(40_channel_config.md R66, 45_frame_scheduler.md R86). -/

namespace Sys2Proof.Machine

variable {s t : State} {p : Nat} {trace es : List PinEvent}

theorem levelAfter_ne_high {l : Option PinLevel} {e : PinEvent} (hl : l ≠ some .high) (he : e.act ≠ .high) :
    levelAfter p l e ≠ some .high := by
  unfold levelAfter
  split
  · cases ha : e.act with
    | high => exact absurd ha he
    | low => simp
    | _ => exact hl
  · exact hl

theorem tracedLevel_append_ne_high (h : tracedLevel trace p ≠ some .high) (hes : ∀ e ∈ es, e.act ≠ .high) :
    tracedLevel (trace ++ es) p ≠ some .high := by
  rw [tracedLevel_append]
  exact List.foldlRecOn es _ (motive := (· ≠ some PinLevel.high)) h fun _ hl e he => levelAfter_ne_high hl (hes e he)

/-- A pin that the frame raises ends low, shared or not, and every other pin keeps its level. -/
theorem State.NoPinHigh.frameEdges (hs : s.NoPinHigh) (snap : Vector SnapEntry 8) : (frameEdges snap s).NoPinHigh := by
  intro p
  by_cases hp : ∃ c : Fin 8, snap[c].enabled = true ∧ snap[c].pin.toNat = p
  · obtain ⟨c, hen, rfl⟩ := hp
    simp [-Fin.getElem_fin, tracedLevel_frameEdges_of_enabled s hen]
  · rw [tracedLevel_frameEdges_of_untouched snap s fun c hen hc => hp ⟨c, hen, hc⟩]
    exact hs p

/-- Outside FRAME no event of a step is HIGH. -/
theorem State.NoPinHigh.of_step (hs : s.NoPinHigh) (h : step s = .next t) (hf : s.phase ≠ .frame) : t.NoPinHigh := by
  obtain ⟨-, es, ht, -, hcause⟩ := step_traceGrows h
  intro p
  rw [ht]
  exact tracedLevel_append_ne_high (hs p) fun e he ha => hf ((hcause e he).phase_of_act.1 ha)

/-- Settles O53: a frame lowers what it raises, and no step outside FRAME drives a pin high. -/
theorem stepKeepsNoPinLastDrivenHigh : Obligations.StepKeepsNoPinLastDrivenHigh := by
  intro s t hs h
  by_cases hf : s.phase = .frame
  · obtain ⟨u, rfl, hc⟩ := step_case h
    rcases hc.of_frame hf with ⟨-, rfl⟩ | ⟨snap, -, rfl⟩
    · exact hs
    · exact hs.frameEdges snap
  · exact hs.of_step h hf

end Sys2Proof.Machine
end

section
/-! The frame wait and the start of a frame (45_frame_scheduler.md R81, R83, R85, R92). -/

namespace Sys2Proof.Machine

variable {s : State}

/-! ## The wait -/

/-- The spec's `avail` in integers, with floor division: the model's holds 0 where the spec's is negative. -/
theorem State.avail_eq_toNat (s : State) (x : Nat) :
    s.avail x = (((x : Int) - s.tRun0) / 20000 - s.served).toNat := by
  unfold State.avail Config.framePeriodUs
  omega

theorem State.startMin_eq (s : State) :
    s.startMin =
      if 1 ≤ ((s.now : Int) - s.tRun0) / 20000 - s.served then s.now else s.tRun0 + (s.served + 1) * 20000 := by
  have havail := s.avail_eq_toNat s.now
  unfold State.startMin Config.framePeriodUs
  split <;> split <;> omega

theorem frameWait_now_of_exact (h : s.edgeTiming = .exact) : (frameWait s).now = s.startMin :=
  congrArg State.now (State.lateness_of_exact (s := { s with now := s.startMin }) h)

theorem frameWait_now_of_given {d : Nat} {ds : List Nat} (h : s.edgeTiming = .lowerBound)
    (hd : s.delays.given = d :: ds) : (frameWait s).now = s.startMin + d :=
  (congrArg State.now (State.lateness_of_lowerBound (s := { s with now := s.startMin }) h)).trans
    (State.passTime_now_of_given (s := { s with now := s.startMin }) hd)

/-- The time at which the wait returns (45_frame_scheduler.md R81). -/
theorem frameWait_now (s : State) :
    (s.edgeTiming = .exact → (frameWait s).now = s.startMin) ∧
      (s.edgeTiming = .lowerBound → s.startMin ≤ (frameWait s).now ∧
        ∀ d ds, s.delays.given = d :: ds → (frameWait s).now = s.startMin + d) :=
  ⟨frameWait_now_of_exact, fun h => ⟨frameWait_now_le s, fun _ _ hd => frameWait_now_of_given h hd⟩⟩

/-- What the wait consumes, in the spec's `avail` (45_frame_scheduler.md R81, R82). -/
theorem frameWait_consumes (s : State) :
    let avail : Int := (((frameWait s).now : Int) - s.tRun0) / 20000 - s.served
    1 ≤ avail ∧ ((frameWait s).served : Int) = s.served + avail ∧
      (frameWait s).overrunCount = if 1 < avail then s.overrunCount + 1 else s.overrunCount := by
  intro avail
  have hpos := State.one_le_avail_of_startMin_le (frameWait_now_le s)
  have havail : (s.avail (frameWait s).now : Int) = avail := by
    have := s.avail_eq_toNat (frameWait s).now
    omega
  have hserved : (frameWait s).served = s.served + s.avail (frameWait s).now := by
    simp [frameWait, State.consumeExpiries, State.avail]
  have hover : (frameWait s).overrunCount =
      if 1 < s.avail (frameWait s).now then s.overrunCount + 1 else s.overrunCount := by
    simp [frameWait, State.consumeExpiries, State.avail]
  refine ⟨by omega, by omega, ?_⟩
  rw [hover, ← havail]
  norm_cast

theorem frameWait_hostSideKept (s : State) : HostSideKept s (frameWait s) := by
  rw [frameWait_eq]
  exact HostSideKept.rfl' s

/-- The block's items that the wait leaves alone, and the count of frames. -/
theorem frameWait_keeps (s : State) :
    (frameWait s).frameIndex = s.frameIndex + 1 ∧ (frameWait s).ch = s.ch ∧ (frameWait s).trace = s.trace ∧
      (frameWait s).responses = s.responses ∧ (frameWait s).records = s.records ∧ (frameWait s).tRun0 = s.tRun0 ∧
      (frameWait s).stopRequested = s.stopRequested ∧ (frameWait s).sharedPinFault = s.sharedPinFault := by
  simp [frameWait, State.consumeExpiries]

/-- Settles O5: the time, then what is consumed by then, then the items the wait leaves alone. -/
theorem frameWaitConsumesExpiries : Obligations.FrameWaitConsumesExpiries := by
  intro s hp
  refine ⟨_, step_wait hp, ?_, ?_⟩
  · obtain ⟨hexact, hlower⟩ := frameWait_now s
    rw [State.startMin_eq] at hexact hlower
    exact ⟨hexact, hlower, frameWait_consumes s⟩
  · obtain ⟨hframe, hch, htrace, hresp, hrec, htRun0, hstop, hfault⟩ := frameWait_keeps s
    exact ⟨hframe, rfl, rfl, hch, htrace, hresp, hrec, htRun0, congrArg (· || (frameWait s).stopDue) hstop, hfault,
      frameWait_hostSideKept s⟩

/-! ## The start of a frame -/

/-- Settles O8: the snapshot is `snapTable`, and the fault bit is set by `sharesPin` of it. -/
theorem frameStartTakesSnapshot : Obligations.FrameStartTakesSnapshot := by
  intro s hp hs
  refine ⟨_, snapTable s.ch, step_frame_start hp hs, rfl, fun c => ?_, ?_, rfl⟩
  · rw [snapTable_getElem]
    exact ⟨rfl, rfl, rfl⟩
  · change (s.sharedPinFault || sharesPin (snapTable s.ch)) = true ↔ _
    rw [Bool.or_eq_true, sharesPin_iff]
    simp only [snapTable_getElem]
    rfl

/-! ## The order -/

/-- Settles O9: the order is a permutation of the ids, sorted by pulse and then by id. -/
theorem frameOrderIsStableSort : Obligations.FrameOrderIsStableSort := fun snap =>
  have hperm := sortByPulse_perm snap channelIds
  ⟨hperm.length_eq, fun c => hperm.mem_iff.2 (mem_channelIds c),
    sortByPulse_pairwise snap channelIds channelIds_pairwise_lt⟩

end Sys2Proof.Machine
end

section
/-! The edges of a frame: its events and its end under both edge timings, and that it reads its snapshot alone
(45_frame_scheduler.md R83 to R92). -/

namespace Sys2Proof.Machine

variable {s : State} {snap : Vector SnapEntry 8}

theorem step_frame_run (hp : s.phase = .frame) (hs : s.snapshot = some snap) :
    step s = .next (frameEdges snap s).landStop :=
  step_of_phaseStep (by simp only [phaseStep, hp, frameStep, hs])

theorem frameEdges_trace (snap : Vector SnapEntry 8) (s : State) :
    (frameEdges snap s).trace = (lowEdges snap (frameOrder snap) 0 (risePhase snap s)).trace := rfl

theorem frameEdges_now (snap : Vector SnapEntry 8) (s : State) :
    (frameEdges snap s).now = (lowEdges snap (frameOrder snap) 0 (risePhase snap s)).now := rfl

/-- A stop that lands writes the stop request alone. -/
theorem State.landStop_eq {t : State} (h : s = t) :
    s.landStop = { t with stopRequested := s.landStop.stopRequested } := by
  subst h
  rfl

/-! ## Under `exact` -/

/-- Under `exact` no free duration is drawn. -/
theorem lowEdges_delays_of_exact (snap : Vector SnapEntry 8) (cs : List (Fin 8)) (baseline : Int)
    (h : s.edgeTiming = .exact) : (lowEdges snap cs baseline s).delays = s.delays := by
  induction cs generalizing s baseline with
  | nil => rfl
  | cons c cs ih =>
    unfold lowEdges
    split
    · rw [ih _ (by simpa using h), State.emitNow_delays, State.sleep, State.lateness_of_exact (by simpa using h)]
      rfl
    · exact ih _ h

theorem frameEdges_delays_of_exact (snap : Vector SnapEntry 8) (h : s.edgeTiming = .exact) :
    (frameEdges snap s).delays = s.delays := by
  unfold frameEdges
  rw [risePhase_exact snap h]
  exact lowEdges_delays_of_exact snap (frameOrder snap) 0 h

/-- The events of a frame that starts at `start`, under `exact` (45_frame_scheduler.md R84, R86). -/
def exactEvents (snap : Vector SnapEntry 8) (start : Nat) : List PinEvent :=
  ((enabledIds snap).map fun c => ⟨start, snap[c].pin.toNat, .high⟩) ++
    ((enabledOrder snap).map fun c => ⟨start + width snap c, snap[c].pin.toNat, .low⟩)

/-- The events of the frame and its end: the order of the low edges does not matter to the largest width. -/
theorem frameEdges_exact (h : s.edgeTiming = .exact) (hl : SnapLegal snap) :
    (frameEdges snap s).trace = s.trace ++ exactEvents snap s.now ∧
      (frameEdges snap s).now = s.now + ((enabledIds snap).map (width snap)).foldl max 0 := by
  have hrow := frameOrder_aboveBaseline hl
  have hperm := (enabledOrder_perm snap).map (width snap)
  obtain ⟨htrace, hnow⟩ := lowEdges_exact snap (frameOrder snap) 0 (s := risePhase snap s)
    (by rw [risePhase_exact snap h]; exact h) hrow
  rw [risePhase_exact snap h] at htrace hnow
  unfold frameEdges
  rw [risePhase_exact snap h]
  refine ⟨htrace.trans (List.append_assoc _ _ _), hnow.trans ?_⟩
  exact congrArg (s.now + ·) (hperm.foldl_eq 0)

theorem foldl_max_le {l : List Nat} {b : Nat} (h : ∀ x ∈ l, x ≤ b) : l.foldl max 0 ≤ b :=
  List.foldlRecOn l max (motive := (· ≤ b)) (Nat.zero_le b) fun _ ha x hx => max_le ha (h x hx)

theorem SnapLegal.width_le (hl : SnapLegal snap) {c : Fin 8} (hc : snap[c].enabled = true) : width snap c ≤ 2500 := by
  obtain ⟨-, hmax⟩ := hl c hc
  unfold width
  omega

theorem SnapLegal.foldl_width_le (hl : SnapLegal snap) : ((enabledIds snap).map (width snap)).foldl max 0 ≤ 2500 := by
  refine foldl_max_le fun x hx => ?_
  obtain ⟨c, hc, rfl⟩ := List.mem_map.1 hx
  exact hl.width_le ((mem_enabledIds snap c).1 hc)

/-- Settles O10: the events and the end of the frame under `exact`, and what its edges leave alone. -/
theorem exactFrameEmitsCommandedPulses : Obligations.ExactFrameEmitsCommandedPulses := by
  intro s snap hp hs he hl
  obtain ⟨htrace, hnow⟩ := frameEdges_exact he hl
  refine ⟨_, step_frame_run hp hs, htrace.trans (List.append_assoc _ _ _).symm, hnow, ?_, ?_⟩
  · have hmax := hl.foldl_width_le
    rw [State.landStop_now, hnow]
    omega
  · have hkept := State.landStop_eq (frameEdges_eq snap s)
    rw [frameEdges_delays_of_exact snap he] at hkept
    exact hkept

theorem enabledIds_eq_nil (h : ∀ c : Fin 8, snap[c].enabled = false) : enabledIds snap = [] :=
  List.filter_eq_nil_iff.2 fun c _ => by simp [-Fin.getElem_fin, h c]

/-- Settles O12: by O10 the frame's events and its duration are those of no channel. -/
theorem idleFrameEmitsNothing : Obligations.IdleFrameEmitsNothing := by
  intro s snap hp hs he hidle
  have hl : SnapLegal snap := fun c hc => absurd hc (by simp [-Fin.getElem_fin, hidle c])
  have hids := enabledIds_eq_nil hidle
  have horder : enabledOrder snap = [] := (hids ▸ enabledOrder_perm snap).eq_nil
  obtain ⟨t, hstep, htrace, hnow, -, hkept⟩ := exactFrameEmitsCommandedPulses s snap hp hs he hl
  have htrace : t.trace = s.trace := by simpa [hids, horder] using htrace
  have hnow : t.now = s.now := by simpa [hids] using hnow
  rw [htrace, hnow] at hkept
  exact ⟨t, hstep, hkept⟩

/-! ## Under `lower_bound` -/

/-- The high edges of a frame; `t_hi` is where they end (45_frame_scheduler.md R84, R88; log 5). -/
theorem risePhase_events (snap : Vector SnapEntry 8) (s : State) :
    ∃ es, (risePhase snap s).trace = s.trace ++ es ∧
      es.map PinEvent.deed = ((enabledIds snap).map fun c => (snap[c].pin.toNat, PinAct.high)) ∧
      EventsBetween s.now (risePhase snap s).now es ∧ s.now ≤ (risePhase snap s).now ∧
      (∀ e, es.getLast? = some e → e.time = (risePhase snap s).now) := by
  unfold risePhase
  split
  · rename_i hn
    have hids : enabledIds snap = [] := enabledIds_eq_nil (by simpa [noneEnabled, mem_channelIds] using hn)
    exact ⟨[], by simp [hids, EventsBetween.nil, s.now_le_lateness]⟩
  · exact highEdges_events snap channelIds s

/-- The row of low edges ends at its last event, and takes no time when it has none (45_frame_scheduler.md R90). -/
theorem lowEdges_now (snap : Vector SnapEntry 8) (cs : List (Fin 8)) (baseline : Int) (s : State) {es : List PinEvent}
    (h : (lowEdges snap cs baseline s).trace = s.trace ++ es) :
    (lowEdges snap cs baseline s).now = (es.getLast?.map PinEvent.time).getD s.now := by
  induction cs generalizing s baseline es with
  | nil =>
    have hes : es = [] := by simpa [lowEdges] using h
    rw [hes]
    rfl
  | cons c cs ih =>
    unfold lowEdges at h ⊢
    split
    · rename_i hc
      rw [if_pos hc] at h
      obtain ⟨fs, hfs, -⟩ := lowEdges_events snap cs snap[c].pulseUs.toInt
        ((s.sleep (snap[c].pulseUs.toInt - baseline).toNat).emitNow snap[c].pin .low)
      rw [ih _ _ hfs]
      rw [hfs, State.emitNow_trace, State.sleep_trace, List.append_assoc, List.append_cancel_left_eq] at h
      subst h
      cases hlast : fs.getLast? <;> simp [List.getLast?_cons, hlast]
    · rename_i hc
      rw [if_neg hc] at h
      exact ih _ _ h

/-- Settles O11: the high edges end at `t_hi`, and the low edges come from there on. -/
theorem lowerBoundFrameNeverCutsAPulse : Obligations.LowerBoundFrameNeverCutsAPulse := by
  intro s snap hp hs _ hl
  obtain ⟨his, hhis, hhideeds, hhibetween, hle, hhilast⟩ := risePhase_events snap s
  obtain ⟨los, hlos, hlodeeds, hlobetween, -⟩ := lowEdges_events snap (frameOrder snap) 0 (risePhase snap s)
  obtain ⟨los', hlos', hnotEarly, hgaps⟩ :=
    lowEdges_notEarly snap (frameOrder snap) 0 (risePhase snap s) (frameOrder_aboveBaseline hl)
  obtain rfl : los = los' := List.append_cancel_left (hlos.symm.trans hlos')
  have hend := lowEdges_now snap (frameOrder snap) 0 (risePhase snap s) hlos
  rw [← frameEdges_now] at hend hlobetween
  refine ⟨(frameEdges snap s).landStop, his, los, (risePhase snap s).now, step_frame_run hp hs, ?_, hhideeds,
    hlodeeds, hhibetween, hhilast, hlobetween, hnotEarly, hgaps, hle, fun e he => ?_, fun hnone => ?_,
    State.landStop_eq (frameEdges_eq snap s)⟩
  · rw [State.landStop_trace, frameEdges_trace, hlos, hhis]
  · rw [State.landStop_now, hend, he]
    rfl
  · rw [State.landStop_now, hend, hnone]
    rfl

/-! ## The channel table -/

/-- The state with another channel table. -/
def State.withTable (s : State) (table : Vector Channel 8) : State := { s with ch := table }

theorem State.withTable_emitNow (s : State) (table : Vector Channel 8) (pin : PinWord) (act : PinAct) :
    (s.withTable table).emitNow pin act = (s.emitNow pin act).withTable table := rfl

theorem State.withTable_lateness (s : State) (table : Vector Channel 8) :
    (s.withTable table).lateness = s.lateness.withTable table := by
  cases h : s.edgeTiming with
  | exact => rw [State.lateness_of_exact h, State.lateness_of_exact (s := s.withTable table) h]
  | lowerBound => rw [State.lateness_of_lowerBound h, State.lateness_of_lowerBound (s := s.withTable table) h]; rfl

theorem State.withTable_sleep (s : State) (table : Vector Channel 8) (d : Nat) :
    (s.withTable table).sleep d = (s.sleep d).withTable table := (s.elapse d).withTable_lateness table

theorem highEdges_withTable (snap : Vector SnapEntry 8) (cs : List (Fin 8)) (s : State) (table : Vector Channel 8) :
    highEdges snap cs (s.withTable table) = (highEdges snap cs s).withTable table := by
  induction cs generalizing s with
  | nil => rfl
  | cons c cs ih =>
    unfold highEdges
    rw [State.withTable_lateness, State.withTable_emitNow, ih, ih]
    split <;> rfl

theorem lowEdges_withTable (snap : Vector SnapEntry 8) (cs : List (Fin 8)) (baseline : Int) (s : State)
    (table : Vector Channel 8) :
    lowEdges snap cs baseline (s.withTable table) = (lowEdges snap cs baseline s).withTable table := by
  induction cs generalizing s baseline with
  | nil => rfl
  | cons c cs ih =>
    unfold lowEdges
    rw [State.withTable_sleep, State.withTable_emitNow, ih, ih]
    split <;> rfl

theorem risePhase_withTable (snap : Vector SnapEntry 8) (s : State) (table : Vector Channel 8) :
    risePhase snap (s.withTable table) = (risePhase snap s).withTable table := by
  unfold risePhase
  rw [State.withTable_lateness, highEdges_withTable]
  split <;> rfl

theorem frameEdges_withTable (snap : Vector SnapEntry 8) (s : State) (table : Vector Channel 8) :
    frameEdges snap (s.withTable table) = (frameEdges snap s).withTable table := by
  unfold frameEdges
  rw [risePhase_withTable, lowEdges_withTable]
  rfl

/-- Settles O13: every edge goes the same way with another table. -/
theorem frameReadsOnlyItsSnapshot : Obligations.FrameReadsOnlyItsSnapshot := by
  intro s snap table hp hs
  refine ⟨_, step_frame_run hp hs, ?_, ?_⟩
  · rw [frameEdges_eq]
    rfl
  · have hstep : step (s.withTable table) = .next (frameEdges snap (s.withTable table)).landStop :=
      step_frame_run hp hs
    rw [frameEdges_withTable] at hstep
    exact hstep

/-! ## One pin -/

/-- The ids of a row whose channels hold the pin. -/
def idsOnPin (snap : Vector SnapEntry 8) (p : Nat) (cs : List (Fin 8)) : List (Fin 8) :=
  cs.filter fun c => snap[c].pin.toNat = p

theorem mem_idsOnPin {p : Nat} {cs : List (Fin 8)} {c : Fin 8} :
    c ∈ idsOnPin snap p cs ↔ c ∈ cs ∧ snap[c].pin.toNat = p := by
  simp [-Fin.getElem_fin, idsOnPin]

/-- The frame's events on one pin are those of the enabled channels that hold it. -/
theorem filter_pin_exactEvents (snap : Vector SnapEntry 8) (start p : Nat) :
    (exactEvents snap start).filter (fun e => e.pin = p) =
      ((idsOnPin snap p (enabledIds snap)).map fun c => ⟨start, snap[c].pin.toNat, .high⟩) ++
        ((idsOnPin snap p (enabledOrder snap)).map fun c => ⟨start + width snap c, snap[c].pin.toNat, .low⟩) := by
  rw [exactEvents, List.filter_append, List.filter_map, List.filter_map]
  rfl

theorem filter_high_exactEvents (snap : Vector SnapEntry 8) (start p : Nat) :
    (exactEvents snap start).filter (fun e => e.deed = (p, PinAct.high)) =
      (idsOnPin snap p (enabledIds snap)).map fun c => ⟨start, snap[c].pin.toNat, .high⟩ := by
  rw [exactEvents, List.filter_append, List.filter_map, List.filter_map]
  simp [-Fin.getElem_fin, Function.comp_def, PinEvent.deed, idsOnPin]

theorem filter_low_exactEvents (snap : Vector SnapEntry 8) (start p : Nat) :
    (exactEvents snap start).filter (fun e => e.deed = (p, PinAct.low)) =
      (idsOnPin snap p (enabledOrder snap)).map fun c => ⟨start + width snap c, snap[c].pin.toNat, .low⟩ := by
  rw [exactEvents, List.filter_append, List.filter_map, List.filter_map]
  simp [-Fin.getElem_fin, Function.comp_def, PinEvent.deed, idsOnPin]

theorem idsOnPin_perm (snap : Vector SnapEntry 8) (p : Nat) :
    (idsOnPin snap p (enabledOrder snap)).Perm (idsOnPin snap p (enabledIds snap)) :=
  (enabledOrder_perm snap).filter _

theorem Precedes.width_le {c d : Fin 8} (h : Precedes snap c d) : width snap c ≤ width snap d := by
  unfold Precedes at h
  unfold width
  omega

theorem idsOnPin_enabledOrder_pairwise (snap : Vector SnapEntry 8) (p : Nat) :
    (idsOnPin snap p (enabledOrder snap)).Pairwise (Precedes snap) :=
  ((sortByPulse_pairwise snap channelIds channelIds_pairwise_lt).filter _).filter _

/-- The first channel of a pin in the frame's order has the smallest width on it. -/
theorem head_idsOnPin_enabledOrder {p : Nat} {c : Fin 8} (hen : snap[c].enabled = true) (hpin : snap[c].pin.toNat = p) :
    ∃ d, (idsOnPin snap p (enabledOrder snap)).head? = some d ∧ snap[d].enabled = true ∧ snap[d].pin.toNat = p ∧
      width snap d ≤ width snap c := by
  have hc : c ∈ idsOnPin snap p (enabledOrder snap) := mem_idsOnPin.2 ⟨(mem_enabledOrder snap c).2 hen, hpin⟩
  have hsorted := idsOnPin_enabledOrder_pairwise snap p
  cases hrow : idsOnPin snap p (enabledOrder snap) with
  | nil => exact absurd (hrow ▸ hc) List.not_mem_nil
  | cons d ds =>
    obtain ⟨hd, hdpin⟩ := mem_idsOnPin.1 (hrow ▸ List.mem_cons_self : d ∈ idsOnPin snap p (enabledOrder snap))
    refine ⟨d, rfl, (mem_enabledOrder snap d).1 hd, hdpin, ?_⟩
    rw [hrow] at hc hsorted
    rcases List.mem_cons.1 hc with rfl | hc
    · exact le_rfl
    · exact ((List.pairwise_cons.1 hsorted).1 c hc).width_le

/-- Settles O14: the pin's first LOW is that of the first of its channels in the frame's order, and each channel gives
the pin one HIGH and one LOW. -/
theorem sharedPinFallsAtShortestPulse : Obligations.SharedPinFallsAtShortestPulse := by
  intro s snap c hp hs he hl hen hmin
  obtain ⟨htrace, -⟩ := frameEdges_exact he hl
  refine ⟨_, exactEvents snap s.now, step_frame_run hp hs, htrace, ?_, ?_⟩
  · obtain ⟨d, hhead, hden, hdpin, hle⟩ := head_idsOnPin_enabledOrder hen rfl
    have hwidth : width snap d = width snap c := le_antisymm hle (hmin d hden (BitVec.eq_of_toNat_eq hdpin))
    rw [filter_low_exactEvents, List.head?_map, hhead, Option.map_some, hwidth, hdpin]
  · rw [filter_high_exactEvents, filter_low_exactEvents, List.length_map, List.length_map,
      (idsOnPin_perm snap _).length_eq]

/-- Without a shared pin the channel is alone on its pin. -/
theorem idsOnPin_enabledIds_of_unshared {c : Fin 8} (hshare : sharesPin snap = false) (hen : snap[c].enabled = true) :
    idsOnPin snap snap[c].pin.toNat (enabledIds snap) = [c] := by
  have halone : ∀ d, d ∈ idsOnPin snap snap[c].pin.toNat (enabledIds snap) ↔ d ∈ [c] := by
    intro d
    rw [mem_idsOnPin, mem_enabledIds, List.mem_singleton]
    constructor
    · rintro ⟨hd, hpin⟩
      by_contra hne
      have hshared := (sharesPin_iff snap).2 ⟨d, c, hne, hd, hen, BitVec.eq_of_toNat_eq hpin⟩
      exact absurd hshared (Bool.eq_false_iff.1 hshare)
    · rintro rfl
      exact ⟨hen, rfl⟩
  have hnodup : (idsOnPin snap snap[c].pin.toNat (enabledIds snap)).Nodup := (channelIds_nodup.filter _).filter _
  exact List.perm_singleton.1 ((List.perm_ext_iff_of_nodup hnodup (List.nodup_singleton c)).2 halone)

/-- A pin that is not shared gets one HIGH at the start and one LOW at its channel's width. -/
theorem filter_pin_exactEvents_of_unshared {c : Fin 8} (start : Nat) (hshare : sharesPin snap = false)
    (hen : snap[c].enabled = true) :
    (exactEvents snap start).filter (fun e => e.pin = snap[c].pin.toNat) =
      [⟨start, snap[c].pin.toNat, .high⟩, ⟨start + width snap c, snap[c].pin.toNat, .low⟩] := by
  have hids := idsOnPin_enabledIds_of_unshared hshare hen
  have horder := List.perm_singleton.1 (hids ▸ idsOnPin_perm snap snap[c].pin.toNat)
  rw [filter_pin_exactEvents, hids, horder]
  rfl

/-- The snapshot of a safe table is legal. -/
theorem State.ChannelsSafe.snapLegal (h : s.ChannelsSafe) : SnapLegal (snapTable s.ch) := by
  intro c _
  rw [snapTable_getElem]
  exact (h c).inv4

/-- Settles O15: a frame that leaves the run unfaulted has found no shared pin at its start. -/
theorem unsharedPinIsHighForItsPulse : Obligations.UnsharedPinIsHighForItsPulse := by
  intro s c hp hs he hsafe hen
  have hstart := step_frame_start hp hs
  have hrun : step (frameStart s).landStop = .next (frameEdges (snapTable s.ch) (frameStart s).landStop).landStop :=
    step_frame_run hp rfl
  obtain ⟨htrace, -⟩ := frameEdges_exact (s := (frameStart s).landStop) he hsafe.snapLegal
  have hfault : (frameEdges (snapTable s.ch) (frameStart s).landStop).landStop.sharedPinFault =
      (s.sharedPinFault || sharesPin (snapTable s.ch)) := by
    rw [State.landStop_sharedPinFault, frameEdges_eq]
    rfl
  refine ⟨_, _, exactEvents (snapTable s.ch) s.now, hstart, hrun, htrace, hfault, fun hclean => ?_⟩
  have hshare : sharesPin (snapTable s.ch) = false := by
    rw [State.Faulted, hfault, Bool.or_eq_true, not_or] at hclean
    exact Bool.eq_false_iff.2 hclean.2
  have hslot := snapTable_getElem s.ch c
  have hpulse := filter_pin_exactEvents_of_unshared s.now hshare (c := c) (by rw [hslot]; exact hen)
  rw [width, hslot] at hpulse
  exact hpulse

end Sys2Proof.Machine
end

section
/-! The control phase: the host's actions, the poll, the line a step applies, and the end of the phase
(46_control_loop.md R95 to R101). -/

namespace Sys2Proof.Machine

variable {s s' t : State}

/-! ## The host's actions -/

theorem State.accepted_iff (s : State) (k : Nat) : s.accepted k = true ↔ k ∈ s.conns.map Conn.id := by
  simp [State.accepted]

theorem State.known_iff (s : State) (k : Nat) : s.known k = true ↔ k ∈ (s.conns ++ s.pending).map Conn.id := by
  rw [State.known, Bool.or_eq_true, s.accepted_iff, List.map_append, List.mem_append]
  simp

theorem State.hostAct_connect_of_known {k : Nat} (h : s.known k = true) : s.hostAct (.connect k) = s := by
  simp only [State.hostAct, if_pos h]

theorem State.hostAct_connect_of_not_known {k : Nat} (h : ¬s.known k = true) :
    s.hostAct (.connect k) = { s with pending := s.pending ++ [⟨k, []⟩] } := by
  simp only [State.hostAct, if_neg h]

theorem receive_id (k : Nat) (data : List Byte) (c : Conn) : (receive k data c).id = c.id := by
  unfold receive; split <;> rfl

theorem receive_buffer (k : Nat) (data : List Byte) (c : Conn) :
    (receive k data c).buffer = if c.id = k then c.buffer ++ data else c.buffer := by
  unfold receive; split <;> rfl

/-- Bytes go to the end of their connection's buffer and leave the other connections as they are. -/
theorem forall₂_receive (k : Nat) (data : List Byte) (cs : List Conn) :
    List.Forall₂ (fun c d => d.id = c.id ∧ d.buffer = if c.id = k then c.buffer ++ data else c.buffer) cs
      (cs.map (receive k data)) :=
  List.forall₂_map_right_iff.2 (List.forall₂_same.2 fun c _ => ⟨receive_id k data c, receive_buffer k data c⟩)

theorem mem_filter_id_ne {k : Nat} {cs : List Conn} (c : Conn) :
    c ∈ cs.filter (fun c => c.id != k) ↔ c ∈ cs ∧ c.id ≠ k := by
  rw [List.mem_filter, bne_iff_ne]

theorem State.isOpen_iff (s : State) (k : Nat) :
    s.isOpen k = true ↔ k ∈ s.conns.map Conn.id ∧ ∀ x ∈ s.dueInputs, x.2 ≠ .disconnect k := by
  rw [State.isOpen, Bool.and_eq_true, s.accepted_iff, Bool.not_eq_true', State.closing, List.any_eq_false]
  simp only [beq_iff_eq, ne_eq]

/-- After its poll a control phase applies a line or ends. -/
theorem StepCase.of_control_polled (h : StepCase s t) (hp : s.phase = .control) (hb : s.batch ≠ none) :
    (∃ u, LineTaken s u ∧ (t = u ∨ Effect u t)) ∨ t = endControl s := by
  cases h with
  | polled _ hnone => exact absurd hnone hb
  | dropped _ _ _ hf => exact .inl ⟨_, (fetch_line hf).1, .inl rfl⟩
  | answeredBad _ _ u hf kind => exact .inl ⟨u, (fetch_line hf).1, .inr (.refused kind)⟩
  | executed _ _ u _ hf he => exact .inl ⟨u, (fetch_line hf).1, .inr he⟩
  | ended => exact .inr rfl
  | _ => simp_all

/-- Only a poll takes the host's actions off the list and, before the shutdown, sees what they do to the connections. -/
theorem StepCase.hostInputs_conns_kept (h : StepCase s t) (hpoll : s.phase ≠ .control ∨ s.batch ≠ none) :
    t.hostInputs = s.hostInputs ∧ (s.phase ≠ .shutdown → t.conns = s.conns ∧ t.pending = s.pending) := by
  by_cases hp : s.phase = .control
  · rcases h.of_control_polled hp (hpoll.resolve_left (not_not_intro hp)) with ⟨u, hu, ht⟩ | rfl
    · rw [hu.onlyLine ht]
      exact ⟨rfl, fun _ => ⟨rfl, rfl⟩⟩
    · rw [endControl, loopTop_eq]
      exact ⟨rfl, fun _ => ⟨rfl, rfl⟩⟩
  · have e := h.phaseWrites
    unfold PhaseWrites at e
    split at e
    case h_5 hc => exact absurd hc hp
    case h_6 hs =>
      rw [e]
      exact ⟨rfl, fun hn => absurd hs hn⟩
    all_goals
      rw [e]
      exact ⟨rfl, fun _ => ⟨rfl, rfl⟩⟩

/-- Settles O17, action by action. -/
theorem hostInputsTakeEffectInOrder : Obligations.HostInputsTakeEffectInOrder := by
  refine ⟨fun s due later h hdue hlater => ?_, fun s k => ⟨fun hk => ?_, fun hk => ?_⟩, fun s k data => ?_,
    fun s k => ?_, fun s => rfl, fun s t h hpoll => ?_, fun s due later k h hdue hlater => ?_⟩
  · rw [State.deliver, h]
    exact s.deliverFrom_append due later hdue hlater
  · exact State.hostAct_connect_of_known ((s.known_iff k).2 hk)
  · exact State.hostAct_connect_of_not_known (mt (s.known_iff k).1 hk)
  · exact ⟨_, _, rfl, forall₂_receive k data _, forall₂_receive k data _⟩
  · exact ⟨_, _, rfl, List.filter_sublist, mem_filter_id_ne, List.filter_sublist, mem_filter_id_ne⟩
  · obtain ⟨u, rfl, hc⟩ := step_case h
    exact hc.hostInputs_conns_kept hpoll
  · rw [s.isOpen_iff, State.dueInputs_of_append h hdue hlater]

/-! ## The poll -/

theorem step_poll (hp : s.phase = .control) (hb : s.batch = none) : step s = .next (poll s).landStop :=
  step_of_phaseStep (by simp only [phaseStep, hp, controlStep, fetch, hb])

/-- Settles O18: the poll is `poll_eq`, and the lines are those of `splitLines_spec`. -/
theorem pollTakesCompleteLines : Obligations.PollTakesCompleteLines := by
  refine ⟨fun s hp hb => ⟨_, step_poll hp hb, ?_⟩, splitLines_spec⟩
  have hstop : (poll s).landStop.stopRequested = s.deliver.stopRequested := by
    rw [poll_landStop_stopRequested, s.deliver_stopRequested]
  rw [State.landStop_eq (poll_eq s)]
  exact ⟨rfl, rfl, rfl, rfl, hstop, s.deliver_phase.trans hp, s.deliver_ch, s.deliver_trace, s.deliver_now,
    s.deliver_responses, s.deliver_records⟩

/-! ## The next line -/

theorem fetch_of_batch {batch : List (Nat × List Line)} (hb : s.batch = some batch) : fetch s = fetchLine s batch := by
  simp only [fetch, hb]

theorem fetchLine_of_live_eq_nil {batch : List (Nat × List Line)} (h : live batch = []) :
    fetchLine s batch = .drained := by
  simp only [fetchLine, h, List.getElem?_nil]

/-- The line taken is the first one of the connection chosen. -/
theorem fetchLine_of_chosen {batch : List (Nat × List Line)} {i k : Nat} {content : Line} {rest : List Line}
    (hi : (chooseIndex (live batch).length s.choices).1 = i) (hget : (live batch)[i]? = some (k, content :: rest)) :
    fetchLine s batch = .line content { s with
      batch := some ((live batch).set i (k, rest)), conn := k,
      choices := (chooseIndex (live batch).length s.choices).2 } := by
  subst hi
  simp only [fetchLine, hget]

theorem LineTaken.outputs_kept (h : LineTaken s t) :
    t.ch = s.ch ∧ t.trace = s.trace ∧ t.responses = s.responses ∧ t.records = s.records ∧ t.now = s.now := by
  rw [h]
  exact ⟨rfl, rfl, rfl, rfl, rfl⟩

/-- Settles O19: some choice always names a connection with a line left, and a given choice is the one taken. -/
theorem anyConnectionInItsOwnOrder : Obligations.AnyConnectionInItsOwnOrder := by
  intro s batch _ hb
  rw [fetch_of_batch hb]
  refine ⟨fetchLine_of_live_eq_nil, fun hlive => ?_, fun i k content rest draws hget hgiven hlen => ?_⟩
  · obtain ⟨content, s', hf⟩ := fetchLine_of_live (s := s) hlive
    obtain ⟨htaken, i, k, rest, hget, hconn, hbatch⟩ := fetchLine_line hf
    obtain ⟨hch, htrace, -⟩ := htaken.outputs_kept
    exact ⟨i, k, content, rest, s', hget, hf, hconn, hbatch, hch, htrace⟩
  · obtain ⟨hi, -⟩ := List.getElem?_eq_some_iff.1 hget
    exact ⟨_, fetchLine_of_chosen (chooseIndex_of_given hlen hi hgiven) hget, rfl, rfl⟩

/-! ## The line applied -/

theorem step_control_line {content : Line} (hp : s.phase = .control) (hf : fetch s = .line content s')
    (happly : applyLine content s' = .next t) : step s = .next t.landStop :=
  step_of_phaseStep (by simp only [phaseStep, hp, controlStep, hf, happly])

theorem applyLine_command {content : Line} {i : Instr} (h : decodeLine content = .command i) (s : State) :
    applyLine content s = exec i s := by
  simp only [applyLine, h]

theorem applyLine_bad {content : Line} {kind : ErrorKind} (h : decodeLine content = .bad kind) (s : State) :
    applyLine content s = .next (s.raiseError kind) := by
  simp only [applyLine, h]

theorem applyLine_blank {content : Line} (h : decodeLine content = .blank) (s : State) :
    applyLine content s = .next s := by
  simp only [applyLine, h]

/-- Settles O20, by what the line decodes to. -/
theorem stepRunsDecodedLine : Obligations.StepRunsDecodedLine := by
  intro s s' content hp hf
  refine ⟨fun i hi => ?_, fun kind hk => ?_, fun hblank => ?_, (fetch_line hf).1.outputs_kept⟩
  · obtain ⟨t, ht, -⟩ := exec_effect i s'
    exact ⟨t, ht, step_control_line hp hf ((applyLine_command hi s').trans ht)⟩
  · exact ⟨_, refusedWith_raiseError s' kind, step_control_line hp hf (applyLine_bad hk s')⟩
  · exact step_control_line hp hf (applyLine_blank hblank s')

/-! ## The end of the phase -/

/-- The end of the phase writes the time it draws, the stop request that time brings, and the phase. -/
theorem endControl_eq (s : State) :
    endControl s = { s.passTime with
      batch := none, stopRequested := s.passTime.landStop.stopRequested,
      phase := if s.passTime.landStop.stopRequested then .shutdown else .wait } := by
  rw [endControl, loopTop_eq]
  rfl

/-- The top of the loop has seen every stop that is due. -/
theorem loopTop_landStop (s : State) : (loopTop s).landStop = loopTop s := by
  rw [State.landStop_eq (loopTop_eq s), loopTop_landStop_stopRequested, loopTop_eq]

/-- When all of the host's actions are due, a stop among them is seen, however much time passes first. -/
theorem State.passTime_stopDue {x : Nat × HostEvent} (hx : x ∈ s.hostInputs) (hstop : x.2 = .stop)
    (hdue : ∀ x ∈ s.hostInputs, x.1 ≤ s.now) : s.passTime.stopDue = true :=
  s.passTime.stopDue_iff.2 ⟨s.hostInputs, [], (List.append_nil _).symm,
    fun y hy => (hdue y hy).trans s.now_le_passTime, x, hx, hstop⟩

/-- Settles O21: the phase ends at `endControl`. -/
theorem controlPhaseEndsAfterItsDraw : Obligations.ControlPhaseEndsAfterItsDraw := by
  intro s hp hf
  refine ⟨endControl s, (step_control_drained hp hf).trans (congrArg _ (loopTop_landStop _)), ?_⟩
  rw [endControl_eq]
  refine ⟨s.now_le_passTime, fun d ds hd => State.passTime_now_of_given hd, rfl, rfl, rfl, rfl, rfl, rfl, rfl, rfl,
    rfl, fun ⟨x, hx, hstop⟩ hdue => ?_⟩
  have hreq : s.passTime.landStop.stopRequested = true := by
    rw [State.landStop_stopRequested, State.passTime_stopDue hx hstop hdue, Bool.or_true]
  exact if_pos hreq

end Sys2Proof.Machine
end

section
/-! Malformed lines: a verb that is no keyword is unknown, and what follows a known verb is at worst an invalid command
(30_encoding.md R59, 60_exceptions.md R105). -/

namespace Sys2Proof

variable {rest : List (List Byte)} {kind : ErrorKind}

theorem decodeSetup_error (h : decodeSetup rest = .error kind) : kind = .invalidCommand := by
  unfold decodeSetup at h
  split at h
  · split at h
    · split at h <;> cases h
      rfl
    · cases h; rfl
  · cases h; rfl

theorem decodeChannelOnly_error {make : Int → Instr} (h : decodeChannelOnly make rest = .error kind) :
    kind = .invalidCommand := by
  unfold decodeChannelOnly at h
  split at h
  · split at h <;> cases h
    rfl
  · cases h; rfl

theorem decodeSet_error (h : decodeSet rest = .error kind) : kind = .invalidCommand := by
  unfold decodeSet at h
  split at h
  · split at h
    · split at h <;> cases h
      rfl
    · cases h; rfl
  · split at h
    · split at h <;> cases h
      rfl
    · cases h; rfl
  · cases h; rfl

theorem decodeGet_error (h : decodeGet rest = .error kind) : kind = .invalidCommand := by
  unfold decodeGet at h
  split at h
  · split at h
    · split_ifs at h
      cases h; rfl
    · cases h; rfl
  · cases h; rfl

/-- The verbs of the commands (30_encoding.md R58). -/
def commandVerbs : List (List Byte) := [kwSetup, kwEnable, kwDisable, kwSet, kwGet]

theorem decodeTokens_of_unknown {verb : List Byte} (h : ∀ kw ∈ commandVerbs, isKeyword verb kw = false) :
    decodeTokens verb rest = .error .unknownCommand := by
  simp only [commandVerbs, List.forall_mem_cons] at h
  obtain ⟨hsetup, henable, hdisable, hset, hget, -⟩ := h
  simp only [decodeTokens, hsetup, henable, hdisable, hset, hget, Bool.false_eq_true, if_false]

theorem decodeTokens_error_of_known {verb : List Byte} (hk : ∃ kw ∈ commandVerbs, isKeyword verb kw = true)
    (h : decodeTokens verb rest = .error kind) : kind = .invalidCommand := by
  unfold decodeTokens at h
  split_ifs at h with hsetup henable hdisable hset hget
  · exact decodeSetup_error h
  · exact decodeChannelOnly_error h
  · exact decodeChannelOnly_error h
  · exact decodeSet_error h
  · exact decodeGet_error h
  · simp [commandVerbs, hsetup, henable, hdisable, hset, hget] at hk

end Sys2Proof
end

section
/-! The errors of the protocol: their codes and texts, the order in which they are found, and that an error ends its own
command and nothing else (60_exceptions.md R103 to R108). -/

namespace Sys2Proof.Machine

variable {s t : State} {i : Instr}

/-! ## Codes, texts, and no stop -/

/-- Settles O35: the codes and the texts are the model's tables. -/
theorem errorCodesAndTexts : Obligations.ErrorCodesAndTexts :=
  ⟨⟨rfl, rfl⟩, ⟨rfl, rfl⟩, ⟨rfl, rfl⟩, ⟨rfl, rfl⟩, ⟨rfl, rfl⟩, ⟨rfl, rfl⟩⟩

/-- Settles O58, by induction on the number of steps: each of them answers a next state. -/
theorem machineNeverStops : Obligations.MachineNeverStops := by
  intro n
  induction n with
  | zero => exact fun s => ⟨s, rfl⟩
  | succ n ih =>
    intro s
    obtain ⟨u, hu, -⟩ := step_total s
    rw [run_succ_of_next n hu]
    exact ih _

/-! ## The order of the errors -/

/-- Settles O34: the verb and the format are checked at decode, and each operand when those before it have passed. -/
theorem errorsInOrderOfPrecedence : Obligations.ErrorsInOrderOfPrecedence :=
  ⟨fun _ _ => decodeTokens_of_unknown, fun _ _ _ => decodeTokens_error_of_known,
    fun i s hc => ⟨_, exec_channelOut i s hc, refusedWith_raiseError s _⟩,
    fun s _ v hconf => ⟨⟨_, exec_enable_unconfigured hconf, refusedWith_raiseError s _⟩,
      ⟨_, exec_setPulse_unconfigured v hconf, refusedWith_raiseError s _⟩⟩,
    fun s c _ hp => ⟨_, exec_setup_badPin s c hp, refusedWith_raiseError s _⟩,
    fun s c _ _ hr => ⟨_, exec_setRange_bad s c hr, refusedWith_raiseError s _⟩⟩

/-! ## Well-formed operands -/

theorem channelLegal_val (c : Fin 8) : channelLegal c.val = true :=
  (channelLegal_iff _).2 (by omega)

theorem pinLegal_eq_isSome (p : Int) : pinLegal p = (pinOperand p).isSome := by
  cases hp : pinOperand p with
  | none =>
    have := pinOperand_eq_none hp
    rw [Option.isSome_none, ← Bool.not_eq_true, pinLegal_iff]
    omega
  | some q =>
    rw [Option.isSome_some, pinLegal_iff]
    by_contra hn
    rw [pinOperand_of_out (by omega)] at hp
    cases hp

theorem rangeLegal_eq_isSome (a b : Int) : rangeLegal a b = (rangeOperand a b).isSome := by
  cases hr : rangeOperand a b with
  | none =>
    have := rangeOperand_eq_none hr
    rw [Option.isSome_none, ← Bool.not_eq_true, rangeLegal_iff]
    omega
  | some r =>
    obtain ⟨hlt, hlo, hhi, hlt'⟩ := rangeOperand_eq_some hr
    rw [Option.isSome_some, rangeLegal_iff]
    omega

theorem wellFormed_setup (c : Fin 8) (p : Int) :
    (Instr.setup c.val p).wellFormed = (pinOperand p).isSome := by
  rw [Instr.wellFormed, channelLegal_val, pinLegal_eq_isSome, Bool.true_and]

theorem wellFormed_setRange (c : Fin 8) (a b : Int) :
    (Instr.setRange c.val a b).wellFormed = (rangeOperand a b).isSome := by
  rw [Instr.wellFormed, channelLegal_val, rangeLegal_eq_isSome, Bool.true_and]

theorem channelLegal_of_wellFormed (h : i.wellFormed = true) : channelLegal i.channel = true := by
  cases i with
  | setup c p => exact (Bool.and_eq_true_iff.1 h).1
  | setRange c a b => exact (Bool.and_eq_true_iff.1 h).1
  | _ => exact h

theorem wellFormed_of_channelOut (h : i.channel < 0 ∨ 7 < i.channel) : i.wellFormed = false :=
  Bool.eq_false_iff.2 fun hw => by
    have := (channelLegal_iff _).1 (channelLegal_of_wellFormed hw)
    omega

/-! ## The answer of a command -/

/-- How a command in state `s` is answered: an ill-formed one with the error of the operand that is out of bounds, a
well-formed one with success or as not configured. -/
inductive Verdict (i : Instr) (s : State) : State → Prop
  | illFormed (kind : ErrorKind) (hw : i.wellFormed = false)
      (hk : kind = .invalidChannel ∨ kind = .invalidPin ∨ kind = .invalidRange) : Verdict i s (s.raiseError kind)
  | notConfigured (hw : i.wellFormed = true) : Verdict i s (s.raiseError .notConfigured)
  | done {t : State} {text : List Byte} {rangeClamped pulseChanged : Bool} (hw : i.wellFormed = true)
      (h : Answered s t text ⟨0, rangeClamped, pulseChanged⟩) : Verdict i s t

theorem exec_verdict (i : Instr) (s : State) : ∃ t, exec i s = .next t ∧ Verdict i s t := by
  cases hi : channelOperand i.channel with
  | none =>
    have hout := channelOperand_eq_none hi
    exact ⟨_, exec_channelOut i s hout, .illFormed _ (wellFormed_of_channelOut hout) (.inl rfl)⟩
  | some c =>
    have hc := channelOperand_eq_some hi
    have hlegal := channelLegal_val c
    cases i with
    | setup _ p =>
      obtain rfl : _ = (c.val : Int) := hc
      cases hp : pinOperand p with
      | none =>
        have hw : (Instr.setup c.val p).wellFormed = false := by rw [wellFormed_setup, hp, Option.isSome_none]
        exact ⟨_, exec_setup_badPin s c (pinOperand_eq_none hp), .illFormed _ hw (.inr (.inl rfl))⟩
      | some q =>
        have hw : (Instr.setup c.val p).wellFormed = true := by rw [wellFormed_setup, hp, Option.isSome_some]
        exact ⟨_, exec_setup_ok s c hp, .done hw ⟨rfl, rfl⟩⟩
    | enable _ =>
      obtain rfl : _ = (c.val : Int) := hc
      cases hconf : s.ch[c].configured with
      | false => exact ⟨_, exec_enable_unconfigured hconf, .notConfigured hlegal⟩
      | true => exact ⟨_, exec_enable_ok hconf, .done hlegal ⟨rfl, rfl⟩⟩
    | disable _ =>
      obtain rfl : _ = (c.val : Int) := hc
      cases hconf : s.ch[c].configured with
      | false => exact ⟨_, exec_disable_unconfigured hconf, .done hlegal ⟨rfl, rfl⟩⟩
      | true => exact ⟨_, exec_disable_configured hconf, .done hlegal ⟨rfl, rfl⟩⟩
    | setRange _ a b =>
      obtain rfl : _ = (c.val : Int) := hc
      cases hr : rangeOperand a b with
      | none =>
        have hw : (Instr.setRange c.val a b).wellFormed = false := by
          rw [wellFormed_setRange, hr, Option.isSome_none]
        exact ⟨_, exec_setRange_bad s c (rangeOperand_eq_none hr), .illFormed _ hw (.inr (.inr rfl))⟩
      | some r =>
        have hw : (Instr.setRange c.val a b).wellFormed = true := by
          rw [wellFormed_setRange, hr, Option.isSome_some]
        exact ⟨_, exec_setRange_ok s c hr, .done hw ⟨rfl, rfl⟩⟩
    | setPulse _ v =>
      obtain rfl : _ = (c.val : Int) := hc
      cases hconf : s.ch[c].configured with
      | false => exact ⟨_, exec_setPulse_unconfigured v hconf, .notConfigured hlegal⟩
      | true => exact ⟨_, exec_setPulse_ok v hconf, .done hlegal ⟨rfl, rfl⟩⟩
    | getRange _ =>
      obtain rfl : _ = (c.val : Int) := hc
      exact ⟨_, exec_getRange_ok s c, .done hlegal ⟨rfl, rfl⟩⟩
    | getPulse _ =>
      obtain rfl : _ = (c.val : Int) := hc
      exact ⟨_, exec_getPulse_ok s c, .done hlegal ⟨rfl, rfl⟩⟩
    | getState _ =>
      obtain rfl : _ = (c.val : Int) := hc
      exact ⟨_, exec_getState_ok s c, .done hlegal ⟨rfl, rfl⟩⟩

/-- Every verdict is one answer, and one with a code other than 0 is the refusal's. -/
theorem Verdict.refused_or_done (h : Verdict i s t) :
    (∃ kind, t = s.raiseError kind) ∨ ∃ text rc pc, Answered s t text ⟨0, rc, pc⟩ := by
  cases h with
  | illFormed kind => exact .inl ⟨kind, rfl⟩
  | notConfigured => exact .inl ⟨.notConfigured, rfl⟩
  | done _ ha => exact .inr ⟨_, _, _, ha⟩

/-- Settles O32: the answer is the refusal's, which writes nothing else, or a success with code 0. -/
theorem refusedCommandWritesNothing : Obligations.RefusedCommandWritesNothing := by
  intro i s
  obtain ⟨t, ht, hv⟩ := exec_verdict i s
  rcases hv.refused_or_done with ⟨kind, rfl⟩ | ⟨text, rc, pc, ha⟩
  · have href := refusedWith_raiseError s kind
    exact ⟨_, _, _, ht, href.1, fun _ => ⟨kind, rfl, href⟩⟩
  · exact ⟨t, text, _, ht, ha, fun h0 => absurd rfl h0⟩

/-- Settles O36, by the three verdicts. -/
theorem wellFormedCommandsPassOperandChecks : Obligations.WellFormedCommandsPassOperandChecks := by
  intro i s
  obtain ⟨t, ht, hv⟩ := exec_verdict i s
  cases hv with
  | illFormed kind hw hk =>
    refine ⟨_, _, ht, rfl, fun hw' => absurd (hw.symm.trans hw') Bool.false_ne_true, fun _ => ?_⟩
    rcases hk with rfl | rfl | rfl
    · exact .inl rfl
    · exact .inr (.inl rfl)
    · exact .inr (.inr rfl)
  | notConfigured hw =>
    exact ⟨_, _, ht, rfl, fun _ => .inr rfl, fun hw' => absurd (hw'.symm.trans hw) Bool.false_ne_true⟩
  | done hw ha =>
    exact ⟨_, _, ht, ha.1, fun _ => .inl rfl, fun hw' => absurd (hw'.symm.trans hw) Bool.false_ne_true⟩

end Sys2Proof.Machine
end

section
/-! Reset, INIT, the shutdown, and the two phases that only a reset leaves (70_reset_and_hazards.md). -/

namespace Sys2Proof.Machine

variable {s t u : State}

/-! ## The step of each phase -/

theorem step_reset (hp : s.phase = .reset) : step s = .next (releaseReset s).landStop :=
  step_of_phaseStep (by simp only [phaseStep, hp])

theorem step_init (hp : s.phase = .init) : step s = .next (initialise s).landStop :=
  step_of_phaseStep (by simp only [phaseStep, hp])

theorem step_shutdown (hp : s.phase = .shutdown) : step s = .next (shutdown s).landStop :=
  step_of_phaseStep (by simp only [phaseStep, hp])

/-! ## INIT -/

theorem initialise_of_false (h : s.regsOk = false ∨ s.timerOk = false ∨ s.endpointOk = false) :
    initialise s = { s with phase := .failed } := by
  rcases initialise_cases s with ⟨-, e⟩ | ⟨hr, ht, he, -⟩
  · exact e
  · simp [hr, ht, he] at h

theorem initialise_of_true (hr : s.regsOk = true) (ht : s.timerOk = true) (he : s.endpointOk = true) :
    initialise s = loopTop (startTimer s) := by
  rcases initialise_cases s with ⟨h, -⟩ | ⟨-, -, -, e⟩
  · simp [hr, ht, he] at h
  · exact e

/-- INIT sees a stop by its end only when one was requested or due before, as it takes no time (log 9). -/
theorem initialise_landStop_stopRequested (s : State) :
    (initialise s).landStop.stopRequested = (s.stopRequested || s.stopDue) := by
  rcases initialise_cases s with ⟨-, e⟩ | ⟨-, -, -, e⟩ <;> rw [e]
  · rfl
  · exact loopTop_landStop_stopRequested _

/-- INIT that sees no stop ends in WAIT or in FAILED. -/
theorem initialise_phase_of_no_stop (h : s.landStop.stopRequested = false) :
    (initialise s).phase = .wait ∨ (initialise s).phase = .failed := by
  rcases initialise_cases s with ⟨-, e⟩ | ⟨-, -, -, e⟩ <;> rw [e]
  · exact .inr rfl
  · left
    rw [loopTop_eq]
    exact if_neg (Bool.eq_false_iff.1 h)

/-- Settles O3: a false result leaves FAILED, which the next step keeps; otherwise the timer starts and `loopTop` follows. -/
theorem initStartsTimerOrFails : Obligations.InitStartsTimerOrFails := by
  intro s hp
  refine ⟨fun hbad => ?_, fun hr ht he => ?_⟩
  · have hst : step s = .next ({ s with phase := .failed } : State).landStop := by
      rw [step_init hp, initialise_of_false hbad]
    obtain ⟨u, hu, hc⟩ := step_total ({ s with phase := .failed } : State).landStop
    have hfinal : u.landStop.phase = .failed := by
      rw [hc.of_final (.inr rfl)]
      rfl
    exact ⟨_, _, hst, rfl, hu, hfinal⟩
  · refine ⟨loopTop (startTimer s), ?_, ?_⟩
    · rw [step_init hp, initialise_of_true hr ht he, loopTop_landStop]
    · rw [loopTop_eq]
      exact ⟨rfl, rfl, rfl, rfl, rfl, rfl, rfl, rfl, rfl, rfl, rfl⟩

/-! ## HALTED and FAILED -/

/-- Time may have passed and the stop request may differ; nothing else does. -/
def OnlyTimePassed (s t : State) : Prop :=
  s.now ≤ t.now ∧ t = { s with now := t.now, delays := t.delays, stopRequested := t.stopRequested }

theorem OnlyTimePassed.refl (s : State) : OnlyTimePassed s s := ⟨le_rfl, rfl⟩

theorem OnlyTimePassed.trans (h : OnlyTimePassed s t) (h' : OnlyTimePassed t u) : OnlyTimePassed s u := by
  obtain ⟨hnow, heq⟩ := h
  obtain ⟨hnow', heq'⟩ := h'
  refine ⟨hnow.trans hnow', ?_⟩
  rw [heq', heq]

theorem OnlyTimePassed.phase (h : OnlyTimePassed s t) : t.phase = s.phase := by rw [h.2]

theorem onlyTimePassed_of_step_final (hp : s.phase = .halted ∨ s.phase = .failed) (h : step s = .next t) :
    OnlyTimePassed s t := by
  obtain ⟨u, rfl, hc⟩ := step_case h
  rw [hc.of_final hp]
  exact ⟨s.now_le_passTime, rfl⟩

/-- Settles O4: each step of the run lets time pass and stays in the phase, so the whole run does. -/
theorem haltedAndFailedAreFinal : Obligations.HaltedAndFailedAreFinal := by
  intro n s hp
  obtain ⟨t, ht⟩ := machineNeverStops n s
  have hstep : ∀ u v, OnlyTimePassed s u → step u = .next v → OnlyTimePassed s v := fun u v hu huv =>
    hu.trans (onlyTimePassed_of_step_final (by rwa [hu.phase]) huv)
  exact ⟨t, ht, run_keeps hstep n (.refl s) ht⟩

/-! ## The shutdown -/

/-- Settles O23: the shutdown's two passes, and the stop that may land after them. -/
theorem shutdownReleasesConfiguredPins : Obligations.ShutdownReleasesConfiguredPins := by
  intro s hp
  have hst := step_shutdown hp
  obtain ⟨hch, -, ⟨es, htrace, hbetween, hdeeds⟩, heq⟩ := shutdown_spec s
  generalize shutdown s = u at *
  refine ⟨u.landStop, es, hst, htrace, hbetween, hdeeds, hch, ?_⟩
  rw [heq]
  exact ⟨rfl, rfl, rfl, rfl, rfl, rfl, rfl, rfl, rfl, rfl⟩

/-! ## Reset -/

theorem State.hasResetValues_reset : State.reset.HasResetValues := by
  constructor
  case phase => rfl
  case overrunCount => rfl
  case frameIndex => rfl
  case stopRequested => rfl
  case sharedPinFault => rfl
  case buffers => exact ⟨rfl, rfl, rfl⟩
  case snapshot => rfl
  case pinView => exact fun _ => ⟨rfl, rfl⟩
  all_goals
    intro c
    rw [State.reset_slot]
    rfl

/-- `State.applyReset` differs from `State.reset` in items of the host and in free values only. -/
theorem State.hasResetValues_applyReset (s : State) : s.applyReset.HasResetValues := by
  obtain ⟨configured, pin, enabled, minUs, maxUs, pulseUs, phase, overrunCount, frameIndex, stopRequested,
    sharedPinFault, buffers, snapshot, pinView⟩ := State.hasResetValues_reset
  exact ⟨configured, pin, enabled, minUs, maxUs, pulseUs, phase, overrunCount, frameIndex, stopRequested,
    sharedPinFault, buffers, snapshot, pinView⟩

/-- No stop that was asserted before the reset is due after it (60_exceptions.md R116). -/
theorem State.applyReset_stopDue (s : State) : s.applyReset.stopDue = false := by
  have hdue : s.applyReset.dueInputs = [] :=
    State.dueInputs_of_append (later := s.laterInputs) rfl nofun fun _ => State.now_lt_of_head_laterInputs
  rw [State.stopDue, hdue]
  rfl

/-- Settles O1: nothing the host did before the reset is due after it, so neither of the two steps sees a stop. -/
theorem resetGivesResetValues : Obligations.ResetGivesResetValues := by
  refine ⟨State.hasResetValues_reset, fun s =>
    ⟨s.hasResetValues_applyReset, fun _ => State.now_lt_of_head_laterInputs, ?_⟩⟩
  have hinit : step s.applyReset = .next (releaseReset s.applyReset) :=
    (step_reset rfl).trans (congrArg _ (State.landStop_of_stopDue_false s.applyReset_stopDue))
  have hstop : (releaseReset s.applyReset).landStop.stopRequested = false := s.applyReset_stopDue
  exact ⟨_, _, hinit, rfl, rfl, rfl, rfl, rfl, rfl, step_init rfl,
    (initialise_landStop_stopRequested _).trans hstop, initialise_phase_of_no_stop hstop⟩

end Sys2Proof.Machine
end

section
/-! A command placed by `State.withFetchWord` (log 17): the line the decoder reads is the one the next step takes. -/

namespace Sys2Proof.Machine

variable {i : Instr}

theorem decode_eq_ok {bytes rest : List Byte} (h : decode bytes = .ok (i, rest)) :
    ∃ content, splitLine bytes = some (content, rest) ∧ decodeLine content = .command i := by
  unfold decode at h
  split at h
  · cases h
  · rename_i content tail hsplit
    split at h
    · cases h
    · cases h
    · rename_i j hline
      cases h
      exact ⟨content, hsplit, hline⟩

theorem decodeTableWord_eq_some {nbits w : Nat} (h : decodeTableWord nbits w = some i) :
    ∃ content rest, splitLine (bytesOfWord ((nbits + 7) / 8) w) = some (content, rest) ∧
      decodeLine content = .command i := by
  unfold decodeTableWord at h
  split at h
  · rename_i j rest hdecode
    cases h
    obtain ⟨content, hsplit, hline⟩ := decode_eq_ok hdecode
    exact ⟨content, rest, hsplit, hline⟩
  · cases h

/-- Of the bits only their first line is placed, as the only line of connection 0. -/
theorem State.withFetchWord_batch (s : State) {nbits w : Nat} {content : Line} {rest : List Byte}
    (h : splitLine (bytesOfWord ((nbits + 7) / 8) w) = some (content, rest)) :
    (s.withFetchWord nbits w).batch = some [(0, [content])] := by
  simp only [State.withFetchWord, splitLines_of_splitLine h, List.take_succ_cons, List.take_zero]

/-- With one line on one connection that line is taken, and nothing is drawn. -/
theorem fetch_of_single_line {s : State} {k : Nat} {content : Line} (h : s.batch = some [(k, [content])]) :
    fetch s = .line content { s with batch := some [(k, [])], conn := k } := by
  rw [fetch_of_batch h]
  exact fetchLine_of_chosen (i := 0) rfl rfl

/-- Settles O22: the next step takes the placed line, which decodes to the command, and executes it. -/
theorem placedCommandRunsNext : Obligations.PlacedCommandRunsNext := by
  intro s nbits w i h
  obtain ⟨content, rest, hsplit, hline⟩ := decodeTableWord_eq_some h
  have hfetch := fetch_of_single_line (s.withFetchWord_batch hsplit)
  obtain ⟨t, ht, -⟩ := exec_effect i { s.withFetchWord nbits w with batch := some [(0, [])], conn := 0 }
  exact ⟨_, t, ht, step_control_line rfl hfetch ((applyLine_command hline _).trans ht), rfl, rfl, rfl, rfl, rfl, rfl,
    rfl⟩

end Sys2Proof.Machine
end

section
/-! Connection ids stay distinct (log 16): the host's actions keep them so, and apart from the shutdown, which closes
every connection, only a poll changes the connections. -/

namespace Sys2Proof.Machine

variable {s t : State}

theorem State.ConnsDistinct.of_kept (hs : s.ConnsDistinct) (hconns : t.conns = s.conns)
    (hpending : t.pending = s.pending) : t.ConnsDistinct := by
  rwa [State.ConnsDistinct, hconns, hpending]

theorem acceptOne_connsDistinct (hs : s.ConnsDistinct) : (acceptOne s).ConnsDistinct := by
  unfold acceptOne
  split
  · exact hs
  · rename_i c cs hpending
    rwa [State.ConnsDistinct, List.append_assoc, List.singleton_append, ← hpending]

theorem takeLines_connsDistinct (hs : s.ConnsDistinct) : (takeLines s).ConnsDistinct := by
  have hids : (s.conns.map fun c => { c with buffer := (splitLines c.buffer).2 }).map Conn.id = s.conns.map Conn.id :=
    List.map_map
  rwa [State.ConnsDistinct, takeLines, List.map_append, hids, ← List.map_append]

theorem poll_connsDistinct (hs : s.ConnsDistinct) : (poll s).ConnsDistinct :=
  takeLines_connsDistinct (acceptOne_connsDistinct (State.deliver_connsDistinct hs))

theorem shutdown_connsDistinct (s : State) : (shutdown s).ConnsDistinct := List.nodup_nil

/-- A stop that lands touches no connection. -/
theorem State.ConnsDistinct.landStop (hs : s.ConnsDistinct) : s.landStop.ConnsDistinct :=
  hs.of_kept s.landStop_conns s.landStop_pending

/-- Settles O56, by whether the step is a poll, the shutdown, or one that keeps the connections. -/
theorem stepKeepsConnectionsDistinct : Obligations.StepKeepsConnectionsDistinct := by
  intro s t hs h
  by_cases hpoll : s.phase = .control ∧ s.batch = none
  · obtain ⟨hp, hb⟩ := hpoll
    rw [step_poll hp hb] at h
    cases h
    exact (poll_connsDistinct hs).landStop
  obtain ⟨u, rfl, hc⟩ := step_case h
  by_cases hshut : s.phase = .shutdown
  · rw [hc.of_shutdown hshut]
    exact (shutdown_connsDistinct s).landStop
  · obtain ⟨hconns, hpending⟩ := (hc.hostInputs_conns_kept (not_and_or.1 hpoll)).2 hshut
    exact (hs.of_kept hconns hpending).landStop

end Sys2Proof.Machine
end
